-- ==== Sys2Proof/Word.lean ====
section
/-! DEFINITION. The word types of the block: bytes of buffer RAM, 32-bit bus words, and the widths of the address
and length registers (00_scope.md R10, R12). -/

namespace Sys2Proof

/-- A byte of buffer RAM, of a stream or of a grid (R12). -/
abbrev Byte := BitVec 8

/-- A 32-bit bus value: a register as the host sees it, a command word (R21, R80). -/
abbrev Word := BitVec 32

/-- A buffer address: `ADDR_BITS = 20` (R10). -/
abbrev BufAddr := BitVec 20

/-- A length or offset register: `LEN_BITS = 21` (R10). -/
abbrev Length := BitVec 21

/-- A host offset inside the 2^21-byte host window (R60). -/
abbrev HostOffset := BitVec 21

end Sys2Proof
end

