-- ==== Sys2Proof/Config.lean ====
section
/-! DEFINITION. What is fixed for the machine: the format constants (00_scope.md R8, R9), the parameters the spec fixes
(R10), and the parameters it leaves open (R11), which have no body here: no proof can see their value. -/

namespace Sys2Proof.Config

/-- `W`, width of the bitmap and the grid in pixels (R8). -/
abbrev W : Nat := 576

/-- `H`, height in rows (R8). -/
abbrev H : Nat := 720

/-- `N = ceil(W/8)`, bytes in a scanline (R8). -/
abbrev N : Nat := 72

/-- `FRAME_BYTES = H*N`, bytes of a packed bitmap (R9). -/
abbrev frameBytes : Nat := 51840

/-- `GRID_BYTES = W*H`, bytes of a grayscale grid (R9). -/
abbrev gridBytes : Nat := 414720

/-- `MAX_RUN`, the longest run one control byte encodes (R9). -/
abbrev maxRun : Nat := 128

/-- `BUF_BYTES = 2^20`, bytes of buffer RAM (R10). -/
abbrev bufBytes : Nat := 1048576

/-- The two roundings of a negative `quantError / 8` (R11, R185). -/
inductive DivRound where
  /-- The quotient is rounded toward zero. -/
  | trunc
  /-- The quotient is rounded toward minus infinity. -/
  | floor
deriving DecidableEq, Repr, Inhabited

/-- `DIV_ROUND`, left open by the spec (R11, U5). DESIGN CHOICE, log 8: a constant with no body; safe. -/
opaque divRound : DivRound

/-- `BLOCK_BASE`, the system address of the host window, left open (R11, U15). DESIGN CHOICE, log 9: no body; safe.
That all instances of a platform share it is the model's choice too (log 22: unsafe). -/
opaque blockBase : Nat

/-- How many instances a platform has beyond the first; `NUM_INSTANCES` is left open (R11, U15).
DESIGN CHOICE, log 10: no body; safe. -/
opaque furtherInstances : Nat

/-- `NUM_INSTANCES`, an integer of at least 1 (R11). -/
def numInstances : Nat := furtherInstances + 1

end Sys2Proof.Config
end

