-- ==== Sys2Proof/Syntax.lean ====
section
/-! DEFINITION. The instructions of the block (00_scope.md R2): the commands of format CMD32 (30_encoding.md R80, R81)
and the stream groups of format CTRL8 (R86), one constructor per row of spec/opcode_table.json. Beside them, the five
legal commands by themselves, and a whole stream group with its data bytes (R85, R92). -/

namespace Sys2Proof

/-- One constructor per row of the opcode table. A command takes its operands from the latch (R83), so the five legal
ones carry none. A stream group carries the field `n` of its control byte; its data bytes are operands in buffer RAM,
read when the group runs (R150, R152; DESIGN CHOICE, log 14: safe). -/
inductive Instr where
  /-- ENCL: encode one scanline (R130). -/
  | encl
  /-- ENCF: encode one frame (R131). -/
  | encf
  /-- DECL: decode one scanline (R160). -/
  | decl
  /-- DECF: decode one frame (R165). -/
  | decf
  /-- DITH: dither one grid (R181). -/
  | dith
  /-- ILLEGAL: every other command word, with its fields OP and RSV (R82, R201). -/
  | illegal (op : BitVec 4) (rsv : BitVec 28)
  /-- LIT: a literal run of `n + 1` bytes (R150). -/
  | lit (n : BitVec 7)
  /-- NOP: the control byte 0x80 (R151). -/
  | nop
  /-- REP: a repeat run of `257 - c` bytes, where `c` is the control byte `1nnnnnnn` (R152). -/
  | rep (n : BitVec 7)
deriving DecidableEq, Repr

/-- The five legal commands (R81). -/
inductive Command where
  | encl
  | encf
  | decl
  | decf
  | dith
deriving DecidableEq, Repr

/-- A stream group with its data bytes, as in the stream notation (R85, R92). -/
inductive Group where
  /-- `lit b0, …`: a literal run of the bytes given. -/
  | lit (data : List Byte)
  /-- `nop`. -/
  | nop
  /-- `rep L, V`: `count` copies of `value`. -/
  | rep (count : Nat) (value : Byte)
deriving DecidableEq, Repr

/-- The output bytes a group stands for (R86). -/
def Group.expand : Group → List Byte
  | .lit data => data
  | .nop => []
  | .rep count value => List.replicate count value

end Sys2Proof
end

