-- ==== Sys2Proof/WellFormed.lean ====
section
/-! DEFINITION. The checks of an instruction's fields (30_encoding.md R81, R82, R86, R87): ILLEGAL stands only for words
no other command row matches, REP excludes the NOP control byte, and the runs of a whole group are within 1 to 128
(literal) and 2 to 128 (repeat). -/

namespace Sys2Proof

/-- OP values that select a command when the reserved bits are 0 (R81). -/
def legalOp (op : BitVec 4) : Bool := decide (1 ≤ op.toNat ∧ op.toNat ≤ 5)

/-- An instruction whose fields some encoding gives it. -/
def Instr.wellFormed : Instr → Bool
  | .encl => true
  | .encf => true
  | .decl => true
  | .decf => true
  | .dith => true
  | .illegal op rsv => !(legalOp op && decide (rsv = 0))
  | .lit _ => true
  | .nop => true
  | .rep n => decide (n ≠ 0)

/-- A group whose length one control byte can give (R87). -/
def Group.wellFormed : Group → Bool
  | .lit data => decide (1 ≤ data.length ∧ data.length ≤ Config.maxRun)
  | .nop => true
  | .rep count _ => decide (2 ≤ count ∧ count ≤ Config.maxRun)

end Sys2Proof
end

