-- ==== Sys2Proof/Decode.lean ====
section
/-! DEFINITION. Decoding and encoding (30_encoding.md). A command word decodes to exactly one command (R84), a control
byte to exactly one of LIT, NOP, REP (R86). A list of stream bytes decodes to its first group and the bytes after it, or
is rejected by name where it ends too early (R85, R88). Then the encoders, from the same tables. -/

namespace Sys2Proof

/-- Field OP of a command word (R80). -/
def cmdOp (w : Word) : BitVec 4 := w.extractLsb' 0 4

/-- Field RSV of a command word (R80). -/
def cmdRsv (w : Word) : BitVec 28 := w.extractLsb' 4 28

/-- Field `n` of a control byte, bits 6:0 (R86). -/
def ctrlField (c : Byte) : BitVec 7 := c.extractLsb' 0 7

/-- The command opcode map for `RSV = 0` (R81); the reserved values select no command. -/
def commandOfOp (op : BitVec 4) : Option Command :=
  match op.toNat with
  | 1 => some .encl
  | 2 => some .encf
  | 3 => some .decl
  | 4 => some .decf
  | 5 => some .dith
  | _ => none

/-- A legal command as an instruction. -/
def Command.instr : Command → Instr
  | .encl => .encl
  | .encf => .encf
  | .decl => .decl
  | .decf => .decf
  | .dith => .dith

/-- Command decode, total (R84): a word with `RSV = 0` and `OP` 0x1 to 0x5 is that command, every other is ILLEGAL. -/
def decodeCommand (w : Word) : Instr :=
  if cmdRsv w = 0 then
    match commandOfOp (cmdOp w) with
    | some c => c.instr
    | none => .illegal (cmdOp w) (cmdRsv w)
  else .illegal (cmdOp w) (cmdRsv w)

/-- Control byte decode, total (R86): the three rows partition the 256 byte values. -/
def decodeControl (c : Byte) : Instr :=
  if c.toNat ≤ 0x7F then .lit (ctrlField c)
  else if c = 0x80 then .nop
  else .rep (ctrlField c)

/-- The literal length `L = zext(c[6:0]) + 1` (R87). -/
def litLength (n : BitVec 7) : Nat := n.toNat + 1

/-- The repeat length `L = 257 - c` with `c = 0x80 + n` (R87). -/
def repLength (n : BitVec 7) : Nat := 257 - (128 + n.toNat)

/-- An encoded instruction: a command word (CMD32) or a control byte (CTRL8). -/
inductive Encoded where
  | cmd (w : Word)
  | ctrl (c : Byte)
deriving DecidableEq, Repr

/-- Decoding, total on both formats. -/
def decode : Encoded → Instr
  | .cmd w => decodeCommand w
  | .ctrl c => decodeControl c

/-- Why a list of stream bytes holds no whole group. -/
inductive GroupReject where
  /-- There is no control byte: the list is empty (R154 (a)). -/
  | noControlByte
  /-- The list ends inside the group its control byte begins (R154 (b)). -/
  | groupCutShort
deriving DecidableEq, Repr

/-- The first group of a list of stream bytes, and the bytes after it (R85, R86, R88). -/
def decodeGroup : List Byte → Except GroupReject (Group × List Byte)
  | [] => .error .noControlByte
  | c :: bs =>
    if c.toNat ≤ 0x7F then
      let len := litLength (ctrlField c)
      if bs.length < len then .error .groupCutShort else .ok (.lit (bs.take len), bs.drop len)
    else if c = 0x80 then .ok (.nop, bs)
    else
      match bs with
      | [] => .error .groupCutShort
      | v :: rest => .ok (.rep (repLength (ctrlField c)) v, rest)

/-- Value of OP for a legal command (R81). -/
def Command.op : Command → BitVec 4
  | .encl => 1
  | .encf => 2
  | .decl => 3
  | .decf => 4
  | .dith => 5

/-- A command word from its fields, `{RSV, OP}` (R80). -/
def cmdWord (op : BitVec 4) (rsv : BitVec 28) : Word := rsv ++ op

/-- The encoder: the word or control byte of an instruction, from the tables of R81 and R86. -/
def encode : Instr → Encoded
  | .encl => .cmd (cmdWord 1 0)
  | .encf => .cmd (cmdWord 2 0)
  | .decl => .cmd (cmdWord 3 0)
  | .decf => .cmd (cmdWord 4 0)
  | .dith => .cmd (cmdWord 5 0)
  | .illegal op rsv => .cmd (cmdWord op rsv)
  | .lit n => .ctrl (0#1 ++ n)
  | .nop => .ctrl 0x80
  | .rep n => .ctrl (1#1 ++ n)

/-- The stream bytes of a group (R87, R92): a literal of `L` bytes has control byte `L - 1`, a repeat `257 - L`. -/
def encodeGroup : Group → List Byte
  | .lit data => BitVec.ofNat 8 (data.length - 1) :: data
  | .nop => [0x80]
  | .rep count value => [BitVec.ofNat 8 (257 - count), value]

/-- The bytes of a whole stream. -/
def streamBytes (gs : List Group) : List Byte := gs.flatMap encodeGroup

/-- The output bytes of a whole stream. -/
def streamOutput (gs : List Group) : List Byte := gs.flatMap Group.expand

/-- What the decoder reads from an instruction of `nbits` bits, bit 0 the least significant of its first byte or word:
32 bits are a command word (format CMD32), fewer or more begin with a control byte (format CTRL8), and no bits are no
instruction (log 14). -/
def decodeTableWord (nbits w : Nat) : Option Instr :=
  if nbits = 32 then some (decodeCommand (BitVec.ofNat 32 w))
  else if nbits = 0 then none
  else some (decodeControl (BitVec.ofNat 8 w))

end Sys2Proof
end

