-- ==== Sys2Proof/Machine/State.lean ====
section
/-! DEFINITION. The state of one block instance as plain data (10_state.md R20): the registers, the latch, the phase,
the buffer RAM and the transient of the running command; beside them the model's own two fields, the last value a host
read returned and the list of what the host, the platform and the engine do next. The reasons a step can stop. Reset. -/

namespace Sys2Proof.Machine

/-- Why the machine stops. -/
inductive Fault where
  /-- A host read or an engine read met a byte of BUF that holds no value: nothing has written it since power-on, or an
  error or abort left it unspecified (93_implementation_defined.md U3, U6: "the model stops with read of unwritten
  byte"). Raised by buffer reads and by commands and groups that read BUF. Safe: hardware goes on with some value. -/
  | unwrittenRead (addr : Nat)
  /-- An engine or buffer access at an address that does not exist (R42, R60). Raised by the shared read and write of
  Ops; R66 says no engine access falls outside BUF. Safe. -/
  | outsideBuffer (addr : Nat)
deriving DecidableEq, Repr

/-- Why an instruction has no meaning in a state. -/
inductive Refusal where
  /-- The instruction has no meaning in this model yet. Raised by exec alone. Safe. -/
  | notModelled (mnemonic : String)
  /-- A stream group in a state where no decode is in progress: the cursor and the output it acts on exist only while
  DECL or DECF runs (R20, R38). Never reached by step, which takes a group only from a running decode (log 13). Safe. -/
  | noDecoder
deriving DecidableEq, Repr

/-- PHASE (R41), which is also STATUS.BUSY. -/
inductive Phase where
  | idle
  | busy
deriving DecidableEq, Repr

/-- The named values of STATUS.ERRCODE (60_exceptions.md R200). Codes 9 to 15 are never produced (R209). -/
inductive ErrCode where
  | noError
  | illegalCmd
  | badRange
  | aliasing
  | dimension
  | fmtTruncated
  | fmtOverrun
  | dstOverflow
  | encInvariant
deriving DecidableEq, Repr

/-- The stored fields of the registers (R21 to R35). ID is constant and CMD holds no state. -/
structure Regs where
  /-- CTRL.IE (R23) -/
  ie : Bool
  /-- STATUS.DONE (R24) -/
  done : Bool
  /-- STATUS.LOST (R24) -/
  lost : Bool
  /-- STATUS.BUSERR (R24) -/
  busErr : Bool
  /-- STATUS.ERRCODE (R24, R200) -/
  errCode : ErrCode
  /-- SRC_ADDR.ADDR (R26) -/
  srcAddr : BufAddr
  /-- SRC_LEN.LEN (R27) -/
  srcLen : Length
  /-- DST_ADDR.ADDR (R28) -/
  dstAddr : BufAddr
  /-- DST_LEN.LEN (R29) -/
  dstLen : Length
  /-- GRID_W.WIDTH (R30) -/
  gridW : BitVec 16
  /-- GRID_H.HEIGHT (R31) -/
  gridH : BitVec 16
  /-- CONSUMED (R32) -/
  consumed : Length
  /-- PRODUCED (R33) -/
  produced : Length
  /-- ERR_POS (R34) -/
  errPos : Length
  /-- ERR_LINE (R35) -/
  errLine : BitVec 16
deriving DecidableEq, Repr

/-- LATCH, the operands captured at command issue (R20, R40). -/
structure Latch where
  /-- L_OP -/
  op : BitVec 4
  /-- L_RSV: the reserved bits of the command word were not all 0 -/
  rsv : Bool
  /-- L_SRC -/
  src : BufAddr
  /-- L_SRCLEN -/
  srcLen : Length
  /-- L_DST -/
  dst : BufAddr
  /-- L_DSTLEN -/
  dstLen : Length
  /-- L_GW -/
  gridW : BitVec 16
  /-- L_GH -/
  gridH : BitVec 16
deriving DecidableEq, Repr

/-- Transient of DECL and DECF (R38): the read cursor, the bytes of the current scanline so far (their number is the
output count), and the index of that scanline (R165). -/
structure Decoder where
  cur : Nat
  out : List Byte
  line : Nat
deriving DecidableEq, Repr

/-- Transient of ENCL and ENCF (R20, R130, R131): the row, the scan position `k` in it, and the bytes written so far. -/
structure Encoder where
  line : Nat
  pos : Nat
  written : Nat
deriving DecidableEq, Repr

/-- Transient of DITH (R39, R43, R180): the raster position, the ErrorBuffer with the cell of pixel `(x, y)` at index
`y*w + x`, and the bits of the pixels visited so far in raster order (log 17). -/
structure Ditherer where
  x : Nat
  y : Nat
  err : Array Int
  bits : Array Bool
deriving DecidableEq, Repr

/-- The transient state of a running command (R20): it exists only while PHASE = BUSY and belongs to one command. -/
inductive Running where
  /-- No transient: no command runs, or the running one has made no internal step yet. -/
  | fresh
  | decoding (d : Decoder)
  | encoding (e : Encoder)
  | dithering (d : Ditherer)
deriving DecidableEq, Repr

/-- BUF (R42): the written bytes, by strictly rising address; an address not listed is an unwritten byte. -/
abbrev Memory := List Host.Cell

/-- Width of a host bus access (R64, R65, R104). -/
inductive Width where
  | w8
  | w16
  | w32
deriving DecidableEq, Repr

/-- A host bus access (R100 to R103); an access of 8 or 16 bits writes the low bits of the value (log 16). -/
inductive Access where
  | read (w : Width)
  | write (w : Width) (v : Word)
deriving DecidableEq, Repr

/-- What happens next, in the order given by the outside world (R17, R72; DESIGN CHOICE, log 1: safe). -/
inductive Event where
  /-- A host bus operation at a host offset (R100 to R104). -/
  | host (o : HostOffset) (a : Access)
  /-- A host bus operation at a system address (R60; log 9). -/
  | system (addr : Nat) (a : Access)
  /-- Power-on reset (R230, R231). -/
  | powerOn
  /-- The engine takes its completion step if it is enabled (R115). -/
  | engine
  /-- The engine makes one internal step of its running command, if there is one (R38, R39, R43; log 2). -/
  | advance
deriving DecidableEq, Repr

/-- The state of one block instance (R20), with the model's own fields `rdata` (log 7) and `script` (log 1). -/
structure State where
  regs : Regs
  latch : Latch
  phase : Phase
  run : Running
  mem : Memory
  rdata : Word
  script : List Event
deriving DecidableEq, Repr

/-- Register values after either reset (R21, R45). -/
def Regs.reset : Regs where
  ie := false
  done := false
  lost := false
  busErr := false
  errCode := .noError
  srcAddr := 0
  srcLen := 0
  dstAddr := 0
  dstLen := 0
  gridW := 576
  gridH := 720
  consumed := 0
  produced := 0
  errPos := 0
  errLine := 0

/-- The latch after reset, which the spec leaves unspecified (R40, U7). DESIGN CHOICE zero, log 6: unsafe. -/
def Latch.reset : Latch where
  op := 0
  rsv := false
  src := 0
  srcLen := 0
  dst := 0
  dstLen := 0
  gridW := 0
  gridH := 0

/-- The block right after power-on reset (R231, R45): registers at their reset values, idle, no transient, every byte
of BUF unwritten. The latch (log 6), `rdata` (log 7) and the empty `script` (log 1) are the model's choices. -/
def State.reset : State where
  regs := .reset
  latch := .reset
  phase := .idle
  run := .fresh
  mem := []
  rdata := 0
  script := []

end Sys2Proof.Machine
end

