-- ==== Sys2Proof/Machine/Ops.lean ====
section
/-! DEFINITION. The shared operations over memory and registers: reading and writing BUF (20_memory.md R66), marking a
region unwritten (93 U3), the completion of a command with and without an error (40_command_interface.md R115, R120 to
R122; with an error it is the block's trap entry, 60_exceptions.md R213), its acknowledgement (R214), and the acceptance
of a command word (R113, R114). -/

namespace Sys2Proof.Machine

/-- The canonical form of memory: addresses strictly rising, all inside BUF. What an unlisted address reads as is no
value (log 3), so no entry can equal it. -/
abbrev Memory.wf (m : Memory) : Prop :=
  m.Pairwise (fun c d => c.1 < d.1) ∧ ∀ c ∈ m, c.1 < Config.bufBytes

/-- What an address of BUF holds: a value, or none where the byte is unwritten (R42). -/
def Memory.lookup (m : Memory) (a : Nat) : Option Byte := List.lookup a m

/-- `MemWrite(a, n, bytes)` (R66): the bytes at consecutive rising addresses from `a`. -/
def Memory.write (m : Memory) (a : Nat) (bytes : List Byte) : Memory :=
  m.filter (fun c => decide (c.1 < a)) ++ (bytes.zipIdx a).map (fun p => (p.2, p.1)) ++
    m.filter (fun c => decide (a + bytes.length ≤ c.1))

/-- Every byte of the region `[a, a + n)` becomes unwritten (U3; log 4). -/
def Memory.forget (m : Memory) (a n : Nat) : Memory :=
  m.filter (fun c => decide (c.1 < a ∨ a + n ≤ c.1))

/-- The value read where an address holds `v`: an unwritten byte stops the machine (U6; log 3). -/
def readValue (a : Nat) (v : Option Byte) : Except Fault Byte :=
  if a < Config.bufBytes then
    match v with
    | some b => .ok b
    | none => .error (.unwrittenRead a)
  else .error (.outsideBuffer a)

/-- `MemRead8(a)` (R66). -/
def Memory.readByte (m : Memory) (a : Nat) : Except Fault Byte := readValue a (m.lookup a)

/-- `MemWrite` with its bound: the bytes land only where all of them lie inside BUF (R42, R66). -/
def Memory.store (m : Memory) (a : Nat) (bytes : List Byte) : Except Fault Memory :=
  if a + bytes.length ≤ Config.bufBytes then .ok (m.write a bytes) else .error (.outsideBuffer a)

/-- The cells of the region `[a, a + n)`, gathered in one pass, so that a command need not search memory per byte. -/
def Memory.window (m : Memory) (a n : Nat) : Array (Option Byte) :=
  m.foldr (fun c w => if a ≤ c.1 then w.setIfInBounds (c.1 - a) (some c.2) else w) (Array.replicate n none)

/-- Byte `k` of the region at `a`, read through its window; it is `MemRead8(a + k)` (Laws/Memory.lean). -/
def Memory.through (m : Memory) (w : Array (Option Byte)) (a k : Nat) : Except Fault Byte :=
  readValue (a + k) (if h : k < w.size then w[k] else m.lookup (a + k))

/-- `n` bytes from offset `k` on, in rising order, stopping at the first that cannot be read (R13; log 15). -/
def readBytes (rd : Nat → Except Fault Byte) (k : Nat) : Nat → Except Fault (List Byte)
  | 0 => .ok []
  | n + 1 =>
    match rd k with
    | .error f => .error f
    | .ok b =>
      match readBytes rd (k + 1) n with
      | .error f => .error f
      | .ok bs => .ok (b :: bs)

/-- The little-endian value of a list of bytes (R61). -/
def leValue : List Byte → Nat
  | [] => 0
  | b :: bs => b.toNat + 256 * leValue bs

/-- The low `n` bytes of a value, least significant first (R61). -/
def leBytes (v : Word) : Nat → List Byte
  | 0 => []
  | n + 1 => v.setWidth 8 :: leBytes (v >>> 8) n

/-- The completion step's writes (R115): the error code, position and line, the counts, BUF; BUSY off, DONE on; the
transient is discarded (R20). LOST, BUSERR, IE, the operand registers and the latch are not touched. -/
def State.complete (s : State) (e : ErrCode) (pos line consumed produced : Nat) (mem : Memory) : State :=
  { s with
    regs := { s.regs with
      done := true
      errCode := e
      errPos := BitVec.ofNat 21 pos
      errLine := BitVec.ofNat 16 line
      consumed := BitVec.ofNat 21 consumed
      produced := BitVec.ofNat 21 produced }
    phase := .idle
    run := .fresh
    mem := mem }

/-- Completion with a pre-check error: nothing is read or written (R120, `preFail`). -/
def State.preFail (s : State) (e : ErrCode) : State := s.complete e 0 0 0 0 s.mem

/-- Completion with a run-time error, the effect of `raise` (R121, R205): the destination region becomes unwritten. -/
def State.runFail (s : State) (region : Nat × Nat) (e : ErrCode) (pos line : Nat) : State :=
  s.complete e pos line 0 0 (s.mem.forget region.1 region.2)

/-- Completion with success (R122). -/
def State.succeed (s : State) (consumed produced : Nat) (mem : Memory) : State :=
  s.complete .noError 0 0 consumed produced mem

/-- The acknowledgement of a completion, the nearest thing to a return from a trap (R214): clear DONE. -/
def Regs.acknowledge (r : Regs) : Regs := { r with done := false }

/-- The operands an accepted CMD write of `v` captures (R40, R113). -/
def State.capture (s : State) (v : Word) : Latch where
  op := cmdOp v
  rsv := decide (cmdRsv v ≠ 0)
  src := s.regs.srcAddr
  srcLen := s.regs.srcLen
  dst := s.regs.dstAddr
  dstLen := s.regs.dstLen
  gridW := s.regs.gridW
  gridH := s.regs.gridH

/-- An accepted CMD write (R113): the latch, DONE and ERRCODE cleared, BUSY set. -/
def State.accept (s : State) (v : Word) : State :=
  { s with
    latch := s.capture v
    regs := { s.regs.acknowledge with errCode := .noError }
    phase := .busy
    run := .fresh }

/-- A CMD write (R113, R114): accepted while idle, dropped with LOST set while busy. -/
def State.issue (s : State) (v : Word) : State :=
  match s.phase with
  | .idle => s.accept v
  | .busy => { s with regs := { s.regs with lost := true } }

end Sys2Proof.Machine
end

