-- ==== Sys2Proof/Machine/Flags.lean ====
section
/-! DEFINITION. The flag computations (10_state.md R24, R44): the error code's bits, ERR, the STATUS word, the W1C rule
and the interrupt output. -/

namespace Sys2Proof.Machine

/-- The four bits of an error code (60_exceptions.md R200). -/
def ErrCode.code : ErrCode → BitVec 4
  | .noError => 0
  | .illegalCmd => 1
  | .badRange => 2
  | .aliasing => 3
  | .dimension => 4
  | .fmtTruncated => 5
  | .fmtOverrun => 6
  | .dstOverflow => 7
  | .encInvariant => 8

/-- STATUS.BUSY (R41). -/
def State.busy (s : State) : Bool := decide (s.phase = .busy)

/-- STATUS.ERR, always equal to `ERRCODE != 0` (R24). -/
def Regs.err (r : Regs) : Bool := decide (r.errCode.code ≠ 0)

/-- IRQ = CTRL.IE and STATUS.DONE (R44, R105). -/
def State.irq (s : State) : Bool := s.regs.ie && s.regs.done

/-- The STATUS word of R100: `{20'b0, ERRCODE, 3'b0, BUSERR, LOST, ERR, DONE, BUSY}`. -/
def State.statusWord (s : State) : Word :=
  0#20 ++ s.regs.errCode.code ++ 0#3 ++ BitVec.ofBool s.regs.busErr ++ BitVec.ofBool s.regs.lost ++
    BitVec.ofBool s.regs.err ++ BitVec.ofBool s.regs.done ++ BitVec.ofBool s.busy

/-- Writing 1 clears the bit, writing 0 leaves it (R21). -/
def writeOneClears (old : Bool) (bit : Bool) : Bool := old && !bit

/-- A write to STATUS changes only DONE, LOST and BUSERR, each by the W1C rule (R24, R101). -/
def Regs.writeStatus (r : Regs) (v : Word) : Regs :=
  { r with
    done := writeOneClears r.done (v.getLsbD 1)
    lost := writeOneClears r.lost (v.getLsbD 3)
    busErr := writeOneClears r.busErr (v.getLsbD 4) }

end Sys2Proof.Machine
end

