-- ==== Sys2Proof/Machine/Operands.lean ====
section
/-! DEFINITION. The operands of a command: its source and destination regions (30_encoding.md R83), and the pre-checks
every command passes before it runs (40_command_interface.md R116 to R119), in their order (60_exceptions.md R210). -/

namespace Sys2Proof

open Machine

/-- The legal command the latch holds, if it holds one (R81, R116). -/
def Machine.Latch.command (l : Latch) : Option Command := if l.rsv then none else commandOfOp l.op

/-- The command word as the latch keeps it: of the reserved bits only whether one was set (R40; log 11). -/
def Machine.Latch.word (l : Latch) : Word := cmdWord l.op (if l.rsv then 1 else 0)

/-- How many scanlines a command processes (R130, R131, R160, R165, R181). -/
def Command.lines : Command → Nat
  | .encl => 1
  | .encf => Config.H
  | .decl => 1
  | .decf => Config.H
  | .dith => Config.H

/-- `inLen` of R83. -/
def Command.inLen (c : Command) (l : Latch) : Nat :=
  match c with
  | .encl => Config.N
  | .encf => Config.frameBytes
  | .decl => l.srcLen.toNat
  | .decf => l.srcLen.toNat
  | .dith => Config.gridBytes

/-- `outLen` of R83. -/
def Command.outLen (c : Command) (l : Latch) : Nat :=
  match c with
  | .encl => l.dstLen.toNat
  | .encf => l.dstLen.toNat
  | .decl => Config.N
  | .decf => Config.frameBytes
  | .dith => Config.frameBytes

/-- `lengthsOk` of R117. -/
def Command.lengthsOk (c : Command) (l : Latch) : Bool :=
  match c with
  | .encl => decide (Config.N ≤ l.srcLen.toNat)
  | .encf => decide (Config.frameBytes ≤ l.srcLen.toNat)
  | .decl => decide (Config.N ≤ l.dstLen.toNat)
  | .decf => decide (Config.frameBytes ≤ l.dstLen.toNat)
  | .dith => decide (Config.gridBytes ≤ l.srcLen.toNat ∧ Config.frameBytes ≤ l.dstLen.toNat)

/-- `overlap` of R119. -/
def Machine.overlap (a1 l1 a2 l2 : Nat) : Bool := decide (0 < l1 ∧ 0 < l2 ∧ a1 < a2 + l2 ∧ a2 < a1 + l1)

/-- The dimension check, made for DITH alone (R182). -/
def Command.dimensionsOk (c : Command) (l : Latch) : Bool :=
  match c with
  | .dith => decide (l.gridW = 576 ∧ l.gridH = 720)
  | .encl => true
  | .encf => true
  | .decl => true
  | .decf => true

/-- The pre-checks of a legal command in their order (R116, R210): the first that fails gives the error. -/
def Command.precheck (c : Command) (l : Latch) : Option ErrCode :=
  if !c.dimensionsOk l then some .dimension
  else if !c.lengthsOk l then some .badRange
  else if Config.bufBytes < l.src.toNat + c.inLen l ∨ Config.bufBytes < l.dst.toNat + c.outLen l then some .badRange
  else if overlap l.src.toNat (c.inLen l) l.dst.toNat (c.outLen l) then some .aliasing
  else none

/-- The destination region of a command, as address and length (R83). -/
def Command.destination (c : Command) (l : Latch) : Nat × Nat := (l.dst.toNat, c.outLen l)

/-- The destination region of the command in the latch; an illegal word has none (log 5). -/
def Machine.Latch.destination (l : Latch) : Nat × Nat :=
  match l.command with
  | some c => c.destination l
  | none => (l.dst.toNat, 0)

/-- What a command's run ends in: its output and the input bytes it consumed; a run-time error with position and line
(R205); or a stop of the machine. -/
inductive Machine.CmdResult where
  | ok (out : List Byte) (consumed : Nat)
  | raise (e : ErrCode) (pos line : Nat)
  | stop (f : Fault)
deriving DecidableEq, Repr

/-- `execute` for a legal command, and the completion step it ends in (R115, R116). `body` computes the command's result
from its source region, byte `k` of which is `MemRead8(L_SRC + k)`. The output is written at the end: no order of the
writes can be observed (R72; log 16). -/
def Machine.runCommand (c : Command) (body : (Nat → Except Fault Byte) → CmdResult) (s : State) :
    Host.Outcome State Fault Refusal :=
  match c.precheck s.latch with
  | some e => .next (s.preFail e)
  | none =>
    let w := s.mem.window s.latch.src.toNat (c.inLen s.latch)
    match body (fun k => s.mem.through w s.latch.src.toNat k) with
    | .ok out consumed =>
      match s.mem.store s.latch.dst.toNat out with
      | .ok mem => .next (s.succeed consumed out.length mem)
      | .error f => .fault f
    | .raise e pos line => .next (s.runFail (c.destination s.latch) e pos line)
    | .stop f => .fault f

end Sys2Proof
end

