-- ==== Sys2Proof/Machine/Bus.lean ====
section
/-! DEFINITION. The host's steps (40_command_interface.md R100 to R104), the resets (70_reset_and_hazards.md R231, R232),
and the place of the host window in the system address map (20_memory.md R60). -/

namespace Sys2Proof.Machine

/-- Bytes moved by an access of a width. -/
def Width.bytes : Width → Nat
  | .w8 => 1
  | .w16 => 2
  | .w32 => 4

/-- The width of an access. -/
def Access.width : Access → Width
  | .read w => w
  | .write w _ => w

/-- Value of the ID register (R22). -/
def idValue : Word := 0x524C0100

/-- A register as the host reads it, by its offset in the register window (R21, R100). Reserved offsets and CMD read 0. -/
def State.registerValue (s : State) (o : Nat) : Word :=
  match o with
  | 0x00 => idValue
  | 0x04 => BitVec.setWidth 32 (BitVec.ofBool s.regs.ie)
  | 0x08 => s.statusWord
  | 0x10 => s.regs.srcAddr.setWidth 32
  | 0x14 => s.regs.srcLen.setWidth 32
  | 0x18 => s.regs.dstAddr.setWidth 32
  | 0x1C => s.regs.dstLen.setWidth 32
  | 0x20 => s.regs.gridW.setWidth 32
  | 0x24 => s.regs.gridH.setWidth 32
  | 0x28 => s.regs.consumed.setWidth 32
  | 0x2C => s.regs.produced.setWidth 32
  | 0x30 => s.regs.errPos.setWidth 32
  | 0x34 => s.regs.errLine.setWidth 32
  | _ => 0

/-- Soft reset (R232): every register and the phase take their reset values; a running command is aborted and the bytes
of its destination region become unwritten (U3; log 5); BUF keeps its other bytes. The latch is unspecified after it
(R45) and takes the value it has after reset (log 6). -/
def State.softReset (s : State) : State :=
  { State.reset with
    mem :=
      match s.phase with
      | .idle => s.mem
      | .busy => s.mem.forget s.latch.destination.1 s.latch.destination.2
    rdata := s.rdata
    script := s.script }

/-- Power-on reset (R231): everything at its reset value and every byte of BUF unwritten. The value the host has already
been given and the events to come are not the block's, and stay. -/
def State.powerOnReset (s : State) : State :=
  { State.reset with rdata := s.rdata, script := s.script }

/-- A CTRL write (R23, R101): IE from bit 0, then the soft reset if bit 1 is set. -/
def State.writeControl (s : State) (v : Word) : State :=
  let s' := { s with regs := { s.regs with ie := v.getLsbD 0 } }
  if v.getLsbD 1 then s'.softReset else s'

/-- A performed register write by offset (R101). ID, the result registers and the reserved offsets ignore it. -/
def State.writeRegister (s : State) (o : Nat) (v : Word) : State :=
  match o with
  | 0x04 => s.writeControl v
  | 0x08 => { s with regs := s.regs.writeStatus v }
  | 0x0C => s.issue v
  | 0x10 => { s with regs := { s.regs with srcAddr := v.setWidth 20 } }
  | 0x14 => { s with regs := { s.regs with srcLen := v.setWidth 21 } }
  | 0x18 => { s with regs := { s.regs with dstAddr := v.setWidth 20 } }
  | 0x1C => { s with regs := { s.regs with dstLen := v.setWidth 21 } }
  | 0x20 => { s with regs := { s.regs with gridW := v.setWidth 16 } }
  | 0x24 => { s with regs := { s.regs with gridH := v.setWidth 16 } }
  | _ => s

/-- An access the block does not perform (R62, R64, R65): a read returns 0, a write changes nothing, BUSERR is set. -/
def State.refuseAccess (s : State) (a : Access) : State :=
  let s' := { s with regs := { s.regs with busErr := true } }
  match a with
  | .read _ => { s' with rdata := 0 }
  | .write _ _ => s'

/-- A register window access at offset `o` (R64, R100, R101): only 32 bits, only aligned. -/
def registerAccess (o : Nat) (a : Access) (s : State) : State :=
  if a.width ≠ .w32 ∨ o % 4 ≠ 0 then s.refuseAccess a
  else
    match a with
    | .read _ => { s with rdata := s.registerValue o }
    | .write _ v => s.writeRegister o v

/-- A buffer window access at buffer address `b` (R65, R102, R103): only while idle, only naturally aligned,
little-endian. -/
def bufferAccess (b : Nat) (a : Access) (s : State) : Host.Outcome State Fault Refusal :=
  if s.phase = .busy ∨ b % a.width.bytes ≠ 0 then .next (s.refuseAccess a)
  else
    match a with
    | .read w =>
      match readBytes (fun k => s.mem.readByte (b + k)) 0 w.bytes with
      | .ok bs => .next { s with rdata := BitVec.ofNat 32 (leValue bs) }
      | .error f => .fault f
    | .write w v =>
      match s.mem.store b (leBytes v w.bytes) with
      | .ok m => .next { s with mem := m }
      | .error f => .fault f

/-- A host step at a host offset (R63, R100 to R104): registers, reserved offsets, buffer window. -/
def hostAccess (o : HostOffset) (a : Access) (s : State) : Host.Outcome State Fault Refusal :=
  if o.toNat < 0x40 then .next (registerAccess o.toNat a s)
  else if o.toNat < 0x100000 then .next (s.refuseAccess a)
  else bufferAccess (o.toNat - 0x100000) a s

/-- The host offset of a system address, where the address lies in the block's host window (R60, R63). -/
def hostOffsetOf (base addr : Nat) : Option HostOffset :=
  if base ≤ addr ∧ addr < base + 2 ^ 21 then some (BitVec.ofNat 21 (addr - base)) else none

/-- A host step at a system address (R60): nothing outside the window belongs to the block (R63; log 9). The base is the
one Config.blockBase for every instance of a platform: the spec names one BLOCK_BASE and does not say where the windows
of several instances lie (R11, R77). DESIGN CHOICE, log 22: unsafe. -/
def systemAccess (addr : Nat) (a : Access) (s : State) : Host.Outcome State Fault Refusal :=
  match hostOffsetOf Config.blockBase addr with
  | some o => hostAccess o a s
  | none => .next s

end Sys2Proof.Machine
end

