-- ==== Sys2Proof/Machine/Decoder.lean ====
section
/-! DEFINITION. The run-length decoder (42_rle_decode.md): the stream groups LIT (R150), NOP (R151) and REP (R152) with
their errors (R153, R154), the line decoder (R155), and the commands DECL (R160) and DECF (R165). -/

namespace Sys2Proof.Machine

/-- What one stream group ends in: the cursor and output after it, an error at a stream offset, or a stop. -/
inductive GroupResult where
  | ok (d : Decoder)
  | err (e : ErrCode) (pos : Nat)
  | stop (f : Fault)
deriving DecidableEq, Repr

/-- LIT (R150): overrun is checked before truncation (R153), then the data bytes are copied. -/
def litStep (rd : Nat → Except Fault Byte) (len : Nat) (n : BitVec 7) (d : Decoder) : GroupResult :=
  if Config.N < d.out.length + litLength n then .err .fmtOverrun d.cur
  else if len < d.cur + 1 + litLength n then .err .fmtTruncated d.cur
  else
    match readBytes rd (d.cur + 1) (litLength n) with
    | .error f => .stop f
    | .ok data => .ok { d with cur := d.cur + 1 + litLength n, out := d.out ++ data }

/-- NOP (R151): the cursor moves over the control byte and nothing else happens. -/
def nopStep (d : Decoder) : GroupResult := .ok { d with cur := d.cur + 1 }

/-- REP (R152): overrun is checked before truncation (R153), then the value byte is repeated. -/
def repStep (rd : Nat → Except Fault Byte) (len : Nat) (n : BitVec 7) (d : Decoder) : GroupResult :=
  if Config.N < d.out.length + repLength n then .err .fmtOverrun d.cur
  else if len < d.cur + 2 then .err .fmtTruncated d.cur
  else
    match rd (d.cur + 1) with
    | .error f => .stop f
    | .ok v => .ok { d with cur := d.cur + 2, out := d.out ++ List.replicate (repLength n) v }

/-- The group that control byte `c` selects (R155). -/
def groupStep (rd : Nat → Except Fault Byte) (len : Nat) (c : Byte) (d : Decoder) : GroupResult :=
  if c.toNat ≤ 0x7F then litStep rd len (ctrlField c) d
  else if c = 0x80 then nopStep d
  else repStep rd len (ctrlField c) d

/-- `decodeLine` (R155): groups until the scanline holds `N` bytes. Every group moves the cursor on and the cursor never
passes `len`, so `len + 1` units of `fuel` suffice (log 18). -/
def decodeLine (rd : Nat → Except Fault Byte) (len : Nat) : Nat → Decoder → GroupResult
  | 0, d => .err .fmtTruncated d.cur
  | fuel + 1, d =>
    if Config.N ≤ d.out.length then .ok d
    else if len ≤ d.cur then .err .fmtTruncated d.cur
    else
      match rd d.cur with
      | .error f => .stop f
      | .ok c =>
        match groupStep rd len c d with
        | .ok d' => decodeLine rd len fuel d'
        | .err e pos => .err e pos
        | .stop f => .stop f

/-- The scanlines of a frame from `y` on, `rows` of them, the cursor at `cur` (R165). DECL is one scanline (R160). -/
def decodeRows (rd : Nat → Except Fault Byte) (len : Nat) : Nat → Nat → Nat → CmdResult
  | 0, _, cur => .ok [] cur
  | rows + 1, y, cur =>
    match decodeLine rd len (len + 1) { cur := cur, out := [], line := y } with
    | .stop f => .stop f
    | .err e pos => .raise e pos y
    | .ok d =>
      match decodeRows rd len rows (y + 1) d.cur with
      | .ok out n => .ok (d.out ++ out) n
      | .raise e pos line => .raise e pos line
      | .stop f => .stop f

/-- DECL: decode one scanline (R160). -/
def execDecl (s : State) : Host.Outcome State Fault Refusal :=
  runCommand .decl (fun rd => decodeRows rd s.latch.srcLen.toNat 1 0 0) s

/-- DECF: decode one frame of `H` scanlines (R165). -/
def execDecf (s : State) : Host.Outcome State Fault Refusal :=
  runCommand .decf (fun rd => decodeRows rd s.latch.srcLen.toNat Config.H 0 0) s

/-- One stream group of a running decode (R38): `step` gets the stream, its length and the transient. An error raised in
it ends the command (R205). With no decode running there is nothing to act on (log 13). -/
def runGroup (step : (Nat → Except Fault Byte) → Nat → Decoder → GroupResult) (s : State) :
    Host.Outcome State Fault Refusal :=
  match s.run with
  | .decoding d =>
    match step (fun k => s.mem.readByte (s.latch.src.toNat + k)) s.latch.srcLen.toNat d with
    | .ok d' => .next { s with run := .decoding d' }
    | .err e pos => .next (s.runFail s.latch.destination e pos d.line)
    | .stop f => .fault f
  | .fresh => .refused .noDecoder
  | .encoding _ => .refused .noDecoder
  | .dithering _ => .refused .noDecoder

/-- LIT: literal run (R150). -/
def execLit (n : BitVec 7) (s : State) : Host.Outcome State Fault Refusal :=
  runGroup (fun rd len d => litStep rd len n d) s

/-- NOP: no-op control byte (R151). -/
def execNop (s : State) : Host.Outcome State Fault Refusal :=
  runGroup (fun _ _ d => nopStep d) s

/-- REP: repeat run (R152). -/
def execRep (n : BitVec 7) (s : State) : Host.Outcome State Fault Refusal :=
  runGroup (fun rd len d => repStep rd len n d) s

end Sys2Proof.Machine
end

