-- ==== Sys2Proof/Machine/Dither.lean ====
section
/-! DEFINITION. The Atkinson ditherer (43_dither.md): the dither function for any grid size (R180 to R186), the packing
of its bits (R187), and the command DITH (R181). -/

namespace Sys2Proof.Machine

open Sys2Proof.Config (DivRound)

/-- `q div8` (R185): the quotient by 8 under the given rounding. -/
def div8 (r : DivRound) (q : Int) : Int :=
  match r with
  | .trunc => q.tdiv 8
  | .floor => q.fdiv 8

/-- The six neighbours that receive a pixel's error, as offsets `(dx, dy)` (R186). -/
def neighbours : List (Int × Int) := [(1, 0), (2, 0), (-1, 1), (0, 1), (1, 1), (0, 2)]

/-- Cell `(x, y)` of the ErrorBuffer of a grid of width `w` (R43). -/
def errCell (w : Nat) (err : Array Int) (x y : Nat) : Int := err.getD (y * w + x) 0

/-- Adding `d` to the cell of one neighbour of pixel `(x, y)`, skipped where it falls outside the grid (R186). -/
def diffuseOne (w h x y : Nat) (d : Int) (err : Array Int) (o : Int × Int) : Array Int :=
  let nx := (x : Int) + o.1
  let ny := (y : Int) + o.2
  if 0 ≤ nx ∧ nx < w ∧ 0 ≤ ny ∧ ny < h then
    let i := ny.toNat * w + nx.toNat
    err.setIfInBounds i (err.getD i 0 + d)
  else err

/-- The diffusion step of pixel `(x, y)` (R186). -/
def diffuse (w h x y : Nat) (d : Int) (err : Array Int) : Array Int :=
  neighbours.foldl (diffuseOne w h x y d) err

/-- `adj`, the pixel plus its error cell (R183). -/
def adjusted (g : Byte) (e : Int) : Int := (g.toNat : Int) + e

/-- The output bit: 0 (white) if `adj >= 128`, else 1 (R184). -/
def inkBit (adj : Int) : Bool := decide (adj < 128)

/-- `q`, the quantisation error (R185). -/
def quantError (adj : Int) : Int := adj - (if inkBit adj then 0 else 255)

/-- One pixel of the dither function, and the move to the next in raster order (R39, R180, R183 to R186). -/
def ditherPixel (r : DivRound) (w h : Nat) (g : Byte) (d : Ditherer) : Ditherer :=
  let adj := adjusted g (errCell w d.err d.x d.y)
  { x := if d.x + 1 < w then d.x + 1 else 0
    y := if d.x + 1 < w then d.y else d.y + 1
    err := diffuse w h d.x d.y (div8 r (quantError adj)) d.err
    bits := d.bits.push (inkBit adj) }

/-- The ditherer at the first pixel, every error cell 0 (R43, R180). -/
def ditherStart (w h : Nat) : Ditherer :=
  { x := 0, y := 0, err := Array.replicate (w * h) 0, bits := #[] }

/-- `n` further pixels of the dither function on the grid `g` (R180). -/
def ditherSteps (r : DivRound) (w h : Nat) (g : Nat → Nat → Byte) : Nat → Ditherer → Ditherer
  | 0, d => d
  | n + 1, d => ditherSteps r w h g n (ditherPixel r w h (g d.x d.y) d)

/-- `ditherFn(w, h, g)` (R180): the bits of the grid in raster order. -/
def ditherFn (r : DivRound) (w h : Nat) (g : Nat → Nat → Byte) : Array Bool :=
  (ditherSteps r w h g (w * h) (ditherStart w h)).bits

/-- `bit(x, y)`, with padding 0 for `x ≥ w` (R187). -/
def bitAt (w : Nat) (bits : Array Bool) (x y : Nat) : Bool :=
  decide (x < w) && bits.getD (y * w + x) false

/-- Byte `j` of row `y`, most significant bit first (R14, R187). -/
def packByte (w : Nat) (bits : Array Bool) (y j : Nat) : Byte :=
  BitVec.ofNat 8 (((List.range 8).map (fun k => (bitAt w bits (8 * j + k) y).toNat * 2 ^ (7 - k))).sum)

/-- The packed bitmap, row after row, `ceil(w/8)` bytes a row (R67, R187). -/
def packBitmap (w h : Nat) (bits : Array Bool) : List Byte :=
  (List.range h).flatMap (fun y => (List.range ((w + 7) / 8)).map (packByte w bits y))

/-- `n` bytes from offset `k` on, appended to `acc`, stopping at the first that cannot be read. -/
def gather (rd : Nat → Except Fault Byte) : Nat → Nat → Array Byte → Except Fault (Array Byte)
  | 0, _, acc => .ok acc
  | n + 1, k, acc =>
    match rd k with
    | .error f => .error f
    | .ok b => gather rd n (k + 1) (acc.push b)

/-- The body of DITH (R181): read the grid, dither it, pack it. -/
def ditherBody (r : DivRound) (rd : Nat → Except Fault Byte) : CmdResult :=
  match gather rd Config.gridBytes 0 #[] with
  | .error f => .stop f
  | .ok grid =>
    .ok (packBitmap Config.W Config.H
      (ditherFn r Config.W Config.H (fun x y => grid.getD (y * Config.W + x) 0))) Config.gridBytes

/-- DITH: dither one grayscale grid (R181), under the machine's DIV_ROUND (R185; log 8). -/
def execDith (s : State) : Host.Outcome State Fault Refusal :=
  runCommand .dith (ditherBody Config.divRound) s

end Sys2Proof.Machine
end

