-- ==== Sys2Proof/Machine/Encoder.lean ====
section
/-! DEFINITION. The run-length encoder (41_rle_encode.md): the groups of a byte list (R132) and the commands ENCL (R130)
and ENCF (R131). -/

namespace Sys2Proof.Machine

/-- How many bytes of `s`, at most `cap`, equal `v` before the first that does not (R132, the repeat loop). -/
def sameCount (v : Byte) : List Byte → Nat → Nat
  | [], _ => 0
  | _ :: _, 0 => 0
  | b :: bs, cap + 1 => if b = v then sameCount v bs cap + 1 else 0

/-- How many bytes of `s`, at most `cap`, a literal run takes before one that starts an equal pair (R132, the literal
loop). -/
def literalCount : List Byte → Nat → Nat
  | [], _ => 0
  | _ :: _, 0 => 0
  | [_], _ + 1 => 1
  | b :: b' :: bs, cap + 1 => if b = b' then 0 else literalCount (b' :: bs) cap + 1

/-- The group the encoder emits at the head of `s`, and how many bytes it covers (R132): a pair of equal bytes starts a
repeat run, anything else a literal run, both of at most 128 bytes. -/
def nextGroup : List Byte → Group × Nat
  | [] => (.nop, 0)
  | [a] => (.lit [a], 1)
  | a :: b :: rest =>
    if a = b then
      let len := sameCount a rest (Config.maxRun - 2) + 2
      (.rep len a, len)
    else
      let len := literalCount (b :: rest) (Config.maxRun - 1) + 1
      (.lit ((a :: b :: rest).take len), len)

/-- `encodeGroups` from position `k` on, where `s` is what remains there; every group covers a byte, so `fuel` need not
exceed the number of bytes (log 18). -/
def encodeFrom : Nat → Nat → List Byte → List (Nat × Group)
  | 0, _, _ => []
  | _ + 1, _, [] => []
  | fuel + 1, k, b :: s =>
    let g := nextGroup (b :: s)
    (k, g.1) :: encodeFrom fuel (k + g.2) ((b :: s).drop g.2)

/-- `encodeGroups(s)` (R132): the groups in order, each with the index of the first byte it covers. -/
def encodeGroups (s : List Byte) : List (Nat × Group) := encodeFrom s.length 0 s

/-- `encodeLine(s)` (R132): the bytes of the groups. -/
def encodeLine (s : List Byte) : List Byte := (encodeGroups s).flatMap (fun p => encodeGroup p.2)

/-- Writing groups while they fit the capacity `cap`, with `p` bytes written before: the bytes, or the index of the first
byte that the first group that does not fit covers (R130). -/
def emitGroups (cap : Nat) : Nat → List (Nat × Group) → Except Nat (List Byte)
  | _, [] => .ok []
  | p, (k, g) :: gs =>
    if cap < p + (encodeGroup g).length then .error k
    else
      match emitGroups cap (p + (encodeGroup g).length) gs with
      | .error k' => .error k'
      | .ok bs => .ok (encodeGroup g ++ bs)

/-- The rows of a frame from row `y` on, `rows` of them, with `p` bytes written before (R131). ENCL is one row (R130). -/
def encodeRows (rd : Nat → Except Fault Byte) (cap consumed : Nat) : Nat → Nat → Nat → CmdResult
  | 0, _, _ => .ok [] consumed
  | rows + 1, y, p =>
    match readBytes rd (y * Config.N) Config.N with
    | .error f => .stop f
    | .ok row =>
      match emitGroups cap p (encodeGroups row) with
      | .error k => .raise .dstOverflow (y * Config.N + k) y
      | .ok bs =>
        match encodeRows rd cap consumed rows (y + 1) (p + bs.length) with
        | .ok out n => .ok (bs ++ out) n
        | .raise e pos line => .raise e pos line
        | .stop f => .stop f

/-- ENCL: encode one scanline (R130). -/
def execEncl (s : State) : Host.Outcome State Fault Refusal :=
  runCommand .encl (fun rd => encodeRows rd s.latch.dstLen.toNat Config.N 1 0 0) s

/-- ENCF: encode one frame of `H` scanlines (R131). -/
def execEncf (s : State) : Host.Outcome State Fault Refusal :=
  runCommand .encf (fun rd => encodeRows rd s.latch.dstLen.toNat Config.frameBytes Config.H 0 0) s

end Sys2Proof.Machine
end

