-- ==== Sys2Proof/Machine/Illegal.lean ====
section
/-! DEFINITION. Illegal command words (30_encoding.md R82). -/

namespace Sys2Proof.Machine

/-- ILLEGAL (R201): the command completes with ILLEGAL_CMD and reads and writes no byte of BUF, whatever the fields. -/
def execIllegal (_op : BitVec 4) (_rsv : BitVec 28) (s : State) : Host.Outcome State Fault Refusal :=
  .next (s.preFail .illegalCmd)

end Sys2Proof.Machine
end

