-- ==== Sys2Proof/Machine/Dispatch.lean ====
section
/-! DEFINITION. The dispatch: one arm per constructor of Instr. -/

namespace Sys2Proof.Machine

def exec (i : Instr) (s : State) : Host.Outcome State Fault Refusal :=
  match i with
  | .encl => Sys2Proof.Machine.execEncl s
  | .encf => Sys2Proof.Machine.execEncf s
  | .decl => Sys2Proof.Machine.execDecl s
  | .decf => Sys2Proof.Machine.execDecf s
  | .dith => Sys2Proof.Machine.execDith s
  | .illegal op rsv => Sys2Proof.Machine.execIllegal op rsv s
  | .lit n => Sys2Proof.Machine.execLit n s
  | .nop => Sys2Proof.Machine.execNop s
  | .rep n => Sys2Proof.Machine.execRep n s

end Sys2Proof.Machine
end

