-- ==== Sys2Proof/Machine/Engine.lean ====
section
/-! DEFINITION. The engine's steps and the turn of the machine: the completion step, which decodes the latched command
word and runs it (40_command_interface.md R115, R116); the internal steps of a running command, one stream group, encoder
group or pixel each (10_state.md R38, R39, R43; log 2); and which agent moves next (R17, R72; log 1). -/

namespace Sys2Proof

open Machine in
/-- The transient a command begins with: cursor, counts and position 0, every error cell 0 (R38, R43). -/
def Command.begin : Command → Running
  | .encl => .encoding { line := 0, pos := 0, written := 0 }
  | .encf => .encoding { line := 0, pos := 0, written := 0 }
  | .decl => .decoding { cur := 0, out := [], line := 0 }
  | .decf => .decoding { cur := 0, out := [], line := 0 }
  | .dith => .dithering (ditherStart Config.W Config.H)

namespace Machine

/-- The instruction the completion step runs: the command word in the latch, decoded (R116; log 11). -/
def State.fetchCommand (s : State) : Instr := decodeCommand s.latch.word

/-- The engine's completion step, for a state with PHASE = BUSY (R115). -/
def completionStep (s : State) : Host.Outcome State Fault Refusal := exec s.fetchCommand s

/-- Byte `k` of the source region, `MemRead8(L_SRC + k)`. -/
def State.sourceByte (s : State) (k : Nat) : Except Fault Byte := s.mem.readByte (s.latch.src.toNat + k)

/-- One internal step of a decode (R155, R160, R165): a complete scanline is written and the next begins, or the command
succeeds after the last; a stream that has run out ends it (R154 (a)); otherwise the group at the cursor is fetched,
decoded and run. -/
def advanceDecoder (c : Command) (d : Decoder) (s : State) : Host.Outcome State Fault Refusal :=
  if Config.N ≤ d.out.length then
    match s.mem.store (s.latch.dst.toNat + d.line * Config.N) d.out with
    | .error f => .fault f
    | .ok m =>
      if d.line + 1 < c.lines then
        .next { s with mem := m, run := .decoding { cur := d.cur, out := [], line := d.line + 1 } }
      else .next (s.succeed d.cur (c.lines * Config.N) m)
  else if s.latch.srcLen.toNat ≤ d.cur then
    .next (s.runFail s.latch.destination .fmtTruncated d.cur d.line)
  else
    match s.sourceByte d.cur with
    | .error f => .fault f
    | .ok ctrl => exec (decodeControl ctrl) s

/-- One internal step of an encode (R130, R131): the next group of the current row is emitted, or the command succeeds
after the last row. -/
def advanceEncoder (c : Command) (e : Encoder) (s : State) : Host.Outcome State Fault Refusal :=
  if c.lines ≤ e.line then .next (s.succeed (c.lines * Config.N) e.written s.mem)
  else if Config.N ≤ e.pos then .next { s with run := .encoding { e with line := e.line + 1, pos := 0 } }
  else
    match readBytes s.sourceByte (e.line * Config.N) Config.N with
    | .error f => .fault f
    | .ok row =>
      let g := nextGroup (row.drop e.pos)
      let bytes := encodeGroup g.1
      if s.latch.dstLen.toNat < e.written + bytes.length then
        .next (s.runFail s.latch.destination .dstOverflow (e.line * Config.N + e.pos) e.line)
      else
        match s.mem.store (s.latch.dst.toNat + e.written) bytes with
        | .error f => .fault f
        | .ok m =>
          .next { s with
            mem := m
            run := .encoding { e with pos := e.pos + g.2, written := e.written + bytes.length } }

/-- One internal step of DITH (R181): the pixel at the raster position, or, after the last, the packed bitmap. -/
def advanceDitherer (d : Ditherer) (s : State) : Host.Outcome State Fault Refusal :=
  if Config.H ≤ d.y then
    match s.mem.store s.latch.dst.toNat (packBitmap Config.W Config.H d.bits) with
    | .error f => .fault f
    | .ok m => .next (s.succeed Config.gridBytes Config.frameBytes m)
  else
    match s.sourceByte (d.y * Config.W + d.x) with
    | .error f => .fault f
    | .ok g => .next { s with run := .dithering (ditherPixel Config.divRound Config.W Config.H g d) }

/-- One internal step of the running command, for a state with PHASE = BUSY (log 2): first its checks, which make an
illegal word and a failing pre-check complete at once (R116), then its transient. -/
def advanceStep (s : State) : Host.Outcome State Fault Refusal :=
  match s.latch.command with
  | none => exec s.fetchCommand s
  | some c =>
    match s.run with
    | .fresh =>
      match c.precheck s.latch with
      | some e => .next (s.preFail e)
      | none => .next { s with run := c.begin }
    | .decoding d => advanceDecoder c d s
    | .encoding e => advanceEncoder c e s
    | .dithering d => advanceDitherer d s

/-- An engine step is enabled exactly when PHASE = BUSY (R115); otherwise the block stays as it is (R221). -/
def whenBusy (step : State → Host.Outcome State Fault Refusal) (s : State) : Host.Outcome State Fault Refusal :=
  match s.phase with
  | .idle => .next s
  | .busy => step s

/-- What one event does (R17). -/
def perform (e : Event) (s : State) : Host.Outcome State Fault Refusal :=
  match e with
  | .host o a => hostAccess o a s
  | .system addr a => systemAccess addr a s
  | .powerOn => .next s.powerOnReset
  | .engine => whenBusy completionStep s
  | .advance => whenBusy advanceStep s

/-- The next turn: the first event of the script is taken and performed; when none is left, a running command completes
(weak fairness, R115, R242) and an idle block stays as it is. -/
def takeTurn (s : State) : Host.Outcome State Fault Refusal :=
  match s.script with
  | [] => whenBusy completionStep s
  | e :: rest => perform e { s with script := rest }

/-- How many bytes the longest stream group has (R88). -/
def maxGroupBytes : Nat := 129

/-- `s` with a command word issued and the engine's completion step next. -/
def State.placeCommand (s : State) (w : Word) : State :=
  { s.accept w with script := .engine :: s.script }

/-- `s` with DECL running at the start of the stream of `maxGroupBytes` bytes given, in BUF at address 0, and the engine's
internal step next. -/
def State.placeGroup (s : State) (bytes : List Byte) : State :=
  { s.accept (cmdWord Command.decl.op 0) with
    latch :=
      { s.capture (cmdWord Command.decl.op 0) with
        src := 0
        srcLen := BitVec.ofNat 21 maxGroupBytes
        dst := 0x1000
        dstLen := 72 }
    run := Command.decl.begin
    mem := s.mem.write 0 bytes
    script := .advance :: s.script }

/-- The first `n` bytes of a number, its low byte first. -/
def lowBytes (w : Nat) : Nat → List Byte
  | 0 => []
  | n + 1 => BitVec.ofNat 8 w :: lowBytes (w / 256) n

end Machine

end Sys2Proof
end

