-- ==== Sys2Proof/Machine/Step.lean ====
section
/-! DEFINITION. The step of the machine, and the state in which a given instruction is the next to run. -/

namespace Sys2Proof.Machine

/-- One step: the next turn of the host, the platform or the engine (R17, R72, R115). -/
def step (s : State) : Host.Outcome State Fault Refusal := takeTurn s

/-- `s` with the instruction `w` of `nbits` bits where the next step fetches it (log 12): a command word is issued as by
an accepted CMD write (R113), a stream group is put at the cursor of a running DECL (R38). -/
def State.withFetchWord (s : State) (nbits w : Nat) : State :=
  if nbits = 32 then s.placeCommand (BitVec.ofNat 32 w) else s.placeGroup (lowBytes w maxGroupBytes)

end Sys2Proof.Machine
end

