-- ==== Sys2Proof/Machine/Platform.lean ====
section
/-! DEFINITION. Several instances of the block (20_memory.md R77): a list of states, one of which steps at a time, with
nothing shared (log 10), each with its host window at the one BLOCK_BASE (DESIGN CHOICE, log 22: unsafe). -/

namespace Sys2Proof.Machine

/-- Every instance of the platform right after power-on (R11, R77). -/
def platformReset : List State := List.replicate Config.numInstances State.reset

/-- Instance `i` takes a step; a number that names no instance leaves the platform as it is. Which instance a host
operation is for is said by whose script it stands in, never by its address (log 22). -/
def stepInstance (p : List State) (i : Nat) : Host.Outcome (List State) Fault Refusal :=
  match p[i]? with
  | none => .next p
  | some s =>
    match step s with
    | .next t => .next (p.set i t)
    | .fault f => .fault f
    | .refused r => .refused r

end Sys2Proof.Machine
end

