-- ==== Sys2Proof/Safety.lean ====
section
/-! DEFINITION. What counts as a good state and a good outcome, in the terms the statements use: the invariant of the
machine, the condition under which a command executes normally (30_encoding.md R83, 40_command_interface.md R116 to
R119), and what a run may do to memory (R121, R122). -/

namespace Sys2Proof

open Machine

/-- The condition under which a legal command passes every pre-check (R117 to R119, R182), written out. -/
def Ready (c : Command) (l : Latch) : Prop :=
  (c = .dith → l.gridW = 576 ∧ l.gridH = 720) ∧
  ((c = .encl → 72 ≤ l.srcLen.toNat) ∧ (c = .encf → 51840 ≤ l.srcLen.toNat) ∧
    (c = .decl → 72 ≤ l.dstLen.toNat) ∧ (c = .decf → 51840 ≤ l.dstLen.toNat) ∧
    (c = .dith → 414720 ≤ l.srcLen.toNat ∧ 51840 ≤ l.dstLen.toNat)) ∧
  (l.src.toNat + c.inLen l ≤ 1048576 ∧ l.dst.toNat + c.outLen l ≤ 1048576) ∧
  (c.inLen l = 0 ∨ c.outLen l = 0 ∨ l.src.toNat + c.inLen l ≤ l.dst.toNat ∨ l.dst.toNat + c.outLen l ≤ l.src.toNat)

/-- A transient that belongs to the command in the latch and lies within its bounds (R20, R38, R39, R43). -/
def Machine.Running.valid (l : Latch) : Running → Prop
  | .fresh => True
  | .decoding d =>
    ∃ c, l.command = some c ∧ c.precheck l = none ∧ (c = .decl ∨ c = .decf) ∧ d.line < c.lines ∧
      d.cur ≤ l.srcLen.toNat ∧ d.out.length ≤ Config.N
  | .encoding e =>
    ∃ c, l.command = some c ∧ c.precheck l = none ∧ (c = .encl ∨ c = .encf) ∧ e.line ≤ c.lines ∧
      e.pos ≤ Config.N ∧ e.written ≤ l.dstLen.toNat
  | .dithering d =>
    l.command = some .dith ∧ Command.dith.precheck l = none ∧ d.err.size = Config.W * Config.H ∧
      d.bits.size = d.y * Config.W + d.x ∧ d.x < Config.W ∧ (d.y < Config.H ∨ (d.y = Config.H ∧ d.x = 0))

/-- The error codes that come with no position: success and the pre-check errors (R203). -/
def Machine.ErrCode.positionless : ErrCode → Bool
  | .noError => true
  | .illegalCmd => true
  | .badRange => true
  | .aliasing => true
  | .dimension => true
  | .fmtTruncated => false
  | .fmtOverrun => false
  | .dstOverflow => false
  | .encInvariant => false

/-- The invariant of the machine. -/
structure Machine.State.Inv (s : State) : Prop where
  /-- Memory keeps its canonical form. -/
  memory : s.mem.wf
  /-- The transient exists only while PHASE = BUSY (R20). -/
  idleFresh : s.phase = .idle → s.run = .fresh
  /-- A command runs only while DONE = 0 and ERRCODE = 0 (R113, R214, R238). -/
  busyPending : s.phase = .busy → s.regs.done = false ∧ s.regs.errCode = .noError
  /-- The transient belongs to the running command. -/
  transient : s.run.valid s.latch
  /-- Code 8 is never written (R208). -/
  noEncInvariant : s.regs.errCode ≠ .encInvariant
  /-- After a failed command both counts are 0 (R32, R33). -/
  failedCounts : s.phase = .idle → s.regs.errCode ≠ .noError → s.regs.consumed = 0 ∧ s.regs.produced = 0
  /-- Without a run-time error both positions are 0 (R34, R35). -/
  noPosition : s.phase = .idle → s.regs.errCode.positionless = true → s.regs.errPos = 0 ∧ s.regs.errLine = 0

/-- Byte `i` of `s` belongs to a run of two or more equal adjacent bytes (R134). -/
def inRun (s : List Byte) (i : Nat) : Prop :=
  ∃ b, s[i]? = some b ∧ (s[i + 1]? = some b ∨ (1 ≤ i ∧ s[i - 1]? = some b))

/-- The bytes at `a` and on are those of the list. -/
def Machine.Memory.holds (m : Memory) (a : Nat) (bytes : List Byte) : Prop :=
  ∀ i (h : i < bytes.length), m.lookup (a + i) = some bytes[i]

/-- Every address outside `[a, a + n)` reads as before. -/
def Machine.Memory.sameOutside (m m' : Memory) (a n : Nat) : Prop :=
  ∀ k, k < a ∨ a + n ≤ k → m'.lookup k = m.lookup k

/-- The run wrote exactly the bytes of the list, at `a` and on (R122). -/
def Machine.Memory.wrote (m m' : Memory) (a : Nat) (bytes : List Byte) : Prop :=
  m'.holds a bytes ∧ m.sameOutside m' a bytes.length

/-- The bytes of `[a, a + n)` are unwritten afterwards and all others as before (R121). -/
def Machine.Memory.forgot (m m' : Memory) (a n : Nat) : Prop :=
  (∀ k, a ≤ k → k < a + n → m'.lookup k = none) ∧ m.sameOutside m' a n

/-- The completion step of R115 as it appears in the state: the code, position, line and counts given; IE, LOST, BUSERR,
the operand registers, the latch and the model's own fields as before. Memory is said apart. -/
def Machine.State.completedTo (s t : State) (e : ErrCode) (pos line consumed produced : Nat) : Prop :=
  t.regs = { s.regs with
    done := true
    errCode := e
    errPos := t.regs.errPos
    errLine := t.regs.errLine
    consumed := t.regs.consumed
    produced := t.regs.produced } ∧
  t.regs.errPos.toNat = pos ∧ t.regs.errLine.toNat = line ∧
  t.regs.consumed.toNat = consumed ∧ t.regs.produced.toNat = produced ∧
  t.phase = .idle ∧ t.run = .fresh ∧ t.latch = s.latch ∧ t.rdata = s.rdata ∧ t.script = s.script

/-- A legally formed scanline: groups that are each encodable, whose output is exactly `N` bytes, the last of them the
one that completes it (R156, R157). -/
def LegalLine (gs : List Group) : Prop :=
  (∀ g ∈ gs, g.wellFormed = true) ∧ (streamOutput gs).length = 72 ∧ gs.getLast? ≠ some .nop

/-- The bytes of a list as a source of bytes, as a command reads its source region. -/
def listReader (bytes : List Byte) (k : Nat) : Except Fault Byte :=
  match bytes[k]? with
  | some b => .ok b
  | none => .error (.unwrittenRead k)

/-- `k` internal steps of the engine, stopping where the command has completed. -/
def advanceTimes : Nat → State → Host.Outcome State Fault Refusal
  | 0, s => .next s
  | k + 1, s =>
    match s.phase with
    | .idle => .next s
    | .busy =>
      match advanceStep s with
      | .next t => advanceTimes k t
      | .fault f => .fault f
      | .refused r => .refused r

end Sys2Proof
end

