-- ==== Sys2Proof/Certificates/Slice0/Obligations.lean ====
section
/-! DEFINITION. The statements about the model, from the numbered rules of spec/. Each one's docstring names the rule or
section it formalises. Memory is always read through `Memory.lookup`, so a statement about bytes holds whatever the list
that holds them; `completedTo`, `wrote`, `forgot`, `sameOutside`, `Ready` and `LegalLine` are spelled out in Safety.lean. -/

open Sys2Proof Sys2Proof.Machine

/-! ### Encodings -/

/-- R80 to R82, R86: decoding gives back every well-formed instruction that was encoded, and encoding gives back every
word and every control byte that was decoded, so no bit is dropped and no two rows overlap. -/
def Obligations.DecodeAndEncodeAreInverse : Prop :=
  (∀ i : Instr, i.wellFormed = true → decode (encode i) = i) ∧
  (∀ e : Encoded, (decode e).wellFormed = true ∧ encode (decode e) = e)

/-- R85 to R88: the bytes of a well-formed group, whatever follows them, decode to that group and leave what follows; a
LIT has `L + 1` bytes, a NOP 1, a REP 2. -/
def Obligations.GroupBytesDecodeToTheGroup : Prop :=
  ∀ (g : Group) (rest : List Byte), g.wellFormed = true →
    decodeGroup (encodeGroup g ++ rest) = .ok (g, rest) ∧
    (encodeGroup g).length =
      (match g with
       | .lit data => data.length + 1
       | .nop => 1
       | .rep _ _ => 2)

/-- R81, R82, R86, R87: words and control bytes written out from the spec's tables decode to their instructions. -/
def Obligations.WrittenOutWordsDecode : Prop :=
  decodeCommand 0b00000000000000000000000000000001 = .encl ∧
  decodeCommand 0b00000000000000000000000000000010 = .encf ∧
  decodeCommand 0b00000000000000000000000000000011 = .decl ∧
  decodeCommand 0b00000000000000000000000000000100 = .decf ∧
  decodeCommand 0b00000000000000000000000000000101 = .dith ∧
  decodeCommand 0b00000000000000000000000000000110 = .illegal 6 0 ∧
  decodeCommand 0b00000000000000000000000000010011 = .illegal 3 1 ∧
  decodeControl 0b01000111 = .lit 71 ∧
  decodeControl 0b10000000 = .nop ∧
  decodeControl 0b10111001 = .rep 57

/-! ### Commands -/

/-- R201, R120: an illegal command word completes with ILLEGAL_CMD and zeroes, and no byte of BUF changes. -/
def Obligations.IllegalCommandWritesNothing : Prop :=
  ∀ (op : BitVec 4) (rsv : BitVec 28) (s : State),
    ∃ t, exec (.illegal op rsv) s = .next t ∧ s.completedTo t .illegalCmd 0 0 0 0 ∧ t.mem = s.mem

/-- R116 to R120, R182, R210: the pre-checks of the five legal commands, in their order, and that a failing one completes
the command with its code and zeroes and changes no byte of BUF. -/
def Obligations.PreChecksFailInOrder : Prop :=
  ∀ (c : Command) (s : State),
    let l := s.latch
    let dims := c = .dith → l.gridW = 576 ∧ l.gridH = 720
    let lengths := (c = .encl → 72 ≤ l.srcLen.toNat) ∧ (c = .encf → 51840 ≤ l.srcLen.toNat) ∧
      (c = .decl → 72 ≤ l.dstLen.toNat) ∧ (c = .decf → 51840 ≤ l.dstLen.toNat) ∧
      (c = .dith → 414720 ≤ l.srcLen.toNat ∧ 51840 ≤ l.dstLen.toNat)
    let ranges := l.src.toNat + c.inLen l ≤ 1048576 ∧ l.dst.toNat + c.outLen l ≤ 1048576
    let overlaps := 0 < c.inLen l ∧ 0 < c.outLen l ∧ l.src.toNat < l.dst.toNat + c.outLen l ∧
      l.dst.toNat < l.src.toNat + c.inLen l
    let failsWith := fun (e : ErrCode) =>
      ∃ t, exec c.instr s = .next t ∧ s.completedTo t e 0 0 0 0 ∧ t.mem = s.mem
    (¬ dims → failsWith .dimension) ∧
    (dims → ¬ lengths → failsWith .badRange) ∧
    (dims → lengths → ¬ ranges → failsWith .badRange) ∧
    (dims → lengths → ranges → overlaps → failsWith .aliasing)

/-- R130, R122: ENCL on a readable scanline whose encoding fits completes with success; the encoding stands at `L_DST`
and no other byte of BUF changes. -/
def Obligations.EncodeLineCompletes : Prop :=
  ∀ (s : State) (row : List Byte), Ready .encl s.latch → row.length = 72 →
    s.mem.holds s.latch.src.toNat row → (encodeLine row).length ≤ s.latch.dstLen.toNat →
    ∃ t, exec .encl s = .next t ∧ s.completedTo t .noError 0 0 72 (encodeLine row).length ∧
      s.mem.wrote t.mem s.latch.dst.toNat (encodeLine row)

/-- R131, R122: ENCF on a readable bitmap whose encoding fits completes with success; the encodings of the 720 rows stand
one after another at `L_DST` and no other byte of BUF changes. -/
def Obligations.EncodeFrameCompletes : Prop :=
  ∀ (s : State) (rows : List (List Byte)), Ready .encf s.latch → rows.length = 720 →
    (∀ row ∈ rows, row.length = 72) → s.mem.holds s.latch.src.toNat rows.flatten →
    (rows.flatMap encodeLine).length ≤ s.latch.dstLen.toNat →
    ∃ t, exec .encf s = .next t ∧ s.completedTo t .noError 0 0 51840 (rows.flatMap encodeLine).length ∧
      s.mem.wrote t.mem s.latch.dst.toNat (rows.flatMap encodeLine)

/-- R130, R131, R203, R207, R121: where the rows before and the groups before fit the capacity and the next group does
not, ENCL and ENCF complete with DST_OVERFLOW at the first byte that group covers, and only the capacity region is
unspecified: its bytes become unwritten (log 4). -/
def Obligations.EncoderOverflowIsReported : Prop :=
  ∀ (s : State) (c : Command) (before : List (List Byte)) (row : List Byte)
    (pre post : List (Nat × Group)) (k : Nat) (g : Group),
    c = .encl ∨ c = .encf → Ready c s.latch → before.length < c.lines →
    (∀ r ∈ before, r.length = 72) → row.length = 72 →
    s.mem.holds s.latch.src.toNat (before.flatten ++ row) →
    encodeGroups row = pre ++ (k, g) :: post →
    (before.flatMap encodeLine).length + (pre.flatMap (fun p => encodeGroup p.2)).length ≤ s.latch.dstLen.toNat →
    s.latch.dstLen.toNat <
      (before.flatMap encodeLine).length + (pre.flatMap (fun p => encodeGroup p.2)).length + (encodeGroup g).length →
    ∃ t, exec c.instr s = .next t ∧
      s.completedTo t .dstOverflow (before.length * 72 + k) before.length 0 0 ∧
      s.mem.forgot t.mem s.latch.dst.toNat s.latch.dstLen.toNat

/-- R160, R157, R166, R122: DECL on any legally formed scanline, with or without bytes after it, completes with success:
CONSUMED is the length of its groups, the 72 output bytes stand at `L_DST`, and no other byte of BUF changes. -/
def Obligations.DecodeLineCompletes : Prop :=
  ∀ (s : State) (gs : List Group), Ready .decl s.latch → LegalLine gs →
    s.mem.holds s.latch.src.toNat (streamBytes gs) → (streamBytes gs).length ≤ s.latch.srcLen.toNat →
    ∃ t, exec .decl s = .next t ∧ s.completedTo t .noError 0 0 (streamBytes gs).length 72 ∧
      s.mem.wrote t.mem s.latch.dst.toNat (streamOutput gs)

/-- R165, R157, R166, R122: DECF on 720 legally formed scanlines back to back, with or without bytes after them,
completes with success: the bitmap stands at `L_DST` and no other byte of BUF changes. -/
def Obligations.DecodeFrameCompletes : Prop :=
  ∀ (s : State) (lines : List (List Group)), Ready .decf s.latch → lines.length = 720 →
    (∀ gs ∈ lines, LegalLine gs) → s.mem.holds s.latch.src.toNat (lines.flatMap streamBytes) →
    (lines.flatMap streamBytes).length ≤ s.latch.srcLen.toNat →
    ∃ t, exec .decf s = .next t ∧
      s.completedTo t .noError 0 0 (lines.flatMap streamBytes).length 51840 ∧
      s.mem.wrote t.mem s.latch.dst.toNat (lines.flatMap streamOutput)

/-- R153, R154, R203, R160, R165, R121: after whole scanlines and the groups of a part of the next, DECL and DECF meet
either the end of the stream, or a group that overruns the scanline, or a group that fits but is cut short; they complete
with the code, offset and scanline of that, and only the destination region is unspecified: its bytes become
unwritten (log 4). -/
def Obligations.DecoderErrorsAreReported : Prop :=
  ∀ (s : State) (c : Command) (lines : List (List Group)) (part : List Group) (e : ErrCode),
    c = .decl ∨ c = .decf → Ready c s.latch → lines.length < c.lines → (∀ gs ∈ lines, LegalLine gs) →
    (∀ g ∈ part, g.wellFormed = true) → (streamOutput part).length < 72 →
    let stream := lines.flatMap streamBytes ++ streamBytes part
    let pos := stream.length
    let count := (streamOutput part).length
    let len := s.latch.srcLen.toNat
    s.mem.holds s.latch.src.toNat stream → pos ≤ len →
    ((pos = len ∧ e = .fmtTruncated) ∨
     (∃ n : BitVec 7, pos < len ∧ s.mem.lookup (s.latch.src.toNat + pos) = some (0#1 ++ n) ∧
       ((72 < count + (n.toNat + 1) ∧ e = .fmtOverrun) ∨
        (count + (n.toNat + 1) ≤ 72 ∧ len < pos + 1 + (n.toNat + 1) ∧ e = .fmtTruncated))) ∨
     (∃ n : BitVec 7, n ≠ 0 ∧ pos < len ∧ s.mem.lookup (s.latch.src.toNat + pos) = some (1#1 ++ n) ∧
       ((72 < count + (129 - n.toNat) ∧ e = .fmtOverrun) ∨
        (count + (129 - n.toNat) ≤ 72 ∧ len < pos + 2 ∧ e = .fmtTruncated)))) →
    ∃ t, exec c.instr s = .next t ∧ s.completedTo t e pos lines.length 0 0 ∧
      s.mem.forgot t.mem s.latch.dst.toNat (c.outLen s.latch)

/-- R181, R122: DITH on a readable grid of 414720 bytes completes with success; the packed dither of the grid stands at
`L_DST` and no other byte of BUF changes. It holds whichever value DIV_ROUND has (log 8). -/
def Obligations.DitherCompletes : Prop :=
  ∀ (s : State) (g : Nat → Nat → Byte), Ready .dith s.latch →
    (∀ x y, x < 576 → y < 720 → s.mem.lookup (s.latch.src.toNat + y * 576 + x) = some (g x y)) →
    ∃ t, exec .dith s = .next t ∧ s.completedTo t .noError 0 0 414720 51840 ∧
      s.mem.wrote t.mem s.latch.dst.toNat (packBitmap 576 720 (ditherFn Config.divRound 576 720 g))

/-- R121, R122: whatever a legal command meets, when it completes no byte outside its destination region has changed, and
when it succeeds no byte outside the PRODUCED bytes at `L_DST`. -/
def Obligations.CommandsKeepBytesOutsideTheDestination : Prop :=
  ∀ (c : Command) (s t : State), exec c.instr s = .next t →
    s.mem.sameOutside t.mem s.latch.dst.toNat (c.outLen s.latch) ∧
    (t.regs.errCode = .noError → s.mem.sameOutside t.mem s.latch.dst.toNat t.regs.produced.toNat)

/-- R115, R158, R72: a command's result depends on the latch and its source region alone. Two states that agree on these
complete with the same code, position, line and counts, and on success with the same bytes produced. -/
def Obligations.ResultDependsOnLatchAndSourceOnly : Prop :=
  ∀ (c : Command) (s s' t : State), s'.latch = s.latch →
    (∀ k, k < c.inLen s.latch → s'.mem.lookup (s.latch.src.toNat + k) = s.mem.lookup (s.latch.src.toNat + k)) →
    exec c.instr s = .next t →
    ∃ t', exec c.instr s' = .next t' ∧ t'.regs.errCode = t.regs.errCode ∧ t'.regs.errPos = t.regs.errPos ∧
      t'.regs.errLine = t.regs.errLine ∧ t'.regs.consumed = t.regs.consumed ∧ t'.regs.produced = t.regs.produced ∧
      (t.regs.errCode = .noError → ∀ k, k < t.regs.produced.toNat →
        t'.mem.lookup (s.latch.dst.toNat + k) = t.mem.lookup (s.latch.dst.toNat + k))

/-- R40, R237: a write to an operand register while a command runs is performed and does not touch the running command:
its completion step gives the same memory and the same results. -/
def Obligations.RunningCommandIgnoresOperandWrites : Prop :=
  ∀ (s t u : State) (o : HostOffset) (v : Word), s.phase = .busy →
    o ∈ [0x10#21, 0x14#21, 0x18#21, 0x1C#21, 0x20#21, 0x24#21] →
    hostAccess o (.write .w32 v) s = .next t → completionStep s = .next u →
    t.latch = s.latch ∧
    ∃ u', completionStep t = .next u' ∧ u'.mem = u.mem ∧ u'.regs.errCode = u.regs.errCode ∧
      u'.regs.errPos = u.regs.errPos ∧ u'.regs.errLine = u.regs.errLine ∧
      u'.regs.consumed = u.regs.consumed ∧ u'.regs.produced = u.regs.produced

/-! ### Stream groups -/

/-- R150: LIT on a scanline with room and a stream that holds its data appends the data bytes and moves the cursor past
the group; nothing else changes. -/
def Obligations.LiteralGroupCopiesItsBytes : Prop :=
  ∀ (n : BitVec 7) (s : State) (d : Decoder) (data : List Byte), s.run = .decoding d →
    data.length = n.toNat + 1 → d.out.length + data.length ≤ 72 →
    d.cur + 1 + data.length ≤ s.latch.srcLen.toNat →
    s.latch.src.toNat + s.latch.srcLen.toNat ≤ 1048576 →
    s.mem.holds (s.latch.src.toNat + d.cur + 1) data →
    exec (.lit n) s =
      .next { s with run := .decoding { d with cur := d.cur + 1 + data.length, out := d.out ++ data } }

/-- R151: NOP moves the cursor by one and changes nothing else, on every decode in progress. -/
def Obligations.NopGroupMovesTheCursorOnly : Prop :=
  ∀ (s : State) (d : Decoder), s.run = .decoding d →
    exec .nop s = .next { s with run := .decoding { d with cur := d.cur + 1 } }

/-- R152: REP with control byte `c = 0x80 + n` on a scanline with room and a stream that holds its value byte appends
`257 - c` copies of it and moves the cursor by two; nothing else changes. -/
def Obligations.RepeatGroupRepeatsItsByte : Prop :=
  ∀ (n : BitVec 7) (s : State) (d : Decoder) (v : Byte), s.run = .decoding d →
    d.out.length + (257 - (128 + n.toNat)) ≤ 72 → d.cur + 2 ≤ s.latch.srcLen.toNat →
    s.latch.src.toNat + s.latch.srcLen.toNat ≤ 1048576 →
    s.mem.lookup (s.latch.src.toNat + d.cur + 1) = some v →
    exec (.rep n) s = .next { s with
      run := .decoding { d with
        cur := d.cur + 2
        out := d.out ++ List.replicate (257 - (128 + n.toNat)) v } }

/-- R153, R121: a LIT or REP that would take the scanline above 72 bytes ends the command with FMT_OVERRUN at its control
byte, whether or not its data bytes are there; the destination region becomes unspecified: unwritten (log 4). -/
def Obligations.OverrunningGroupEndsTheCommand : Prop :=
  ∀ (s : State) (d : Decoder) (c : Command) (n : BitVec 7), s.Inv → s.run = .decoding d →
    s.latch.command = some c →
    (72 < d.out.length + (n.toNat + 1) →
      ∃ t, exec (.lit n) s = .next t ∧ s.completedTo t .fmtOverrun d.cur d.line 0 0 ∧
        s.mem.forgot t.mem s.latch.dst.toNat (c.outLen s.latch)) ∧
    (72 < d.out.length + (257 - (128 + n.toNat)) →
      ∃ t, exec (.rep n) s = .next t ∧ s.completedTo t .fmtOverrun d.cur d.line 0 0 ∧
        s.mem.forgot t.mem s.latch.dst.toNat (c.outLen s.latch))

/-- R154 (b), R121: a LIT or REP that fits the scanline but whose data bytes the stream does not hold ends the command
with FMT_TRUNCATED at its control byte; the destination region becomes unspecified: unwritten (log 4). -/
def Obligations.CutGroupEndsTheCommand : Prop :=
  ∀ (s : State) (d : Decoder) (c : Command) (n : BitVec 7), s.Inv → s.run = .decoding d →
    s.latch.command = some c →
    (d.out.length + (n.toNat + 1) ≤ 72 → s.latch.srcLen.toNat < d.cur + 1 + (n.toNat + 1) →
      ∃ t, exec (.lit n) s = .next t ∧ s.completedTo t .fmtTruncated d.cur d.line 0 0 ∧
        s.mem.forgot t.mem s.latch.dst.toNat (c.outLen s.latch)) ∧
    (d.out.length + (257 - (128 + n.toNat)) ≤ 72 → s.latch.srcLen.toNat < d.cur + 2 →
      ∃ t, exec (.rep n) s = .next t ∧ s.completedTo t .fmtTruncated d.cur d.line 0 0 ∧
        s.mem.forgot t.mem s.latch.dst.toNat (c.outLen s.latch))

/-- R154 (a), R121: where a decode needs a control byte and the stream has run out, the engine's next internal step ends
the command with FMT_TRUNCATED at the stream's length. The internal step is the model's own (log 2), and so is it
that the destination region becomes unwritten (log 4). -/
def Obligations.ExhaustedStreamEndsTheCommand : Prop :=
  ∀ (s : State) (rest : List Event) (d : Decoder) (c : Command), s.Inv → s.phase = .busy →
    s.script = .advance :: rest → s.run = .decoding d → s.latch.command = some c →
    d.out.length < 72 → d.cur = s.latch.srcLen.toNat →
    ∃ t, step s = .next t ∧
      State.completedTo { s with script := rest } t .fmtTruncated s.latch.srcLen.toNat d.line 0 0 ∧
      s.mem.forgot t.mem s.latch.dst.toNat (c.outLen s.latch)

/-! ### The codec -/

/-- R136: decoding the encoding of a scanline, whatever follows it, gives the scanline and consumes exactly the encoding;
decoding the concatenated encodings of the 720 rows of a bitmap gives the bitmap. -/
def Obligations.EncodedLinesDecodeBack : Prop :=
  (∀ (row t : List Byte), row.length = 72 →
    decodeLine (listReader (encodeLine row ++ t)) (encodeLine row ++ t).length ((encodeLine row ++ t).length + 1)
        { cur := 0, out := [], line := 0 } =
      .ok { cur := (encodeLine row).length, out := row, line := 0 }) ∧
  (∀ rows : List (List Byte), rows.length = 720 → (∀ row ∈ rows, row.length = 72) →
    decodeRows (listReader (rows.flatMap encodeLine)) (rows.flatMap encodeLine).length 720 0 0 =
      .ok rows.flatten (rows.flatMap encodeLine).length)

/-- R133: the encoder emits only LIT and REP groups, every control byte is in 0x00 to 0x7F or 0x81 to 0xFF and never
0x80, and there is no REP of length 1 and no group of length 0. -/
def Obligations.EncoderEmitsOnlyLegalGroups : Prop :=
  ∀ (s : List Byte) (k : Nat) (g : Group), (k, g) ∈ encodeGroups s →
    g ≠ .nop ∧ g.wellFormed = true ∧ 1 ≤ g.expand.length ∧
    ∃ c rest, encodeGroup g = c :: rest ∧ c ≠ 0x80 ∧
      (match g with
       | .lit _ => c.toNat ≤ 0x7F
       | .nop => False
       | .rep _ _ => 0x81 ≤ c.toNat)

/-- R132: the groups, in order, cover the input from left to right: each group's index is the number of bytes the groups
before it stand for, and all together they stand for the input. -/
def Obligations.EncoderGroupsCoverTheInput : Prop :=
  ∀ (s : List Byte) (pre post : List (Nat × Group)) (k : Nat) (g : Group),
    encodeGroups s = pre ++ (k, g) :: post →
    k = (streamOutput (pre.map (·.2))).length ∧
    streamOutput ((encodeGroups s).map (·.2)) = s

/-- R134: the shape of the encoder's groups. Equal adjacent bytes lie in a repeat group that begins at or before the first
of them. A maximal run of `m ≥ 2` equal bytes is one repeat group where `m ≤ 128`; a longer one is repeat groups of 128
and one for the rest, but that a rest of one byte is the first byte of a literal group. No literal group holds two
adjacent equal bytes or ends in a byte equal to the one after it; two literal groups are adjacent only where the first has
128 bytes. -/
def Obligations.EncoderOutputShape : Prop :=
  ∀ (s : List Byte),
    (∀ i b, s[i]? = some b → s[i + 1]? = some b →
      ∃ k count v, (k, Group.rep count v) ∈ encodeGroups s ∧ k ≤ i ∧ i < k + count) ∧
    (∀ (before after : List Byte) (v : Byte) (m : Nat), s = before ++ List.replicate m v ++ after → 2 ≤ m →
      before.getLast? ≠ some v → after.head? ≠ some v →
      (m ≤ 128 → (before.length, Group.rep m v) ∈ encodeGroups s) ∧
      (∀ j, 128 * j + 2 ≤ m → (before.length + 128 * j, Group.rep (min 128 (m - 128 * j)) v) ∈ encodeGroups s) ∧
      (128 < m → m % 128 = 1 → ∃ data, (before.length + (m - 1), Group.lit (v :: data)) ∈ encodeGroups s)) ∧
    (∀ k data, (k, Group.lit data) ∈ encodeGroups s →
      (∀ i b, data[i]? = some b → data[i + 1]? ≠ some b) ∧
      (∀ b, data.getLast? = some b → s[k + data.length]? ≠ some b)) ∧
    (∀ pre post k k' data data',
      encodeGroups s = pre ++ (k, Group.lit data) :: (k', Group.lit data') :: post → data.length = 128)

/-- R135: on a scanline of 72 bytes the caps of 128 never bind. Every group stands for fewer than 128 bytes, every maximal
run of two or more equal bytes is one repeat group, every maximal stretch of bytes that lie in no such run is one literal
group, and no command ends in ENC_INVARIANT. -/
def Obligations.EncoderCapsNeverBindOnAScanline : Prop :=
  (∀ s : List Byte, s.length = 72 →
    (∀ k g, (k, g) ∈ encodeGroups s → g.expand.length < 128) ∧
    (∀ (before after : List Byte) (v : Byte) (m : Nat), s = before ++ List.replicate m v ++ after → 2 ≤ m →
      before.getLast? ≠ some v → after.head? ≠ some v → (before.length, Group.rep m v) ∈ encodeGroups s) ∧
    (∀ before stretch after : List Byte, s = before ++ stretch ++ after → stretch ≠ [] →
      (∀ i, before.length ≤ i → i < before.length + stretch.length → ¬ inRun s i) →
      (before ≠ [] → inRun s (before.length - 1)) → (after ≠ [] → inRun s (before.length + stretch.length)) →
      (before.length, Group.lit stretch) ∈ encodeGroups s)) ∧
  (∀ s t : State, completionStep s = .next t → t.regs.errCode ≠ .encInvariant)

/-- R137: the encoding of a line of 1 to 128 bytes has 2 to `ceil(4n/3)` bytes; it has 2 exactly when the line is one
byte or all its bytes are equal; the pattern A B B repeated meets the upper bound. -/
def Obligations.EncodedLengthIsBounded : Prop :=
  (∀ s : List Byte, 1 ≤ s.length → s.length ≤ 128 →
    2 ≤ (encodeLine s).length ∧ (encodeLine s).length ≤ (4 * s.length + 2) / 3 ∧
    ((encodeLine s).length = 2 ↔ s.length = 1 ∨ ∃ b, s = List.replicate s.length b)) ∧
  (∀ (a b : Byte) (m : Nat), a ≠ b → 1 ≤ m → 3 * m ≤ 128 →
    (encodeLine (List.replicate m [a, b, b]).flatten).length = 4 * m)

/-! ### The ditherer -/

/-- R185: the division by 8 under both values of DIV_ROUND. -/
def Obligations.DivisionByEightRounds : Prop :=
  ∀ q : Int,
    (0 ≤ q → div8 .trunc q = q / 8 ∧ div8 .floor q = q / 8) ∧
    (q < 0 → div8 .trunc q = -((-q) / 8)) ∧
    (∀ k : Int, div8 .floor q = k ↔ 8 * k ≤ q ∧ q < 8 * k + 8)

/-- R183 to R185: what one pixel decides: it is ink exactly when the pixel plus its error cell is below 128, and an
eighth of the difference to the value rendered, divided under DIV_ROUND, is diffused. -/
def Obligations.PixelIsThresholdedAndItsErrorDiffused : Prop :=
  ∀ (r : Config.DivRound) (w h : Nat) (g : Byte) (d : Ditherer),
    let adj := (g.toNat : Int) + d.err.getD (d.y * w + d.x) 0
    (adj < 128 → (ditherPixel r w h g d).bits = d.bits.push true ∧
      (ditherPixel r w h g d).err = diffuse w h d.x d.y (div8 r adj) d.err) ∧
    (128 ≤ adj → (ditherPixel r w h g d).bits = d.bits.push false ∧
      (ditherPixel r w h g d).err = diffuse w h d.x d.y (div8 r (adj - 255)) d.err)

/-- R186, R188: the same amount is added to the cell of each of the six neighbours that lie in the grid, and every other
cell of the grid, the pixel's own and all visited ones among them, keeps its value. -/
def Obligations.DiffusionReachesExactlyTheSixNeighbours : Prop :=
  ∀ (w h x y x' y' : Nat) (d : Int) (err : Array Int), err.size = w * h → x < w → y < h → x' < w → y' < h →
    (diffuse w h x y d err).size = w * h ∧
    errCell w (diffuse w h x y d err) x' y' = errCell w err x' y' +
      (if (x' = x + 1 ∧ y' = y) ∨ (x' = x + 2 ∧ y' = y) ∨ (x' + 1 = x ∧ y' = y + 1) ∨ (x' = x ∧ y' = y + 1) ∨
          (x' = x + 1 ∧ y' = y + 1) ∨ (x' = x ∧ y' = y + 2)
       then d else 0)

/-- R39, R180: pixels are visited in raster order, each once: after `n` pixels the position is the pixel number `n` and
`n` bits have been decided. -/
def Obligations.PixelsAreVisitedInRasterOrder : Prop :=
  ∀ (r : Config.DivRound) (w h n : Nat) (g : Nat → Nat → Byte), 0 < w → n ≤ w * h →
    (ditherSteps r w h g n (ditherStart w h)).x = n % w ∧
    (ditherSteps r w h g n (ditherStart w h)).y = n / w ∧
    (ditherSteps r w h g n (ditherStart w h)).bits.size = n

/-- R189: the ranges of every error cell before every pixel and after the last, and of the adjusted value, the
quantisation error and the amount diffused at every pixel, under both values of DIV_ROUND. -/
def Obligations.DitherValuesStayInRange : Prop :=
  ∀ (r : Config.DivRound) (w h n : Nat) (g : Nat → Nat → Byte), n ≤ w * h →
    let low : Int := match r with
      | .trunc => -90
      | .floor => -96
    let least : Int := match r with
      | .trunc => -15
      | .floor => -16
    let d := ditherSteps r w h g n (ditherStart w h)
    let adj := adjusted (g d.x d.y) (errCell w d.err d.x d.y)
    (∀ x y, x < w → y < h → low ≤ errCell w d.err x y ∧ errCell w d.err x y ≤ 90) ∧
    (n < w * h → -96 ≤ adj ∧ adj ≤ 345 ∧ -127 ≤ quantError adj ∧ quantError adj ≤ 127 ∧
      least ≤ div8 r (quantError adj) ∧ div8 r (quantError adj) ≤ 15)

/-- R191: uniform grids: 255 gives no ink and 0 to 7 all ink under both values of DIV_ROUND; 248 to 254 give no ink under
TRUNC. -/
def Obligations.UniformGridsDither : Prop :=
  ∀ (r : Config.DivRound) (w h : Nat) (v : Byte), 0 < w → 0 < h →
    (v.toNat = 255 → ditherFn r w h (fun _ _ => v) = Array.replicate (w * h) false) ∧
    (v.toNat ≤ 7 → ditherFn r w h (fun _ _ => v) = Array.replicate (w * h) true) ∧
    (r = .trunc → 248 ≤ v.toNat → ditherFn r w h (fun _ _ => v) = Array.replicate (w * h) false)

/-- R187, R14: the packed bitmap has `ceil(w/8)` bytes a row; the bit of pixel `(x, y)` stands in byte `x div 8` of row
`y` at bit `7 - (x mod 8)`, and the padding bits of a row are 0. -/
def Obligations.BitsArePackedMostSignificantFirst : Prop :=
  ∀ (w h x y : Nat) (bits : Array Bool), bits.size = w * h → y < h → x < 8 * ((w + 7) / 8) →
    (packBitmap w h bits).length = h * ((w + 7) / 8) ∧
    ∃ b, (packBitmap w h bits)[y * ((w + 7) / 8) + x / 8]? = some b ∧
      (x < w → bits[y * w + x]? = some (b.getLsbD (7 - x % 8))) ∧
      (w ≤ x → b.getLsbD (7 - x % 8) = false)

/-! ### The host's side -/

/-- R100, R22 to R36: a 32-bit read of each register gives the value of its fields and changes nothing but the value the
host is given (the model's field rdata, log 7), whether the engine is idle or busy. -/
def Obligations.RegisterReadsGiveTheirFields : Prop :=
  ∀ s : State,
    let reads := fun (o : HostOffset) (v : Nat) =>
      hostAccess o (.read .w32) s = .next { s with rdata := BitVec.ofNat 32 v }
    let bit := fun (b : Bool) => if b then 1 else 0
    reads 0x00 0x524C0100 ∧
    reads 0x04 (bit s.regs.ie) ∧
    reads 0x08 (256 * s.regs.errCode.code.toNat + 16 * bit s.regs.busErr + 8 * bit s.regs.lost +
      4 * bit (decide (s.regs.errCode ≠ .noError)) + 2 * bit s.regs.done + bit (decide (s.phase = .busy))) ∧
    reads 0x0C 0 ∧
    reads 0x10 s.regs.srcAddr.toNat ∧ reads 0x14 s.regs.srcLen.toNat ∧
    reads 0x18 s.regs.dstAddr.toNat ∧ reads 0x1C s.regs.dstLen.toNat ∧
    reads 0x20 s.regs.gridW.toNat ∧ reads 0x24 s.regs.gridH.toNat ∧
    reads 0x28 s.regs.consumed.toNat ∧ reads 0x2C s.regs.produced.toNat ∧
    reads 0x30 s.regs.errPos.toNat ∧ reads 0x34 s.regs.errLine.toNat ∧
    reads 0x38 0 ∧ reads 0x3C 0

/-- R101, R24, R26 to R31, R36: what a 32-bit write to each register but CMD and the soft reset bit of CTRL changes, in
every phase: the writable bits of that register and nothing else; STATUS by the W1C rule. -/
def Obligations.RegisterWritesChangeTheirFieldsOnly : Prop :=
  ∀ (s : State) (v : Word),
    let writes := fun (o : HostOffset) (r : Regs) =>
      hostAccess o (.write .w32 v) s = .next { s with regs := r }
    (v.getLsbD 1 = false → writes 0x04 { s.regs with ie := v.getLsbD 0 }) ∧
    writes 0x08 { s.regs with
      done := s.regs.done && !v.getLsbD 1
      lost := s.regs.lost && !v.getLsbD 3
      busErr := s.regs.busErr && !v.getLsbD 4 } ∧
    writes 0x10 { s.regs with srcAddr := BitVec.ofNat 20 v.toNat } ∧
    writes 0x14 { s.regs with srcLen := BitVec.ofNat 21 v.toNat } ∧
    writes 0x18 { s.regs with dstAddr := BitVec.ofNat 20 v.toNat } ∧
    writes 0x1C { s.regs with dstLen := BitVec.ofNat 21 v.toNat } ∧
    writes 0x20 { s.regs with gridW := BitVec.ofNat 16 v.toNat } ∧
    writes 0x24 { s.regs with gridH := BitVec.ofNat 16 v.toNat } ∧
    (∀ o ∈ [0x00#21, 0x28#21, 0x2C#21, 0x30#21, 0x34#21, 0x38#21, 0x3C#21], writes o s.regs)

/-- R62, R64, R65, R104, R235: an access at a reserved offset, a register access that is not 32 bits wide and aligned, and
a buffer access that is misaligned or made while busy are not performed: a read returns 0 (in rdata, log 7), a write
changes nothing, and BUSERR is set. -/
def Obligations.RefusedAccessesOnlySetBusErr : Prop :=
  ∀ (s : State) (o : HostOffset) (w : Width) (v : Word),
    (o.toNat < 0x40 ∧ (w ≠ .w32 ∨ o.toNat % 4 ≠ 0)) ∨
    (0x40 ≤ o.toNat ∧ o.toNat < 0x100000) ∨
    (0x100000 ≤ o.toNat ∧ (s.phase = .busy ∨ (w = .w16 ∧ o.toNat % 2 ≠ 0) ∨ (w = .w32 ∧ o.toNat % 4 ≠ 0))) →
    hostAccess o (.read w) s = .next { s with regs := { s.regs with busErr := true }, rdata := 0 } ∧
    hostAccess o (.write w v) s = .next { s with regs := { s.regs with busErr := true } }

/-- R102, R65, R61: a naturally aligned buffer read while idle of bytes that all hold values returns them little-endian
(in rdata, log 7) and changes nothing else. -/
def Obligations.BufferReadsAreLittleEndian : Prop :=
  ∀ (s : State) (o : HostOffset) (w : Width) (bytes : List Byte), s.phase = .idle → 0x100000 ≤ o.toNat →
    bytes.length = (match w with
      | .w8 => 1
      | .w16 => 2
      | .w32 => 4) →
    o.toNat % bytes.length = 0 → s.mem.holds (o.toNat - 0x100000) bytes →
    ∃ v : Word, hostAccess o (.read w) s = .next { s with rdata := v } ∧ v.toNat < 256 ^ bytes.length ∧
      ∀ i b, bytes[i]? = some b → v.toNat / 256 ^ i % 256 = b.toNat

/-- R103, R65, R68: a naturally aligned buffer write while idle puts the bytes of the value at rising addresses, least
significant first, changes nothing else, and 8-bit reads afterwards give those bytes (in rdata, log 7). -/
def Obligations.BufferWritesAreLittleEndian : Prop :=
  ∀ (s : State) (o : HostOffset) (w : Width) (v : Word), s.phase = .idle → 0x100000 ≤ o.toNat →
    let size := match w with
      | .w8 => 1
      | .w16 => 2
      | .w32 => 4
    o.toNat % size = 0 →
    ∃ m, hostAccess o (.write w v) s = .next { s with mem := m } ∧
      s.mem.wrote m (o.toNat - 0x100000) ((List.range size).map (fun i => BitVec.ofNat 8 (v.toNat / 256 ^ i))) ∧
      ∀ i, i < size →
        hostAccess (BitVec.ofNat 21 (o.toNat + i)) (.read .w8) { s with mem := m } =
          .next { s with mem := m, rdata := BitVec.ofNat 32 (v.toNat / 256 ^ i % 256) }

/-- U6: a performed buffer read, of any width, that meets a byte without a value stops the machine at the first such byte;
the spec asks it of a model (93_implementation_defined.md, 92_eei_decisions.md D30; log 3). Which byte of several is named
is the model's choice (log 15). -/
def Obligations.UnwrittenBytesStopTheReader : Prop :=
  ∀ (s : State) (o : HostOffset) (w : Width) (k : Nat), s.phase = .idle → 0x100000 ≤ o.toNat →
    let size := match w with
      | .w8 => 1
      | .w16 => 2
      | .w32 => 4
    o.toNat % size = 0 → k < size →
    (∀ i, i < k → s.mem.lookup (o.toNat - 0x100000 + i) ≠ none) →
    s.mem.lookup (o.toNat - 0x100000 + k) = none →
    hostAccess o (.read w) s = .fault (.unwrittenRead (o.toNat - 0x100000 + k))

/-- U6: a ready command that meets a byte without a value where it must read stops the machine at that byte. ENCL and ENCF
meet it in the row after those whose encodings fit; DECL and DECF at a control byte, among the data bytes of a LIT that
fits the scanline and the stream, or at the value byte of such a REP; DITH anywhere in its grid. The spec asks the stop of
a model (93_implementation_defined.md; log 3); that the first byte in the pseudocode's reading order is the one named is
the model's reading (log 15). -/
def Obligations.UnwrittenBytesStopTheEngine : Prop :=
  (∀ (s : State) (c : Command) (before : List (List Byte)) (part : List Byte),
    c = .encl ∨ c = .encf → Ready c s.latch → before.length < c.lines → (∀ r ∈ before, r.length = 72) →
    part.length < 72 → (before.flatMap encodeLine).length ≤ s.latch.dstLen.toNat →
    s.mem.holds s.latch.src.toNat (before.flatten ++ part) →
    let a := s.latch.src.toNat + (before.length * 72 + part.length)
    s.mem.lookup a = none → exec c.instr s = .fault (.unwrittenRead a)) ∧
  (∀ (s : State) (c : Command) (lines : List (List Group)) (part : List Group),
    c = .decl ∨ c = .decf → Ready c s.latch → lines.length < c.lines → (∀ gs ∈ lines, LegalLine gs) →
    (∀ g ∈ part, g.wellFormed = true) → (streamOutput part).length < 72 →
    let stream := lines.flatMap streamBytes ++ streamBytes part
    let count := (streamOutput part).length
    let len := s.latch.srcLen.toNat
    let a := s.latch.src.toNat + stream.length
    s.mem.holds s.latch.src.toNat stream → stream.length < len →
    (s.mem.lookup a = none → exec c.instr s = .fault (.unwrittenRead a)) ∧
    (∀ (n : BitVec 7) (data : List Byte), s.mem.holds a ((0#1 ++ n) :: data) → data.length < n.toNat + 1 →
      count + (n.toNat + 1) ≤ 72 → stream.length + 1 + (n.toNat + 1) ≤ len →
      s.mem.lookup (a + 1 + data.length) = none → exec c.instr s = .fault (.unwrittenRead (a + 1 + data.length))) ∧
    (∀ n : BitVec 7, n ≠ 0 → s.mem.lookup a = some (1#1 ++ n) → count + (129 - n.toNat) ≤ 72 →
      stream.length + 2 ≤ len → s.mem.lookup (a + 1) = none → exec c.instr s = .fault (.unwrittenRead (a + 1)))) ∧
  (∀ (s : State) (k : Nat), Ready .dith s.latch → k < 414720 →
    (∀ i, i < k → s.mem.lookup (s.latch.src.toNat + i) ≠ none) → s.mem.lookup (s.latch.src.toNat + k) = none →
    exec .dith s = .fault (.unwrittenRead (s.latch.src.toNat + k)))

/-- R113: a CMD write while idle is accepted, whatever the word: it latches the word's fields and the operand registers,
clears DONE and ERRCODE and sets BUSY; every other register, BUF and the value last read keep theirs. -/
def Obligations.CommandWriteWhileIdleIsAccepted : Prop :=
  ∀ (s : State) (v : Word), s.phase = .idle →
    hostAccess 0x0C (.write .w32 v) s = .next { s with
      latch :=
        { op := BitVec.ofNat 4 v.toNat
          rsv := decide (16 ≤ v.toNat)
          src := s.regs.srcAddr
          srcLen := s.regs.srcLen
          dst := s.regs.dstAddr
          dstLen := s.regs.dstLen
          gridW := s.regs.gridW
          gridH := s.regs.gridH }
      regs := { s.regs with done := false, errCode := .noError }
      phase := .busy
      run := .fresh }

/-- R114: a CMD write while busy is dropped: LOST is set and nothing else changes. -/
def Obligations.CommandWriteWhileBusyIsLost : Prop :=
  ∀ (s : State) (v : Word), s.phase = .busy →
    hostAccess 0x0C (.write .w32 v) s = .next { s with regs := { s.regs with lost := true } }

/-- R232, R101: a CTRL write with bit 1 set brings every register and the phase to their reset values, whatever bit 0
says; BUF keeps every byte while idle, and while a legal command runs only the bytes of its destination region become
unwritten (log 4; which region that is for a command whose pre-checks would have failed: log 5). -/
def Obligations.SoftResetAbortsAndResets : Prop :=
  ∀ (s : State) (v : Word), v.getLsbD 1 = true →
    ∃ t, hostAccess 0x04 (.write .w32 v) s = .next t ∧ t.regs = State.reset.regs ∧ t.phase = .idle ∧
      t.run = .fresh ∧ t.irq = false ∧ t.rdata = s.rdata ∧ t.script = s.script ∧
      (s.phase = .idle → t.mem = s.mem) ∧
      (∀ c, s.phase = .busy → s.latch.command = some c →
        s.mem.forgot t.mem s.latch.dst.toNat (c.outLen s.latch))

/-- R231, R45: power-on reset gives the register values listed there, no running command, no interrupt, and a BUF in
which every byte is unwritten; State.reset is that state. The value last read and the rest of the script stay (log 7,
log 1), and the latch is State.reset's, all zero (log 6): these three are the model's choice. -/
def Obligations.PowerOnGivesTheResetState : Prop :=
  (∀ (s : State) (rest : List Event), s.script = .powerOn :: rest →
    step s = .next { State.reset with rdata := s.rdata, script := rest }) ∧
  State.reset.regs.ie = false ∧ State.reset.regs.done = false ∧ State.reset.regs.lost = false ∧
  State.reset.regs.busErr = false ∧ State.reset.regs.errCode = .noError ∧
  State.reset.regs.srcAddr = 0 ∧ State.reset.regs.srcLen = 0 ∧ State.reset.regs.dstAddr = 0 ∧
  State.reset.regs.dstLen = 0 ∧ State.reset.regs.gridW = 576 ∧ State.reset.regs.gridH = 720 ∧
  State.reset.regs.consumed = 0 ∧ State.reset.regs.produced = 0 ∧ State.reset.regs.errPos = 0 ∧
  State.reset.regs.errLine = 0 ∧ State.reset.phase = .idle ∧ State.reset.run = .fresh ∧ State.reset.irq = false ∧
  ∀ a, State.reset.mem.lookup a = none

/-- R44: the interrupt output is IE and DONE: it is up after every completion with IE set, an illegal command's too, and
after IE is set while DONE is; it is down after DONE is cleared by a 1, after IE is cleared, after an accepted command and
after either reset. -/
def Obligations.InterruptFollowsEnableAndDone : Prop :=
  ∀ (s : State) (v : Word),
    (s.irq = true ↔ s.regs.ie = true ∧ s.regs.done = true) ∧
    (∀ t, completionStep s = .next t → t.irq = s.regs.ie) ∧
    (∀ c t, exec (Command.instr c) s = .next t → t.irq = s.regs.ie) ∧
    (∀ t, hostAccess 0x04 (.write .w32 v) s = .next t →
      t.irq = (s.regs.done && v.getLsbD 0 && !v.getLsbD 1)) ∧
    (∀ t, v.getLsbD 1 = true → hostAccess 0x08 (.write .w32 v) s = .next t → t.irq = false) ∧
    (∀ t, s.phase = .idle → hostAccess 0x0C (.write .w32 v) s = .next t → t.irq = false) ∧
    s.powerOnReset.irq = false

/-- R70: no read has a side effect but BUSERR: whatever the host reads, everything but BUSERR and the value it is given
keeps its value. The value it is given is the model's field rdata (log 7). -/
def Obligations.ReadsHaveNoSideEffects : Prop :=
  ∀ (s t : State) (o : HostOffset) (w : Width), hostAccess o (.read w) s = .next t →
    t = { s with regs := { s.regs with busErr := t.regs.busErr }, rdata := t.rdata }

/-- R60, R63: the block answers a system address in its window as the host offset counted from BLOCK_BASE, and leaves
every other address alone, wherever the window lies (log 9). -/
def Obligations.SystemAddressesMapIntoTheWindow : Prop :=
  ∀ (s : State) (a : Access) (addr : Nat),
    (∀ o : HostOffset, systemAccess (Config.blockBase + o.toNat) a s = hostAccess o a s) ∧
    (addr < Config.blockBase ∨ Config.blockBase + 2097152 ≤ addr → systemAccess addr a s = .next s)

/-- R77: instances share nothing: the steps of two instances, taken in either order, give the same platform, and each
leaves the other's state alone (log 10). -/
def Obligations.InstancesAreIndependent : Prop :=
  ∀ (p q r : List State) (i j : Nat), i ≠ j → stepInstance p i = .next q → stepInstance q j = .next r →
    q[j]? = p[j]? ∧ ∃ q', stepInstance p j = .next q' ∧ stepInstance q' i = .next r

/-! ### Steps and invariants -/

/-- R113, R115, R116: with a command word `w` latched and the engine's turn next, by the script or because the script is
empty, a step is the completion step: exec of the instruction that `w` decodes to. While idle the engine's turn changes
nothing (log 1). -/
def Obligations.CompletionStepRunsTheIssuedCommand : Prop :=
  ∀ (s : State) (w : Word) (rest : List Event), s.latch.op = cmdOp w → s.latch.rsv = decide (cmdRsv w ≠ 0) →
    (s.phase = .busy → s.script = .engine :: rest →
      step s = exec (decodeCommand w) { s with script := rest }) ∧
    (s.phase = .busy → s.script = [] → step s = exec (decodeCommand w) s) ∧
    (s.phase = .idle → s.script = .engine :: rest → step s = .next { s with script := rest }) ∧
    (s.phase = .idle → s.script = [] → step s = .next s)

/-- R38, R155: with a decode in progress, room in the scanline and a control byte at the cursor, an internal step of the
engine is exec of the stream group that the control byte decodes to. The internal step is the model's own (log 2). -/
def Obligations.InternalStepRunsTheGroupAtTheCursor : Prop :=
  ∀ (s : State) (rest : List Event) (d : Decoder) (c : Command) (b : Byte), s.phase = .busy →
    s.script = .advance :: rest → s.latch.command = some c → s.run = .decoding d → d.out.length < 72 →
    d.cur < s.latch.srcLen.toNat → s.latch.src.toNat + s.latch.srcLen.toNat ≤ 1048576 →
    s.mem.lookup (s.latch.src.toNat + d.cur) = some b →
    step s = exec (decodeControl b) { s with script := rest }

/-- R38, R39, R43, R130, R131, R181: what the other internal steps do, which are the model's own (log 2). A ready command
begins with every position and count 0 and every error cell 0. An encoder step emits the group at its position in the row
or reports the overflow there (its destination becomes unwritten, log 4), goes on to the next row at the end of one, and
completes the command after the last. A ditherer step decides the pixel at the raster position, and after the last pixel
completes the command with the packed bits. -/
def Obligations.InternalStepsBeginEncodeAndDither : Prop :=
  ∀ (s : State) (rest : List Event) (c : Command), s.phase = .busy → s.script = .advance :: rest →
    s.latch.command = some c → Ready c s.latch →
    let s0 := { s with script := rest }
    (s.run = .fresh → step s = .next { s0 with
      run := match c with
        | .encl => .encoding { line := 0, pos := 0, written := 0 }
        | .encf => .encoding { line := 0, pos := 0, written := 0 }
        | .decl => .decoding { cur := 0, out := [], line := 0 }
        | .decf => .decoding { cur := 0, out := [], line := 0 }
        | .dith => .dithering { x := 0, y := 0, err := Array.replicate 414720 0, bits := #[] } }) ∧
    (∀ e : Encoder, c = .encl ∨ c = .encf → s.run = .encoding e →
      (∀ (row : List Byte) (pre post : List (Nat × Group)) (g : Group), e.line < c.lines → row.length = 72 →
        s.mem.holds (s.latch.src.toNat + e.line * 72) row → encodeGroups row = pre ++ (e.pos, g) :: post →
        (e.written + (encodeGroup g).length ≤ s.latch.dstLen.toNat →
          ∃ m, s.mem.wrote m (s.latch.dst.toNat + e.written) (encodeGroup g) ∧
            step s = .next { s0 with
              mem := m
              run := .encoding { e with
                pos := e.pos + g.expand.length
                written := e.written + (encodeGroup g).length } }) ∧
        (s.latch.dstLen.toNat < e.written + (encodeGroup g).length →
          ∃ t, step s = .next t ∧ s0.completedTo t .dstOverflow (e.line * 72 + e.pos) e.line 0 0 ∧
            s.mem.forgot t.mem s.latch.dst.toNat s.latch.dstLen.toNat)) ∧
      (e.line < c.lines → 72 ≤ e.pos →
        step s = .next { s0 with run := .encoding { e with line := e.line + 1, pos := 0 } }) ∧
      (c.lines ≤ e.line → e.written ≤ s.latch.dstLen.toNat →
        ∃ t, step s = .next t ∧ s0.completedTo t .noError 0 0 (c.lines * 72) e.written ∧ t.mem = s.mem)) ∧
    (∀ d : Ditherer, c = .dith → s.run = .dithering d →
      (∀ g, d.x < 576 → d.y < 720 → s.mem.lookup (s.latch.src.toNat + (d.y * 576 + d.x)) = some g →
        step s = .next { s0 with run := .dithering (ditherPixel Config.divRound 576 720 g d) }) ∧
      (720 ≤ d.y →
        ∃ t, step s = .next t ∧ s0.completedTo t .noError 0 0 414720 51840 ∧
          s.mem.wrote t.mem s.latch.dst.toNat (packBitmap 576 720 d.bits)))

/-- R17, R72, R230: a host operation, by host offset or by system address, or a power-on reset at the head of the script
is the next thing that happens, and the rest of the script follows it in order (log 1). -/
def Obligations.HostStepsHappenInOrder : Prop :=
  ∀ (s : State) (rest : List Event),
    (∀ o a, s.script = .host o a :: rest → step s = hostAccess o a { s with script := rest }) ∧
    (∀ addr a, s.script = .system addr a :: rest → step s = systemAccess addr a { s with script := rest }) ∧
    (s.script = .powerOn :: rest → step s = .next { s with script := rest }.powerOnReset) ∧
    (∀ e t, (∃ o a, e = Event.host o a) ∨ (∃ addr a, e = Event.system addr a) ∨ e = Event.powerOn →
      s.script = e :: rest → step s = .next t → t.script = rest)

/-- R115, R38, R39, R43: the internal steps of the engine are not observable, and they end (log 2). From an accepted
command, after any number of them, either the command has completed, in exactly the state the one completion step gives,
or the completion step from there still gives that state; and after some number of them the command has completed so, or
has stopped on the byte the completion step stops on (log 3, log 15). -/
def Obligations.InternalStepsAgreeWithTheCompletionStep : Prop :=
  ∀ s : State, s.phase = .busy → s.run = .fresh → s.mem.wf →
    (∀ k t, advanceTimes k s = .next t →
      (t.phase = .idle → completionStep s = .next t) ∧
      (t.phase = .busy → completionStep t = completionStep s)) ∧
    (∀ u, completionStep s = .next u → ∃ k, advanceTimes k s = .next u) ∧
    (∀ f, completionStep s = .fault f → ∃ k, advanceTimes k s = .fault f)

/-- The invariant of Safety.lean holds after reset (R45). -/
def Obligations.ResetMeetsTheInvariant : Prop := State.reset.Inv

/-- R20, R41, R113, R203, R208, R214: every step keeps the invariant: memory stays canonical, a transient exists only
while busy and within the bounds of its command, a command runs only while DONE and ERRCODE are 0, ENC_INVARIANT is never
reported, a failed command has zero counts, and only run-time errors have a position. -/
def Obligations.EveryStepKeepsTheInvariant : Prop :=
  ∀ s t : State, s.Inv → step s = .next t → t.Inv

/-- R66, R102: no engine or host access falls outside BUF: from a state with the invariant, a step never stops for that
reason. The stop outsideBuffer, which this rules out, is the model's own (log 20), and so is the refusal of a group with no
decode in progress, which no step gives either (log 13). -/
def Obligations.NoAccessFallsOutsideTheBuffer : Prop :=
  ∀ (s : State), s.Inv → (∀ a, step s ≠ .fault (.outsideBuffer a)) ∧ (∀ r, step s ≠ .refused r)

/-- R211, R115: the engine never sets or clears LOST, BUSERR, IE or an operand register and never changes the latch: its
completion step, the one step R115 gives it, does not, and an internal step, which is the model's own (log 2), does not
either. -/
def Obligations.EngineLeavesHostFlagsAlone : Prop :=
  ∀ s t : State, completionStep s = .next t ∨ advanceStep s = .next t →
    t.regs.lost = s.regs.lost ∧ t.regs.busErr = s.regs.busErr ∧ t.regs.ie = s.regs.ie ∧
    t.regs.srcAddr = s.regs.srcAddr ∧ t.regs.srcLen = s.regs.srcLen ∧ t.regs.dstAddr = s.regs.dstAddr ∧
    t.regs.dstLen = s.regs.dstLen ∧ t.regs.gridW = s.regs.gridW ∧ t.regs.gridH = s.regs.gridH ∧
    t.latch = s.latch ∧ t.rdata = s.rdata ∧ t.script = s.script

/-- R242, R115: while a command runs, a host that only reads is answered at every read and, when its reads are over, the
command completes (or the machine stops on an unwritten byte of its source, log 3): a poll loop ends. -/
def Obligations.PollingEndsWithTheCompletion : Prop :=
  ∀ s : State, s.phase = .busy → (∀ e ∈ s.script, ∃ o w, e = Event.host o (.read w)) →
    (∃ t, Host.Core.run core s.script.length s = .next t ∧ t.phase = .busy ∧ t.script = []) ∧
    ((∃ t, Host.Core.run core (s.script.length + 1) s = .next t ∧ t.phase = .idle ∧ t.regs.done = true) ∨
     (∃ f, completionStep s = .fault f))
end

