-- ==== Sys2Proof/Laws/State.lean ====
section
/-! SUPPORT. One lemma per field of the state for each of its updates, so that no later proof unfolds a record update. -/

namespace Sys2Proof.Machine

/-! The completion step (R115). -/

@[simp] theorem State.complete_ie (s : State) (e : ErrCode) (pos line n p : Nat) (m : Memory) :
    (s.complete e pos line n p m).regs.ie = s.regs.ie := rfl

@[simp] theorem State.complete_done (s : State) (e : ErrCode) (pos line n p : Nat) (m : Memory) :
    (s.complete e pos line n p m).regs.done = true := rfl

@[simp] theorem State.complete_lost (s : State) (e : ErrCode) (pos line n p : Nat) (m : Memory) :
    (s.complete e pos line n p m).regs.lost = s.regs.lost := rfl

@[simp] theorem State.complete_busErr (s : State) (e : ErrCode) (pos line n p : Nat) (m : Memory) :
    (s.complete e pos line n p m).regs.busErr = s.regs.busErr := rfl

@[simp] theorem State.complete_errCode (s : State) (e : ErrCode) (pos line n p : Nat) (m : Memory) :
    (s.complete e pos line n p m).regs.errCode = e := rfl

@[simp] theorem State.complete_srcAddr (s : State) (e : ErrCode) (pos line n p : Nat) (m : Memory) :
    (s.complete e pos line n p m).regs.srcAddr = s.regs.srcAddr := rfl

@[simp] theorem State.complete_srcLen (s : State) (e : ErrCode) (pos line n p : Nat) (m : Memory) :
    (s.complete e pos line n p m).regs.srcLen = s.regs.srcLen := rfl

@[simp] theorem State.complete_dstAddr (s : State) (e : ErrCode) (pos line n p : Nat) (m : Memory) :
    (s.complete e pos line n p m).regs.dstAddr = s.regs.dstAddr := rfl

@[simp] theorem State.complete_dstLen (s : State) (e : ErrCode) (pos line n p : Nat) (m : Memory) :
    (s.complete e pos line n p m).regs.dstLen = s.regs.dstLen := rfl

@[simp] theorem State.complete_gridW (s : State) (e : ErrCode) (pos line n p : Nat) (m : Memory) :
    (s.complete e pos line n p m).regs.gridW = s.regs.gridW := rfl

@[simp] theorem State.complete_gridH (s : State) (e : ErrCode) (pos line n p : Nat) (m : Memory) :
    (s.complete e pos line n p m).regs.gridH = s.regs.gridH := rfl

@[simp] theorem State.complete_consumed (s : State) (e : ErrCode) (pos line n p : Nat) (m : Memory) :
    (s.complete e pos line n p m).regs.consumed = BitVec.ofNat 21 n := rfl

@[simp] theorem State.complete_produced (s : State) (e : ErrCode) (pos line n p : Nat) (m : Memory) :
    (s.complete e pos line n p m).regs.produced = BitVec.ofNat 21 p := rfl

@[simp] theorem State.complete_errPos (s : State) (e : ErrCode) (pos line n p : Nat) (m : Memory) :
    (s.complete e pos line n p m).regs.errPos = BitVec.ofNat 21 pos := rfl

@[simp] theorem State.complete_errLine (s : State) (e : ErrCode) (pos line n p : Nat) (m : Memory) :
    (s.complete e pos line n p m).regs.errLine = BitVec.ofNat 16 line := rfl

@[simp] theorem State.complete_latch (s : State) (e : ErrCode) (pos line n p : Nat) (m : Memory) :
    (s.complete e pos line n p m).latch = s.latch := rfl

@[simp] theorem State.complete_phase (s : State) (e : ErrCode) (pos line n p : Nat) (m : Memory) :
    (s.complete e pos line n p m).phase = .idle := rfl

@[simp] theorem State.complete_run (s : State) (e : ErrCode) (pos line n p : Nat) (m : Memory) :
    (s.complete e pos line n p m).run = .fresh := rfl

@[simp] theorem State.complete_mem (s : State) (e : ErrCode) (pos line n p : Nat) (m : Memory) :
    (s.complete e pos line n p m).mem = m := rfl

@[simp] theorem State.complete_rdata (s : State) (e : ErrCode) (pos line n p : Nat) (m : Memory) :
    (s.complete e pos line n p m).rdata = s.rdata := rfl

@[simp] theorem State.complete_script (s : State) (e : ErrCode) (pos line n p : Nat) (m : Memory) :
    (s.complete e pos line n p m).script = s.script := rfl

/-! The three ways to complete, as `complete`. -/

@[simp] theorem State.preFail_eq (s : State) (e : ErrCode) :
    s.preFail e = s.complete e 0 0 0 0 s.mem := rfl

@[simp] theorem State.succeed_eq (s : State) (n p : Nat) (m : Memory) :
    s.succeed n p m = s.complete .noError 0 0 n p m := rfl

@[simp] theorem State.runFail_eq (s : State) (region : Nat × Nat) (e : ErrCode) (pos line : Nat) :
    s.runFail region e pos line = s.complete e pos line 0 0 (s.mem.forget region.1 region.2) := rfl

/-! Acceptance of a command word (R113). -/

@[simp] theorem State.accept_ie (s : State) (v : Word) :
    (s.accept v).regs.ie = s.regs.ie := rfl

@[simp] theorem State.accept_done (s : State) (v : Word) :
    (s.accept v).regs.done = false := rfl

@[simp] theorem State.accept_lost (s : State) (v : Word) :
    (s.accept v).regs.lost = s.regs.lost := rfl

@[simp] theorem State.accept_busErr (s : State) (v : Word) :
    (s.accept v).regs.busErr = s.regs.busErr := rfl

@[simp] theorem State.accept_errCode (s : State) (v : Word) :
    (s.accept v).regs.errCode = .noError := rfl

@[simp] theorem State.accept_srcAddr (s : State) (v : Word) :
    (s.accept v).regs.srcAddr = s.regs.srcAddr := rfl

@[simp] theorem State.accept_srcLen (s : State) (v : Word) :
    (s.accept v).regs.srcLen = s.regs.srcLen := rfl

@[simp] theorem State.accept_dstAddr (s : State) (v : Word) :
    (s.accept v).regs.dstAddr = s.regs.dstAddr := rfl

@[simp] theorem State.accept_dstLen (s : State) (v : Word) :
    (s.accept v).regs.dstLen = s.regs.dstLen := rfl

@[simp] theorem State.accept_gridW (s : State) (v : Word) :
    (s.accept v).regs.gridW = s.regs.gridW := rfl

@[simp] theorem State.accept_gridH (s : State) (v : Word) :
    (s.accept v).regs.gridH = s.regs.gridH := rfl

@[simp] theorem State.accept_consumed (s : State) (v : Word) :
    (s.accept v).regs.consumed = s.regs.consumed := rfl

@[simp] theorem State.accept_produced (s : State) (v : Word) :
    (s.accept v).regs.produced = s.regs.produced := rfl

@[simp] theorem State.accept_errPos (s : State) (v : Word) :
    (s.accept v).regs.errPos = s.regs.errPos := rfl

@[simp] theorem State.accept_errLine (s : State) (v : Word) :
    (s.accept v).regs.errLine = s.regs.errLine := rfl

@[simp] theorem State.accept_latch (s : State) (v : Word) :
    (s.accept v).latch = s.capture v := rfl

@[simp] theorem State.accept_phase (s : State) (v : Word) :
    (s.accept v).phase = .busy := rfl

@[simp] theorem State.accept_run (s : State) (v : Word) :
    (s.accept v).run = .fresh := rfl

@[simp] theorem State.accept_mem (s : State) (v : Word) :
    (s.accept v).mem = s.mem := rfl

@[simp] theorem State.accept_rdata (s : State) (v : Word) :
    (s.accept v).rdata = s.rdata := rfl

@[simp] theorem State.accept_script (s : State) (v : Word) :
    (s.accept v).script = s.script := rfl

/-! The resets (R231, R232). -/

@[simp] theorem State.powerOnReset_regs (s : State) :
    s.powerOnReset.regs = .reset := rfl

@[simp] theorem State.powerOnReset_latch (s : State) :
    s.powerOnReset.latch = .reset := rfl

@[simp] theorem State.powerOnReset_phase (s : State) :
    s.powerOnReset.phase = .idle := rfl

@[simp] theorem State.powerOnReset_run (s : State) :
    s.powerOnReset.run = .fresh := rfl

@[simp] theorem State.powerOnReset_mem (s : State) :
    s.powerOnReset.mem = [] := rfl

@[simp] theorem State.powerOnReset_rdata (s : State) :
    s.powerOnReset.rdata = s.rdata := rfl

@[simp] theorem State.powerOnReset_script (s : State) :
    s.powerOnReset.script = s.script := rfl

@[simp] theorem State.softReset_regs (s : State) :
    s.softReset.regs = .reset := rfl

@[simp] theorem State.softReset_latch (s : State) :
    s.softReset.latch = .reset := rfl

@[simp] theorem State.softReset_phase (s : State) :
    s.softReset.phase = .idle := rfl

@[simp] theorem State.softReset_run (s : State) :
    s.softReset.run = .fresh := rfl

@[simp] theorem State.softReset_rdata (s : State) :
    s.softReset.rdata = s.rdata := rfl

@[simp] theorem State.softReset_script (s : State) :
    s.softReset.script = s.script := rfl

/-! A write to STATUS (R24). -/

@[simp] theorem Regs.writeStatus_ie (r : Regs) (v : Word) :
    (r.writeStatus v).ie = r.ie := rfl

@[simp] theorem Regs.writeStatus_done (r : Regs) (v : Word) :
    (r.writeStatus v).done = writeOneClears r.done (v.getLsbD 1) := rfl

@[simp] theorem Regs.writeStatus_lost (r : Regs) (v : Word) :
    (r.writeStatus v).lost = writeOneClears r.lost (v.getLsbD 3) := rfl

@[simp] theorem Regs.writeStatus_busErr (r : Regs) (v : Word) :
    (r.writeStatus v).busErr = writeOneClears r.busErr (v.getLsbD 4) := rfl

@[simp] theorem Regs.writeStatus_errCode (r : Regs) (v : Word) :
    (r.writeStatus v).errCode = r.errCode := rfl

@[simp] theorem Regs.writeStatus_srcAddr (r : Regs) (v : Word) :
    (r.writeStatus v).srcAddr = r.srcAddr := rfl

@[simp] theorem Regs.writeStatus_srcLen (r : Regs) (v : Word) :
    (r.writeStatus v).srcLen = r.srcLen := rfl

@[simp] theorem Regs.writeStatus_dstAddr (r : Regs) (v : Word) :
    (r.writeStatus v).dstAddr = r.dstAddr := rfl

@[simp] theorem Regs.writeStatus_dstLen (r : Regs) (v : Word) :
    (r.writeStatus v).dstLen = r.dstLen := rfl

@[simp] theorem Regs.writeStatus_gridW (r : Regs) (v : Word) :
    (r.writeStatus v).gridW = r.gridW := rfl

@[simp] theorem Regs.writeStatus_gridH (r : Regs) (v : Word) :
    (r.writeStatus v).gridH = r.gridH := rfl

@[simp] theorem Regs.writeStatus_consumed (r : Regs) (v : Word) :
    (r.writeStatus v).consumed = r.consumed := rfl

@[simp] theorem Regs.writeStatus_produced (r : Regs) (v : Word) :
    (r.writeStatus v).produced = r.produced := rfl

@[simp] theorem Regs.writeStatus_errPos (r : Regs) (v : Word) :
    (r.writeStatus v).errPos = r.errPos := rfl

@[simp] theorem Regs.writeStatus_errLine (r : Regs) (v : Word) :
    (r.writeStatus v).errLine = r.errLine := rfl

/-! A refused access (R62, R64, R65). -/

theorem State.refuseAccess_read (s : State) (w : Width) :
    s.refuseAccess (.read w) = { s with regs := { s.regs with busErr := true }, rdata := 0 } := rfl

theorem State.refuseAccess_write (s : State) (w : Width) (v : Word) :
    s.refuseAccess (.write w v) = { s with regs := { s.regs with busErr := true } } := rfl

/-! A CMD write (R113, R114), by phase. -/

theorem State.issue_idle {s : State} (h : s.phase = .idle) (v : Word) : s.issue v = s.accept v := by
  simp [State.issue, h]

theorem State.issue_busy {s : State} (h : s.phase = .busy) (v : Word) :
    s.issue v = { s with regs := { s.regs with lost := true } } := by
  simp [State.issue, h]

/-! Memory after a soft reset (R232), by phase. -/

theorem State.softReset_mem_idle {s : State} (h : s.phase = .idle) : s.softReset.mem = s.mem := by
  simp [State.softReset, h]

theorem State.softReset_mem_busy {s : State} (h : s.phase = .busy) :
    s.softReset.mem = s.mem.forget s.latch.destination.1 s.latch.destination.2 := by
  simp [State.softReset, h]

end Sys2Proof.Machine
end

