-- ==== Sys2Proof/Laws/Memory.lean ====
section
/-! SUPPORT. What the memory operations do: reading after a write and after forgetting, the canonical form, and the
window of a region. -/

namespace Sys2Proof.Machine

/-! Lookups in parts of a list. -/

theorem lookup_cons_if (k a : Nat) (b : Byte) (m : Memory) :
    List.lookup k ((a, b) :: m) = if k = a then some b else List.lookup k m := by
  by_cases h : k = a
  · simp [h]
  · have : (k == a) = false := by simpa using h
    simp [List.lookup_cons, this, h]

theorem lookup_append (l l' : Memory) (k : Nat) :
    List.lookup k (l ++ l') = (List.lookup k l).or (List.lookup k l') := by
  induction l with
  | nil => simp
  | cons c l ih =>
    obtain ⟨a, b⟩ := c
    by_cases h : k = a <;> simp [lookup_cons_if, h, ih]

theorem lookup_filter (m : Memory) (p : Nat → Bool) (k : Nat) :
    List.lookup k (m.filter (fun c => p c.1)) = if p k then List.lookup k m else none := by
  induction m with
  | nil => simp
  | cons c m ih =>
    obtain ⟨a, b⟩ := c
    by_cases hp : p a <;> by_cases h : k = a
    · subst h; simp [hp]
    · simp [hp, lookup_cons_if, h, ih]
    · subst h; simp [hp, ih]
    · simp [hp, lookup_cons_if, h, ih]

theorem lookup_zipIdx (bytes : List Byte) (a k : Nat) :
    List.lookup k ((bytes.zipIdx a).map (fun p => (p.2, p.1))) = if a ≤ k then bytes[k - a]? else none := by
  induction bytes generalizing a with
  | nil => simp
  | cons b bytes ih =>
    by_cases h : k = a
    · subst h; simp
    · have h1 : (k == a) = false := by simpa using h
      simp only [List.zipIdx_cons, List.map_cons, List.lookup_cons, h1, ih]
      by_cases h2 : a ≤ k
      · have h3 : k - a = (k - (a + 1)) + 1 := by omega
        have h4 : a + 1 ≤ k := by omega
        simp [h2, h3, h4]
      · have h4 : ¬ a + 1 ≤ k := by omega
        simp [h2, h4]

/-- Reading after a write: the written byte inside, what was there before outside (R66). -/
theorem Memory.lookup_write (m : Memory) (a k : Nat) (bytes : List Byte) :
    (m.write a bytes).lookup k =
      if a ≤ k ∧ k < a + bytes.length then bytes[k - a]? else m.lookup k := by
  have h1 := lookup_filter m (fun c => decide (c < a)) k
  have h2 := lookup_filter m (fun c => decide (a + bytes.length ≤ c)) k
  simp only [Memory.lookup, Memory.write, lookup_append, lookup_zipIdx, h1, h2]
  by_cases ha : k < a
  · have : ¬ a ≤ k := by omega
    have : ¬ a + bytes.length ≤ k := by omega
    simp [*]
  · by_cases hb : a + bytes.length ≤ k
    · have : bytes[k - a]? = none := by simp; omega
      have : a ≤ k := by omega
      have : ¬ k < a + bytes.length := by omega
      simp [*]
    · have h3 : k - a < bytes.length := by omega
      have h4 : a ≤ k := by omega
      have h5 : k < a + bytes.length := by omega
      simp [ha, hb, h3, h4, h5]

/-- Reading after forgetting a region: no value inside, what was there before outside (U3). -/
theorem Memory.lookup_forget (m : Memory) (a n k : Nat) :
    (m.forget a n).lookup k = if a ≤ k ∧ k < a + n then none else m.lookup k := by
  have h := lookup_filter m (fun c => decide (c < a ∨ a + n ≤ c)) k
  simp only [Memory.lookup, Memory.forget, h]
  by_cases ha : a ≤ k ∧ k < a + n
  · have : ¬ (k < a ∨ a + n ≤ k) := by omega
    simp [*]
  · have : k < a ∨ a + n ≤ k := by omega
    simp [*]

theorem Memory.wrote_write (m : Memory) (a : Nat) (bytes : List Byte) : m.wrote (m.write a bytes) a bytes := by
  constructor
  · intro i hi
    rw [Memory.lookup_write]
    have : a ≤ a + i ∧ a + i < a + bytes.length := by omega
    simp [this, hi]
  · intro k hk
    rw [Memory.lookup_write, if_neg (by omega)]

theorem Memory.forgot_forget (m : Memory) (a n : Nat) : m.forgot (m.forget a n) a n := by
  constructor
  · intro k h1 h2
    rw [Memory.lookup_forget, if_pos ⟨h1, h2⟩]
  · intro k hk
    rw [Memory.lookup_forget, if_neg (by omega)]

/-! The canonical form. -/

theorem zipIdx_addresses (bytes : List Byte) (a : Nat) :
    ∀ c ∈ (bytes.zipIdx a).map (fun p => (p.2, p.1)), a ≤ c.1 ∧ c.1 < a + bytes.length := by
  intro c hc
  obtain ⟨⟨b, i⟩, hp, rfl⟩ := List.mem_map.1 hc
  have := List.mem_zipIdx hp
  simp only
  omega

theorem zipIdx_rising (bytes : List Byte) (a : Nat) :
    ((bytes.zipIdx a).map (fun p => (p.2, p.1))).Pairwise (fun c d : Host.Cell => c.1 < d.1) := by
  induction bytes generalizing a with
  | nil => simp
  | cons b bytes ih =>
    simp only [List.zipIdx_cons, List.map_cons, List.pairwise_cons]
    refine ⟨fun c hc => ?_, ih (a + 1)⟩
    have := zipIdx_addresses bytes (a + 1) c hc
    exact this.1

/-- A write inside BUF keeps the canonical form. -/
theorem Memory.wf_write {m : Memory} (h : m.wf) {a : Nat} {bytes : List Byte}
    (hb : a + bytes.length ≤ Config.bufBytes) : (m.write a bytes).wf := by
  obtain ⟨hr, hlt⟩ := h
  constructor
  · rw [Memory.write, List.append_assoc, List.pairwise_append, List.pairwise_append]
    refine ⟨hr.filter _, ⟨zipIdx_rising bytes a, hr.filter _, fun c hc d hd => ?_⟩, fun c hc d hd => ?_⟩
    · have h1 := zipIdx_addresses bytes a c hc
      have h2 := (List.mem_filter.1 hd).2
      simp only [decide_eq_true_eq] at h2
      omega
    · have h1 := (List.mem_filter.1 hc).2
      simp only [decide_eq_true_eq] at h1
      rcases List.mem_append.1 hd with hd | hd
      · have h2 := zipIdx_addresses bytes a d hd
        omega
      · have h2 := (List.mem_filter.1 hd).2
        simp only [decide_eq_true_eq] at h2
        omega
  · intro c hc
    rw [Memory.write, List.mem_append, List.mem_append] at hc
    rcases hc with (hc | hc) | hc
    · exact hlt c (List.mem_filter.1 hc).1
    · have := zipIdx_addresses bytes a c hc
      omega
    · exact hlt c (List.mem_filter.1 hc).1

/-- Forgetting a region keeps the canonical form. -/
theorem Memory.wf_forget {m : Memory} (h : m.wf) (a n : Nat) : (m.forget a n).wf :=
  ⟨h.1.filter _, fun c hc => h.2 c (List.mem_filter.1 hc).1⟩

theorem Memory.wf_nil : Memory.wf [] := ⟨List.Pairwise.nil, by simp⟩

/-- Everything a store can answer: the written memory where the bytes lie inside BUF, else the fault that says so. -/
theorem Memory.store_eq_ok {m m' : Memory} {a : Nat} {bytes : List Byte} :
    m.store a bytes = .ok m' ↔ a + bytes.length ≤ Config.bufBytes ∧ m' = m.write a bytes := by
  unfold Memory.store
  by_cases h : a + bytes.length ≤ Config.bufBytes <;> simp [h, eq_comm]

theorem Memory.store_inside (m : Memory) {a : Nat} {bytes : List Byte}
    (h : a + bytes.length ≤ Config.bufBytes) : m.store a bytes = .ok (m.write a bytes) := by
  simp [Memory.store, h]

theorem Memory.wf_store {m m' : Memory} {a : Nat} {bytes : List Byte} (h : m.wf)
    (hs : m.store a bytes = .ok m') : m'.wf := by
  obtain ⟨hb, rfl⟩ := Memory.store_eq_ok.1 hs
  exact Memory.wf_write h hb

/-! Successive writes. -/

theorem filter_zipIdx_lt (bytes : List Byte) (a b : Nat) (h : a + bytes.length ≤ b) :
    ((bytes.zipIdx a).map (fun p => (p.2, p.1))).filter (fun c : Host.Cell => decide (c.1 < b)) =
      (bytes.zipIdx a).map (fun p => (p.2, p.1)) := by
  rw [List.filter_eq_self]
  intro c hc
  have := zipIdx_addresses bytes a c hc
  simp only [decide_eq_true_eq]
  omega

theorem filter_zipIdx_ge (bytes : List Byte) (a b : Nat) (h : a + bytes.length ≤ b) :
    ((bytes.zipIdx a).map (fun p => (p.2, p.1))).filter (fun c : Host.Cell => decide (b ≤ c.1)) = [] := by
  rw [List.filter_eq_nil_iff]
  intro c hc
  have := zipIdx_addresses bytes a c hc
  simp only [decide_eq_true_eq]
  omega

theorem filter_filter_of_imp {α : Type} (l : List α) (p q : α → Bool) (h : ∀ x, p x = true → q x = true) :
    (l.filter q).filter p = l.filter p := by
  rw [List.filter_filter]
  congr 1
  funext x
  cases hp : p x
  · simp
  · simp [h x hp]

theorem filter_filter_of_not {α : Type} (l : List α) (p q : α → Bool) (h : ∀ x, p x = true → q x = false) :
    (l.filter q).filter p = [] := by
  rw [List.filter_filter, List.filter_eq_nil_iff]
  intro x _
  cases hp : p x
  · simp
  · simp [h x hp]

/-- Two writes end to end are one. -/
theorem Memory.write_write_append (m : Memory) (a : Nat) (xs ys : List Byte) :
    (m.write a xs).write (a + xs.length) ys = m.write a (xs ++ ys) := by
  have e1 : (m.filter fun c => decide (c.1 < a)).filter (fun c => decide (c.1 < a + xs.length)) =
      m.filter fun c => decide (c.1 < a) :=
    List.filter_eq_self.2 (fun c hc => by
      have := (List.mem_filter.1 hc).2
      simp only [decide_eq_true_eq] at *
      omega)
  have e2 := filter_zipIdx_lt xs a (a + xs.length) (Nat.le_refl _)
  have e3 : (m.filter fun c => decide (a + xs.length ≤ c.1)).filter (fun c => decide (c.1 < a + xs.length)) = [] :=
    filter_filter_of_not _ _ _ (fun c h => by simp at *; omega)
  have e4 : (m.filter fun c => decide (c.1 < a)).filter (fun c => decide (a + xs.length + ys.length ≤ c.1)) = [] :=
    filter_filter_of_not _ _ _ (fun c h => by simp at *; omega)
  have e5 := filter_zipIdx_ge xs a (a + xs.length + ys.length) (by omega)
  have e6 : (m.filter fun c => decide (a + xs.length ≤ c.1)).filter
      (fun c => decide (a + xs.length + ys.length ≤ c.1)) =
      m.filter fun c => decide (a + xs.length + ys.length ≤ c.1) :=
    filter_filter_of_imp _ _ _ (fun c h => by simp at *; omega)
  unfold Memory.write
  simp only [List.filter_append, e1, e2, e3, e4, e5, e6, List.nil_append, List.append_nil, List.zipIdx_append,
    List.map_append, List.append_assoc]
  rw [List.length_append, ← Nat.add_assoc]

/-- A write over the beginning of a region is overwritten by a write of the whole. -/
theorem Memory.write_write_over (m : Memory) (a : Nat) (xs ys : List Byte) (h : xs.length ≤ ys.length) :
    (m.write a xs).write a ys = m.write a ys := by
  have e1 : (m.filter fun c => decide (c.1 < a)).filter (fun c => decide (c.1 < a)) =
      m.filter fun c => decide (c.1 < a) := filter_filter_of_imp _ _ _ (fun _ h => h)
  have e2 : ((xs.zipIdx a).map (fun p => (p.2, p.1))).filter (fun c : Host.Cell => decide (c.1 < a)) = [] := by
    rw [List.filter_eq_nil_iff]
    intro c hc
    have := zipIdx_addresses xs a c hc
    simp only [decide_eq_true_eq]
    omega
  have e3 : (m.filter fun c => decide (a + xs.length ≤ c.1)).filter (fun c => decide (c.1 < a)) = [] :=
    filter_filter_of_not _ _ _ (fun c h => by simp at *; omega)
  have e4 : (m.filter fun c => decide (c.1 < a)).filter (fun c => decide (a + ys.length ≤ c.1)) = [] :=
    filter_filter_of_not _ _ _ (fun c h => by simp at *; omega)
  have e5 := filter_zipIdx_ge xs a (a + ys.length) (by omega)
  have e6 : (m.filter fun c => decide (a + xs.length ≤ c.1)).filter (fun c => decide (a + ys.length ≤ c.1)) =
      m.filter fun c => decide (a + ys.length ≤ c.1) :=
    filter_filter_of_imp _ _ _ (fun c h => by simp at *; omega)
  unfold Memory.write
  simp only [List.filter_append, e1, e2, e3, e4, e5, e6, List.nil_append, List.append_nil]

/-! The window of a region. -/

theorem Memory.size_window (m : Memory) (a n : Nat) : (m.window a n).size = n := by
  unfold Memory.window
  induction m with
  | nil => simp
  | cons c m ih =>
    simp only [List.foldr_cons]
    split
    · simpa using ih
    · exact ih

theorem Memory.getElem_window (m : Memory) (a n k : Nat) (h : k < (m.window a n).size) :
    (m.window a n)[k] = m.lookup (a + k) := by
  have hk : k < n := by rw [Memory.size_window] at h; exact h
  unfold Memory.window Memory.lookup at *
  induction m with
  | nil => simp
  | cons c m ih =>
    obtain ⟨b, v⟩ := c
    have hs : k < (List.foldr (fun (c : Host.Cell) w =>
        if a ≤ c.1 then w.setIfInBounds (c.1 - a) (some c.2) else w) (Array.replicate n none) m).size := by
      have hw := Memory.size_window m a n
      exact Nat.lt_of_lt_of_eq hk hw.symm
    have ih' := ih hs
    simp only [List.foldr_cons, List.lookup_cons]
    by_cases h1 : a + k = b
    · subst h1
      simp
    · have h2 : (a + k == b) = false := by simpa using h1
      simp only [h2]
      by_cases h3 : a ≤ b
      · have h4 : b - a ≠ k := by omega
        simp only [h3, if_true]
        rw [Array.getElem_setIfInBounds hs, if_neg h4]
        exact ih'
      · simp only [h3, if_false]
        exact ih'

/-- A byte read through its window is the byte in memory: `MemRead8(a + k)` (R66). -/
@[simp] theorem Memory.through_window (m : Memory) (a n k : Nat) :
    m.through (m.window a n) a k = m.readByte (a + k) := by
  unfold Memory.through Memory.readByte
  split
  · rw [Memory.getElem_window]
  · rfl

end Sys2Proof.Machine
end

