-- ==== Sys2Proof/Laws/Codec.lean ====
section
/-! SUPPORT. The run-length codec: how much each run takes, what a group stands for, and how long outputs are. -/

namespace Sys2Proof.Machine

/-! Reading bytes. -/

theorem readBytes_length {rd : Nat → Except Fault Byte} {k n : Nat} {bs : List Byte}
    (h : readBytes rd k n = .ok bs) : bs.length = n := by
  induction n generalizing k bs with
  | zero => simp_all [readBytes]
  | succ n ih =>
    unfold readBytes at h
    split at h
    · exact absurd h (by simp)
    · split at h
      · exact absurd h (by simp)
      · next hrest =>
        cases h
        simp [ih hrest]

/-- Reading succeeds with exactly the bytes that are there. -/
theorem readBytes_eq_ok {rd : Nat → Except Fault Byte} {k : Nat} {bs : List Byte}
    (h : ∀ i (hi : i < bs.length), rd (k + i) = .ok bs[i]) : readBytes rd k bs.length = .ok bs := by
  induction bs generalizing k with
  | nil => rfl
  | cons b bs ih =>
    have h0 : rd k = .ok b := h 0 (by simp)
    have hr : readBytes rd (k + 1) bs.length = .ok bs := by
      refine ih (fun i hi => ?_)
      have h1 := h (i + 1) (by simpa using hi)
      rwa [show k + (i + 1) = k + 1 + i by omega] at h1
    simp [readBytes, h0, hr]

/-- A byte that holds a value inside BUF is read as that value (R66). -/
theorem Memory.readByte_eq_ok {m : Memory} {a : Nat} {b : Byte} (ha : a < Config.bufBytes)
    (h : m.lookup a = some b) : m.readByte a = .ok b := by
  simp [Memory.readByte, readValue, ha, h]

/-- The bytes of a held list are read back (R66). -/
theorem Memory.readBytes_of_holds {m : Memory} {a : Nat} {bs : List Byte} (h : m.holds a bs)
    (ha : a + bs.length ≤ Config.bufBytes) : readBytes m.readByte a bs.length = .ok bs :=
  readBytes_eq_ok (fun i hi => Memory.readByte_eq_ok (by omega) (h i hi))

theorem leBytes_length (v : Word) (n : Nat) : (leBytes v n).length = n := by
  induction n generalizing v with
  | zero => rfl
  | succ n ih => simp [leBytes, ih]

/-! Runs (R132). -/

theorem sameCount_le (v : Byte) (s : List Byte) (cap : Nat) :
    sameCount v s cap ≤ cap ∧ sameCount v s cap ≤ s.length := by
  induction s generalizing cap with
  | nil => simp [sameCount]
  | cons b bs ih =>
    cases cap with
    | zero => simp [sameCount]
    | succ cap =>
      have := ih cap
      simp only [sameCount, List.length_cons]
      split <;> omega

/-- The bytes counted are all equal to the run's value. -/
theorem sameCount_take (v : Byte) (s : List Byte) (cap : Nat) :
    s.take (sameCount v s cap) = List.replicate (sameCount v s cap) v := by
  induction s generalizing cap with
  | nil => simp [sameCount]
  | cons b bs ih =>
    cases cap with
    | zero => simp [sameCount]
    | succ cap =>
      simp only [sameCount]
      split
      · next hb => simp [List.replicate_succ, ih, hb]
      · simp

theorem literalCount_le (s : List Byte) (cap : Nat) :
    literalCount s cap ≤ cap ∧ literalCount s cap ≤ s.length := by
  induction s generalizing cap with
  | nil => simp [literalCount]
  | cons b bs ih =>
    cases cap with
    | zero => simp [literalCount]
    | succ cap =>
      cases bs with
      | nil => simp [literalCount]
      | cons b' bs =>
        have := ih cap
        simp only [literalCount, List.length_cons] at *
        split <;> omega

/-- The next group covers at least one byte and at most 128, all of them bytes that remain, and stands for exactly the
bytes it covers (R132). -/
theorem nextGroup_covers (b : Byte) (s : List Byte) :
    1 ≤ (nextGroup (b :: s)).2 ∧ (nextGroup (b :: s)).2 ≤ Config.maxRun ∧
    (nextGroup (b :: s)).2 ≤ (b :: s).length ∧
    (nextGroup (b :: s)).1.expand = (b :: s).take (nextGroup (b :: s)).2 := by
  cases s with
  | nil => simp [nextGroup, Group.expand]
  | cons b' s =>
    by_cases h : b = b'
    · subst h
      have hM : Config.maxRun = 128 := rfl
      have h1 := sameCount_le b s (Config.maxRun - 2)
      have h2 := sameCount_take b s (Config.maxRun - 2)
      simp only [nextGroup, if_true, Group.expand, List.length_cons, List.take_succ_cons, List.replicate_succ, h2]
      exact ⟨by omega, by omega, by omega, trivial⟩
    · have h1 := literalCount_le (b' :: s) (Config.maxRun - 1)
      simp only [nextGroup, h, if_false, Group.expand, List.length_cons] at *
      have hM : Config.maxRun = 128 := rfl
      exact ⟨by omega, by omega, by omega, trivial⟩

/-- The next group is encodable and is never a NOP (R132, R133). -/
theorem nextGroup_wellFormed (b : Byte) (s : List Byte) :
    (nextGroup (b :: s)).1.wellFormed = true ∧ (nextGroup (b :: s)).1 ≠ .nop := by
  cases s with
  | nil => simp [nextGroup, Group.wellFormed]
  | cons b' s =>
    by_cases h : b = b'
    · subst h
      have hM : Config.maxRun = 128 := rfl
      have h1 := sameCount_le b s (Config.maxRun - 2)
      simp only [nextGroup, if_true, Group.wellFormed, decide_eq_true_eq]
      exact ⟨⟨by omega, by omega⟩, by simp⟩
    · have h1 := literalCount_le (b' :: s) (Config.maxRun - 1)
      simp only [nextGroup, h, if_false, Group.wellFormed, decide_eq_true_eq, List.length_take, List.length_cons] at *
      have hM : Config.maxRun = 128 := rfl
      exact ⟨⟨by omega, by omega⟩, by simp⟩

/-- The groups of `s`, in order, stand for `s` (R132). -/
theorem encodeFrom_expand (fuel k : Nat) (s : List Byte) (h : s.length ≤ fuel) :
    (encodeFrom fuel k s).flatMap (fun p => p.2.expand) = s := by
  induction fuel generalizing k s with
  | zero => simp_all [encodeFrom]
  | succ fuel ih =>
    cases s with
    | nil => simp [encodeFrom]
    | cons b s =>
      obtain ⟨h1, -, h2, h3⟩ := nextGroup_covers b s
      have hd : ((b :: s).drop (nextGroup (b :: s)).2).length ≤ fuel := by
        simp only [List.length_drop, List.length_cons] at *
        omega
      simp only [encodeFrom, List.flatMap_cons, h3, ih _ _ hd]
      exact List.take_append_drop _ _

theorem encodeGroups_expand (s : List Byte) : (encodeGroups s).flatMap (fun p => p.2.expand) = s :=
  encodeFrom_expand _ _ _ (Nat.le_refl _)

/-- Every group of the encoder is encodable and none is a NOP (R133). -/
theorem encodeFrom_groups (fuel k : Nat) (s : List Byte) :
    ∀ p ∈ encodeFrom fuel k s, p.2.wellFormed = true ∧ p.2 ≠ .nop := by
  induction fuel generalizing k s with
  | zero => simp [encodeFrom]
  | succ fuel ih =>
    cases s with
    | nil => simp [encodeFrom]
    | cons b s =>
      intro p hp
      rcases List.mem_cons.1 hp with rfl | hp
      · exact nextGroup_wellFormed b s
      · exact ih _ _ p hp

/-! Emitting groups under a capacity (R130, R131). -/

/-- Groups that fit are written whole. -/
theorem emitGroups_ok {cap p : Nat} {gs : List (Nat × Group)}
    (h : p + (gs.flatMap (fun q => encodeGroup q.2)).length ≤ cap) :
    emitGroups cap p gs = .ok (gs.flatMap (fun q => encodeGroup q.2)) := by
  induction gs generalizing p with
  | nil => rfl
  | cons q gs ih =>
    obtain ⟨k, g⟩ := q
    simp only [List.flatMap_cons, List.length_append] at h
    have h1 : ¬ cap < p + (encodeGroup g).length := by omega
    rw [emitGroups, if_neg h1, ih (by omega)]
    simp

/-- The first group that does not fit is the one reported. -/
theorem emitGroups_overflow {cap p k : Nat} {pre post : List (Nat × Group)} {g : Group}
    (h1 : p + (pre.flatMap (fun q => encodeGroup q.2)).length ≤ cap)
    (h2 : cap < p + (pre.flatMap (fun q => encodeGroup q.2)).length + (encodeGroup g).length) :
    emitGroups cap p (pre ++ (k, g) :: post) = .error k := by
  induction pre generalizing p with
  | nil =>
    simp only [List.flatMap_nil, List.length_nil] at h2
    rw [List.nil_append, emitGroups, if_pos (by omega)]
  | cons q pre ih =>
    obtain ⟨j, g'⟩ := q
    simp only [List.flatMap_cons, List.length_append] at h1 h2
    rw [List.cons_append, emitGroups, if_neg (by omega), ih (by omega) (by omega)]

/-- What is emitted fits the capacity. -/
theorem emitGroups_le {cap p : Nat} {gs : List (Nat × Group)} {bs : List Byte} (hp : p ≤ cap)
    (h : emitGroups cap p gs = .ok bs) : p + bs.length ≤ cap := by
  induction gs generalizing p bs with
  | nil => simp_all [emitGroups]
  | cons q gs ih =>
    obtain ⟨k, g⟩ := q
    unfold emitGroups at h
    split at h
    · exact absurd h (by simp)
    · split at h
      · exact absurd h (by simp)
      · next h1 bs' h2 =>
        cases h
        have := ih (by omega) h2
        simp only [List.length_append]
        omega

/-- The output of ENCL and ENCF fits the capacity (R130, R131). -/
theorem encodeRows_le {rd : Nat → Except Fault Byte} {cap consumed rows y p n : Nat} {out : List Byte} (hp : p ≤ cap)
    (h : encodeRows rd cap consumed rows y p = .ok out n) : p + out.length ≤ cap ∧ n = consumed := by
  induction rows generalizing y p out n with
  | zero => simp_all [encodeRows]
  | succ rows ih =>
    unfold encodeRows at h
    split at h
    · exact absurd h (by simp)
    · split at h
      · exact absurd h (by simp)
      · next bs hbs =>
        have h1 := emitGroups_le hp hbs
        split at h
        · next out' n' hrest =>
          cases h
          have := ih (by omega) hrest
          simp only [List.length_append]
          omega
        · exact absurd h (by simp)
        · exact absurd h (by simp)

/-! Stream groups (R150 to R154). -/

/-- What one group can do to a running decode: the cursor moves on inside the stream, the output grows to at most `N`
bytes, and the scanline stays; or it fails at its control byte with one of the two format errors. -/
theorem groupStep_cases {rd : Nat → Except Fault Byte} {len : Nat} {c : Byte} {d : Decoder}
    (hcur : d.cur < len) (hout : d.out.length ≤ Config.N) :
    (∃ d', groupStep rd len c d = .ok d' ∧ d.cur < d'.cur ∧ d'.cur ≤ len ∧ d'.out.length ≤ Config.N ∧
      d'.line = d.line) ∨
    groupStep rd len c d = .err .fmtOverrun d.cur ∨ groupStep rd len c d = .err .fmtTruncated d.cur ∨
    ∃ f, groupStep rd len c d = .stop f := by
  unfold groupStep
  split
  · unfold litStep
    split
    · simp
    · split
      · simp
      · split
        · simp
        · next data hd =>
          have := readBytes_length hd
          refine Or.inl ⟨_, rfl, ?_, ?_, ?_, rfl⟩ <;> simp only [List.length_append] <;> omega
  · split
    · exact Or.inl ⟨_, rfl, by simp only; omega, by simp only; omega, hout, rfl⟩
    · unfold repStep
      split
      · simp
      · split
        · simp
        · split
          · simp
          · refine Or.inl ⟨_, rfl, ?_, ?_, ?_, rfl⟩ <;>
              simp only [List.length_append, List.length_replicate] <;> omega

/-- A decoded scanline has exactly `N` bytes and its cursor lies inside the stream (R155, R156). -/
theorem decodeLine_ok {rd : Nat → Except Fault Byte} {len fuel : Nat} {d d' : Decoder} (hcur : d.cur ≤ len)
    (hout : d.out.length ≤ Config.N) (h : decodeLine rd len fuel d = .ok d') :
    d'.out.length = Config.N ∧ d.cur ≤ d'.cur ∧ d'.cur ≤ len := by
  induction fuel generalizing d with
  | zero => simp [decodeLine] at h
  | succ fuel ih =>
    unfold decodeLine at h
    split at h
    · cases h; omega
    · split at h
      · simp at h
      · split at h
        · simp at h
        · next c hc =>
          rcases groupStep_cases (rd := rd) (len := len) (c := c) (d := d) (by omega) hout with
            ⟨d1, h1, h2, h3, h4, -⟩ | h1 | h1 | ⟨f, h1⟩
          · rw [h1] at h
            have := ih h3 h4 h
            omega
          · simp [h1] at h
          · simp [h1] at h
          · simp [h1] at h

/-- The output of DECL and DECF has `N` bytes a scanline, and the cursor ends inside the stream (R160, R165). -/
theorem decodeRows_ok {rd : Nat → Except Fault Byte} {len rows y cur n : Nat} {out : List Byte} (hcur : cur ≤ len)
    (h : decodeRows rd len rows y cur = .ok out n) : out.length = rows * Config.N ∧ cur ≤ n ∧ n ≤ len := by
  induction rows generalizing y cur out n with
  | zero => simp_all [decodeRows]
  | succ rows ih =>
    unfold decodeRows at h
    split at h
    · exact absurd h (by simp)
    · exact absurd h (by simp)
    · next d hd =>
      obtain ⟨h1, h2, h3⟩ := decodeLine_ok hcur (by simp) hd
      split at h
      · next out' n' hrest =>
        cases h
        have := ih h3 hrest
        rw [List.length_append, Nat.succ_mul]
        simp only at h2
        omega
      · exact absurd h (by simp)
      · exact absurd h (by simp)

/-- Executing the stream group of a control byte is the group step of the line decoder (R155). -/
theorem runGroup_decodeControl (c : Byte) (s : State) :
    exec (decodeControl c) s = runGroup (fun rd len d => groupStep rd len c d) s := by
  unfold decodeControl groupStep
  split
  · rfl
  · split <;> rfl

end Sys2Proof.Machine
end

