-- ==== Sys2Proof/Laws/Steps.lean ====
section
/-! SUPPORT. Commands and steps: the pre-checks, everything a command can end in, the command in the latch, and sizes in
the ditherer. -/

namespace Sys2Proof

open Machine

/-! Fields of a command word and of a control byte (R80, R86). -/

@[simp] theorem cmdOp_cmdWord (op : BitVec 4) (rsv : BitVec 28) : cmdOp (cmdWord op rsv) = op := by
  ext i hi
  have h := BitVec.getLsbD_append (x := rsv) (y := op) (i := i)
  simp only [show i < 4 from hi, if_true, BitVec.getLsbD_eq_getElem hi] at h
  simpa [cmdOp, cmdWord, BitVec.getElem_extractLsb'] using h

@[simp] theorem cmdRsv_cmdWord (op : BitVec 4) (rsv : BitVec 28) : cmdRsv (cmdWord op rsv) = rsv := by
  ext i hi
  have h := BitVec.getLsbD_append (x := rsv) (y := op) (i := 4 + i)
  simp only [show ¬ 4 + i < 4 by omega, if_false, Nat.add_sub_cancel_left,
    BitVec.getLsbD_eq_getElem hi] at h
  simpa [cmdRsv, cmdWord, BitVec.getElem_extractLsb'] using h

@[simp] theorem commandOfOp_op (c : Command) : commandOfOp c.op = some c := by cases c <;> rfl

theorem decodeCommand_cmdWord_zero (op : BitVec 4) :
    decodeCommand (cmdWord op 0) =
      match commandOfOp op with
      | some c => c.instr
      | none => .illegal op 0 := by
  cases h : commandOfOp op <;> simp [decodeCommand, h]

/-- The command the latch holds is the one its word decodes to (R81, R116). -/
theorem Machine.State.fetchCommand_eq (s : State) :
    s.fetchCommand =
      match s.latch.command with
      | some c => c.instr
      | none => .illegal s.latch.op (if s.latch.rsv then 1 else 0) := by
  unfold State.fetchCommand Latch.command Latch.word
  cases h : s.latch.rsv
  · simp only [Bool.false_eq_true, if_false]
    rw [decodeCommand_cmdWord_zero]
  · simp [decodeCommand]

/-- With no legal command in the latch the completion step is that of an illegal word (R201). -/
theorem Machine.completionStep_illegal {s : State} (h : s.latch.command = none) :
    completionStep s = .next (s.preFail .illegalCmd) := by
  unfold completionStep
  rw [State.fetchCommand_eq, h]
  rfl

/-- With a legal command in the latch the completion step is that command (R116). -/
theorem Machine.completionStep_command {s : State} {c : Command} (h : s.latch.command = some c) :
    completionStep s = exec c.instr s := by
  unfold completionStep
  rw [State.fetchCommand_eq, h]

/-- The result of each legal command, computed from its source region (R130, R131, R160, R165, R181). -/
def Command.body (c : Command) (l : Latch) (rd : Nat → Except Fault Byte) : CmdResult :=
  match c with
  | .encl => encodeRows rd l.dstLen.toNat Config.N 1 0 0
  | .encf => encodeRows rd l.dstLen.toNat Config.frameBytes Config.H 0 0
  | .decl => decodeRows rd l.srcLen.toNat 1 0 0
  | .decf => decodeRows rd l.srcLen.toNat Config.H 0 0
  | .dith => ditherBody Config.divRound rd

/-- The meaning of every legal command is `runCommand` of its body, the source region read from memory (R116). -/
theorem exec_command (c : Command) (s : State) :
    exec c.instr s =
      match c.precheck s.latch with
      | some e => .next (s.preFail e)
      | none =>
        match c.body s.latch s.sourceByte with
        | .ok out consumed =>
          match s.mem.store s.latch.dst.toNat out with
          | .ok mem => .next (s.succeed consumed out.length mem)
          | .error f => .fault f
        | .raise e pos line => .next (s.runFail (c.destination s.latch) e pos line)
        | .stop f => .fault f := by
  have h : (fun k => s.mem.through (s.mem.window s.latch.src.toNat (c.inLen s.latch)) s.latch.src.toNat k) =
      s.sourceByte := by
    funext k
    simp [State.sourceByte]
  rw [← h]
  cases c <;> rfl

/-- A command passes its pre-checks exactly when it is ready (R117 to R119, R182). -/
theorem precheck_eq_none_iff (c : Command) (l : Latch) : c.precheck l = none ↔ Ready c l := by
  have hov : ∀ a n b k : Nat, overlap a n b k = false ↔ (n = 0 ∨ k = 0 ∨ a + n ≤ b ∨ b + k ≤ a) := by
    intro a n b k
    simp only [overlap, decide_eq_false_iff_not]
    omega
  unfold Command.precheck Ready
  cases hd : c.dimensionsOk l
  · cases c <;> simp_all [Command.dimensionsOk]
  · cases hl : c.lengthsOk l
    · simp only [Bool.not_true, Bool.false_eq_true, if_false, Bool.not_false, if_true]
      cases c <;> simp_all [Command.lengthsOk]
    · simp only [Bool.not_true, Bool.false_eq_true, if_false]
      by_cases hr : Config.bufBytes < l.src.toNat + c.inLen l ∨ Config.bufBytes < l.dst.toNat + c.outLen l
      · have hb : Config.bufBytes = 1048576 := rfl
        simp only [hr, if_true]
        constructor
        · simp
        · rintro ⟨-, -, h, -⟩
          omega
      · have hb : Config.bufBytes = 1048576 := rfl
        simp only [hr, if_false]
        have h1 : c = .dith → l.gridW = 576 ∧ l.gridH = 720 := by
          rintro rfl
          simpa [Command.dimensionsOk] using hd
        have h2 : (c = .encl → 72 ≤ l.srcLen.toNat) ∧ (c = .encf → 51840 ≤ l.srcLen.toNat) ∧
            (c = .decl → 72 ≤ l.dstLen.toNat) ∧ (c = .decf → 51840 ≤ l.dstLen.toNat) ∧
            (c = .dith → 414720 ≤ l.srcLen.toNat ∧ 51840 ≤ l.dstLen.toNat) := by
          cases c <;> simpa [Command.lengthsOk] using hl
        have h3 := hov l.src.toNat (c.inLen l) l.dst.toNat (c.outLen l)
        cases ho : overlap l.src.toNat (c.inLen l) l.dst.toNat (c.outLen l)
        · simp only [Bool.false_eq_true, if_false, true_iff]
          exact ⟨h1, h2, ⟨by omega, by omega⟩, h3.1 ho⟩
        · simp only [if_true, reduceCtorEq, false_iff]
          rintro ⟨-, -, -, h4⟩
          have := h3.2 h4
          simp_all

/-! The ditherer's sizes (R39, R43, R187). -/

theorem Machine.diffuseOne_size (w h x y : Nat) (d : Int) (err : Array Int) (o : Int × Int) :
    (diffuseOne w h x y d err o).size = err.size := by
  unfold diffuseOne
  dsimp only
  split <;> simp

theorem Machine.diffuse_size (w h x y : Nat) (d : Int) (err : Array Int) :
    (diffuse w h x y d err).size = err.size := by
  simp [diffuse, neighbours, diffuseOne_size]

@[simp] theorem Machine.ditherPixel_err_size (r : Config.DivRound) (w h : Nat) (g : Byte) (d : Ditherer) :
    (ditherPixel r w h g d).err.size = d.err.size := by
  simp [ditherPixel, diffuse_size]

@[simp] theorem Machine.ditherPixel_bits_size (r : Config.DivRound) (w h : Nat) (g : Byte) (d : Ditherer) :
    (ditherPixel r w h g d).bits.size = d.bits.size + 1 := by
  simp [ditherPixel]

/-- A packed bitmap has `ceil(w/8)` bytes a row (R67, R187). -/
theorem Machine.packBitmap_length (w h : Nat) (bits : Array Bool) :
    (packBitmap w h bits).length = h * ((w + 7) / 8) := by
  simp [packBitmap, List.length_flatMap]

/-- The output of DITH has `FRAME_BYTES` bytes (R181). -/
theorem Machine.ditherBody_ok {r : Config.DivRound} {rd : Nat → Except Fault Byte} {out : List Byte} {n : Nat}
    (h : ditherBody r rd = .ok out n) : out.length = Config.frameBytes ∧ n = Config.gridBytes := by
  unfold ditherBody at h
  split at h
  · simp at h
  · simp only [CmdResult.ok.injEq] at h
    exact ⟨by rw [← h.1, packBitmap_length]; rfl, h.2.symm⟩

/-- DITH has no run-time error (R181). -/
theorem Machine.ditherBody_never_raises (r : Config.DivRound) (rd : Nat → Except Fault Byte) (e : ErrCode)
    (pos line : Nat) : ditherBody r rd ≠ .raise e pos line := by
  unfold ditherBody
  split <;> simp

/-- A successful command's output lies inside its destination region (R66, R122). -/
theorem body_ok_le {c : Command} {l : Latch} {rd : Nat → Except Fault Byte} {out : List Byte} {n : Nat}
    (h : c.body l rd = .ok out n) : out.length ≤ c.outLen l := by
  cases c with
  | encl =>
    have := encodeRows_le (Nat.zero_le _) h
    simp only [Command.outLen]
    omega
  | encf =>
    have := encodeRows_le (Nat.zero_le _) h
    simp only [Command.outLen]
    omega
  | decl =>
    have := (decodeRows_ok (Nat.zero_le _) h).1
    simp only [Command.outLen]
    omega
  | decf =>
    have := (decodeRows_ok (Nat.zero_le _) h).1
    exact Nat.le_of_eq this
  | dith => exact Nat.le_of_eq (ditherBody_ok h).1

/-- Everything a legal command can end in: a failing pre-check, success with its output written inside the destination
region, a run-time error, or a stop of the machine (R116, R120 to R122). -/
theorem exec_command_cases (c : Command) (s : State) :
    (∃ e, c.precheck s.latch = some e ∧ exec c.instr s = .next (s.preFail e)) ∨
    (∃ out n, c.precheck s.latch = none ∧ c.body s.latch s.sourceByte = .ok out n ∧ out.length ≤ c.outLen s.latch ∧
      exec c.instr s = .next (s.succeed n out.length (s.mem.write s.latch.dst.toNat out))) ∨
    (∃ e pos line, c.precheck s.latch = none ∧ c.body s.latch s.sourceByte = .raise e pos line ∧
      exec c.instr s = .next (s.runFail (c.destination s.latch) e pos line)) ∨
    (∃ f, c.precheck s.latch = none ∧ c.body s.latch s.sourceByte = .stop f ∧ exec c.instr s = .fault f) := by
  rw [exec_command]
  cases hp : c.precheck s.latch with
  | some e => exact Or.inl ⟨e, by simp, rfl⟩
  | none =>
    cases hb : c.body s.latch s.sourceByte with
    | ok out n =>
      have hle := body_ok_le hb
      obtain ⟨-, -, ⟨-, hr⟩, -⟩ := (precheck_eq_none_iff c s.latch).1 hp
      have hs := Memory.store_inside s.mem (a := s.latch.dst.toNat) (bytes := out)
        (by simp only [Config.bufBytes]; omega)
      simp only [hs]
      exact Or.inr (Or.inl ⟨out, n, by simp, by simp, hle, rfl⟩)
    | raise e pos line => exact Or.inr (Or.inr (Or.inl ⟨e, pos, line, by simp, by simp, rfl⟩))
    | stop f => exact Or.inr (Or.inr (Or.inr ⟨f, by simp, by simp, rfl⟩))

/-- A completion step ends in a completed state or stops on a byte of the source; it never refuses (R115). -/
theorem completionStep_cases (s : State) :
    (∃ e pos line n p m, completionStep s = .next (s.complete e pos line n p m)) ∨ ∃ f, completionStep s = .fault f := by
  cases hc : s.latch.command with
  | none =>
    rw [completionStep_illegal hc]
    exact Or.inl ⟨_, _, _, _, _, _, rfl⟩
  | some c =>
    rw [completionStep_command hc]
    rcases exec_command_cases c s with ⟨e, -, h⟩ | ⟨out, n, -, -, -, h⟩ | ⟨e, pos, line, -, -, h⟩ | ⟨f, -, -, h⟩
    · exact Or.inl ⟨_, _, _, _, _, _, h⟩
    · exact Or.inl ⟨_, _, _, _, _, _, h⟩
    · exact Or.inl ⟨_, _, _, _, _, _, h⟩
    · exact Or.inr ⟨f, h⟩

end Sys2Proof
end

