-- ==== Sys2Proof/Laws/PerInstr.lean ====
section
/-! SUPPORT. Statements made instruction by instruction. Family TableRow: the encoding of every well-formed instruction
has the format of its row in spec/opcode_table.json and, under the row's mask, its match value. -/

namespace Sys2Proof.Laws.TableRow

open Sys2Proof

/-- The word is a command word that equals `value` under `mask`. -/
def cmdRow (mask value : Word) : Encoded → Bool
  | .cmd w => decide (w &&& mask = value)
  | .ctrl _ => false

/-- The byte is a control byte that equals `value` under `mask`. -/
def ctrlRow (mask value : Byte) : Encoded → Bool
  | .cmd _ => false
  | .ctrl c => decide (c &&& mask = value)

/-- Whether an encoding fits the row of an instruction. -/
def fitsRow (i : Instr) (e : Encoded) : Bool :=
  match i with
  | .encl => cmdRow 0xFFFFFFFF 1 e
  | .encf => cmdRow 0xFFFFFFFF 2 e
  | .decl => cmdRow 0xFFFFFFFF 3 e
  | .decf => cmdRow 0xFFFFFFFF 4 e
  | .dith => cmdRow 0xFFFFFFFF 5 e
  | .illegal _ _ => cmdRow 0 0 e
  | .lit _ => ctrlRow 0x80 0x00 e
  | .nop => ctrlRow 0xFF 0x80 e
  | .rep _ => ctrlRow 0x80 0x80 e && !ctrlRow 0xFF 0x80 e

/-- A well-formed instruction is encoded as its row says. -/
def Statement (i : Instr) : Prop := i.wellFormed = true → fitsRow i (encode i) = true

theorem encl : Statement .encl := fun _ => by decide
theorem encf : Statement .encf := fun _ => by decide
theorem decl : Statement .decl := fun _ => by decide
theorem decf : Statement .decf := fun _ => by decide
theorem dith : Statement .dith := fun _ => by decide
theorem illegal (op : BitVec 4) (rsv : BitVec 28) : Statement (.illegal op rsv) := by
  intro _
  simp [fitsRow, cmdRow, encode]
theorem lit (n : BitVec 7) : Statement (.lit n) := by
  revert n
  unfold Statement
  decide +kernel
theorem nop : Statement .nop := fun _ => by decide
theorem rep (n : BitVec 7) : Statement (.rep n) := by
  revert n
  unfold Statement
  decide +kernel

end Sys2Proof.Laws.TableRow
end

