-- ==== Sys2Proof/Tests/Slice0.lean ====
section
/-! SUPPORT. The model's own tests. Expected values are the spec's worked vectors (95_test_vectors.md, named in each
comment) or written out from its tables. Then, for every statement with hypotheses, a concrete input that meets them. -/

namespace Sys2Proof.Tests

open Sys2Proof Sys2Proof.Machine

/-! ### Helpers -/

/-- Bytes from numbers. -/
def bytes (l : List Nat) : List Byte := l.map (BitVec.ofNat 8)

/-- A state that has just accepted the command word `cmd`, with the operands and memory given. -/
def issued (cmd src srcLen dst dstLen : Nat) (m : Memory) : State :=
  { State.reset with
    latch :=
      { op := BitVec.ofNat 4 cmd
        rsv := decide (16 ≤ cmd)
        src := BitVec.ofNat 20 src
        srcLen := BitVec.ofNat 21 srcLen
        dst := BitVec.ofNat 20 dst
        dstLen := BitVec.ofNat 21 dstLen
        gridW := 576
        gridH := 720 }
    phase := .busy
    mem := m }

/-- A DECL in progress. -/
def decodingAt (srcLen : Nat) (m : Memory) (d : Decoder) : State :=
  { issued 3 0 srcLen 0x1000 72 m with run := .decoding d }

/-- The outcome is a next state with the property. -/
def nextWith (o : Host.Outcome State Fault Refusal) (p : State → Bool) : Bool :=
  match o with
  | .next t => p t
  | .fault _ => false
  | .refused _ => false

/-- A completed state with the code, position, counts given and BUF holding bytes at an address. -/
def ended (e : ErrCode) (pos consumed produced : Nat) (a : Nat) (out : List Byte) (t : State) : Bool :=
  decide (t.regs.errCode = e ∧ t.regs.errPos.toNat = pos ∧ t.regs.consumed.toNat = consumed ∧
    t.regs.produced.toNat = produced ∧ t.regs.done = true ∧ t.phase = .idle) &&
  (List.range out.length).all (fun i => decide (t.mem.lookup (a + i) = out[i]?))

/-! ### WellFormed refuses ill-formed terms -/

theorem test_wellFormed_illegal_with_a_legal_word : (Instr.illegal 1 0).wellFormed = false := by decide
theorem test_wellFormed_illegal_with_the_last_legal_word : (Instr.illegal 5 0).wellFormed = false := by decide
theorem test_wellFormed_rep_zero : (Instr.rep 0).wellFormed = false := by decide
theorem test_wellFormed_group_lit_empty : (Group.lit []).wellFormed = false := by decide
theorem test_wellFormed_group_lit_too_long : (Group.lit (List.replicate 129 0)).wellFormed = false := by decide +kernel
theorem test_wellFormed_group_rep_short : (Group.rep 1 7).wellFormed = false := by decide
theorem test_wellFormed_group_rep_too_long : (Group.rep 129 7).wellFormed = false := by decide

/-! ### Decoding, words written out from 30_encoding.md R81, R86 -/

theorem test_decode_encl : decodeCommand 0x00000001 = .encl := by decide
theorem test_decode_encf : decodeCommand 0x00000002 = .encf := by decide
theorem test_decode_decl : decodeCommand 0x00000003 = .decl := by decide
theorem test_decode_decf : decodeCommand 0x00000004 = .decf := by decide
theorem test_decode_dith : decodeCommand 0x00000005 = .dith := by decide
theorem test_decode_reserved_op : decodeCommand 0x0000000F = .illegal 15 0 := by decide
theorem test_decode_reserved_bits : decodeCommand 0x80000001 = .illegal 1 0x8000000 := by decide
theorem test_decode_lit_last : decodeControl 0x7F = .lit 127 := by decide
theorem test_decode_nop : decodeControl 0x80 = .nop := by decide
theorem test_decode_rep_first : decodeControl 0x81 = .rep 1 := by decide
theorem test_decode_group_lit : decodeGroup (bytes [0x01, 0xAA, 0xBB, 0xFF]) = .ok (.lit [0xAA, 0xBB], [0xFF]) := by decide
theorem test_decode_group_rep : decodeGroup (bytes [0xB9, 0x00]) = .ok (.rep 72 0, []) := by decide
theorem test_decode_group_cut : decodeGroup (bytes [0x47, 0x01]) = .error .groupCutShort := by decide
theorem test_decode_group_none : decodeGroup [] = .error .noControlByte := by decide
theorem test_decodeTableWord_rep : decodeTableWord 16 0x00FF = some (.rep 127) := by decide
theorem test_decodeTableWord_cmd : decodeTableWord 32 4 = some .decf := by decide

/-! ### The codec functions -/

/-- E6 -/
theorem test_encodeLine_pair_in_literals :
    encodeLine (bytes [0xAA, 0xBB, 0xBB, 0xCC] ++ List.replicate 68 0) =
      bytes [0x00, 0xAA, 0xFF, 0xBB, 0x00, 0xCC, 0xBD, 0x00] := by decide +kernel

/-- E14 -/
theorem test_encodeLine_run_of_129 : encodeLine (List.replicate 129 0) = bytes [0x81, 0, 0, 0] := by decide +kernel

/-- E12 -/
theorem test_encodeLine_literals_around_a_run :
    encodeLine (bytes [0x12] ++ List.replicate 70 0x34 ++ bytes [0x12]) =
      bytes [0x00, 0x12, 0xBB, 0x34, 0x00, 0x12] := by decide +kernel

/-- V-D5 -/
theorem test_dither_row_trunc :
    packBitmap 4 1 (ditherFn .trunc 4 1 (fun x _ => (bytes [200, 100, 200, 100]).getD x 0)) = [0x50] := by decide +kernel

/-- V-D6 under TRUNC -/
theorem test_dither_grid_trunc :
    packBitmap 8 3 (ditherFn .trunc 8 3 (fun _ _ => 128)) = [0x66, 0x99, 0x99] := by decide +kernel

/-- V-D6 under FLOOR -/
theorem test_dither_grid_floor :
    packBitmap 8 3 (ditherFn .floor 8 3 (fun _ _ => 128)) = [0x66, 0x99, 0xB3] := by decide +kernel

/-! ### One step of each instruction -/

/-- E5 -/
theorem test_encl_step :
    nextWith (step (issued 1 0 72 0x1000 96 (Memory.write [] 0 (List.replicate 71 0 ++ [1]))))
      (ended .noError 0 72 4 0x1000 (bytes [0xBA, 0, 0, 1])) = true := by decide +kernel

/-- EO1 -/
theorem test_encl_overflow :
    nextWith (step (issued 1 0 72 0x1000 7
        (Memory.write [] 0 (bytes [0xAA, 0xBB, 0xBB, 0xCC] ++ List.replicate 68 0))))
      (fun t => ended .dstOverflow 4 0 0 0 [0xAA] t && decide (t.mem.lookup 0x1000 = none)) = true := by decide +kernel

/-- V-C8 for ENCF: a length requirement one short. -/
theorem test_encf_bad_range :
    nextWith (step (issued 2 0 51839 0x10000 2000 [])) (ended .badRange 0 0 0 0 []) = true := by decide +kernel

/-- D13 -/
theorem test_decl_step :
    nextWith (step (issued 3 0 8 0x1000 72 (Memory.write [] 0 (bytes [0, 0xAA, 0xFF, 0xBB, 0, 0xCC, 0xBD, 0]))))
      (ended .noError 0 8 72 0x1000 (bytes [0xAA, 0xBB, 0xBB, 0xCC] ++ List.replicate 68 0)) = true := by decide +kernel

/-- D8 -/
theorem test_decl_overrun_before_truncation :
    nextWith (step (issued 3 0 3 0x1000 72 (Memory.write [] 0 (bytes [0xBA, 0x00, 0x01]))))
      (ended .fmtOverrun 2 0 0 0 (bytes [0xBA])) = true := by decide +kernel

/-- A DECF whose second scanline has no control byte (R154 (a), R165). -/
theorem test_decf_truncated_line :
    nextWith (step (issued 4 0 2 0x10000 51840 (Memory.write [] 0 (bytes [0xB9, 0x00]))))
      (fun t => ended .fmtTruncated 2 0 0 0 (bytes [0xB9]) t && decide (t.regs.errLine = 1)) = true := by decide +kernel

/-- V-C6 -/
theorem test_dith_bad_range :
    nextWith (step (issued 5 0 414719 0x70000 51840 [])) (ended .badRange 0 0 0 0 []) = true := by decide +kernel

/-- V-C4: the dimension check comes before the length check. -/
theorem test_dith_dimension :
    nextWith (step { issued 5 0 0 0x70000 51840 [] with
        latch := { (issued 5 0 0 0x70000 51840 []).latch with gridW := 575 } })
      (ended .dimension 0 0 0 0 []) = true := by decide +kernel

/-- V-C3 -/
theorem test_illegal_step :
    nextWith (step (issued 0x13 0 9 0x1000 72 [])) (ended .illegalCmd 0 0 0 0 []) = true := by decide +kernel

/-- R150 example: `01 AA BB` appends AA BB and moves the cursor by 3. -/
theorem test_lit_step :
    nextWith (exec (.lit 1) (decodingAt 3 (Memory.write [] 0 (bytes [0x01, 0xAA, 0xBB])) ⟨0, [], 0⟩))
      (fun t => decide (t.run = .decoding ⟨3, [0xAA, 0xBB], 0⟩)) = true := by decide +kernel

theorem test_nop_step :
    nextWith (exec .nop (decodingAt 3 [] ⟨1, [5], 0⟩)) (fun t => decide (t.run = .decoding ⟨2, [5], 0⟩)) = true := by
  decide +kernel

/-- R152 example: `FF 55` appends 55 55 and moves the cursor by 2. -/
theorem test_rep_step :
    nextWith (exec (.rep 127) (decodingAt 2 (Memory.write [] 0 (bytes [0xFF, 0x55])) ⟨0, [], 0⟩))
      (fun t => decide (t.run = .decoding ⟨2, [0x55, 0x55], 0⟩)) = true := by decide +kernel

/-- V-B15: STATUS 0000051E after a write of all ones is 00000504. -/
theorem test_status_write_one_clears :
    ({ State.reset with
        regs := Regs.writeStatus
          { Regs.reset with busErr := true, lost := true, done := true, errCode := .fmtTruncated } 0xFFFFFFFF }
      ).statusWord = 0x00000504 := by decide

/-- V-B7: a 16-bit read at 2 after a 32-bit write of 11223344 at 0. -/
theorem test_buffer_little_endian :
    nextWith (hostAccess 0x100002 (.read .w16) { State.reset with mem := Memory.write [] 0 (leBytes 0x11223344 4) })
      (fun t => decide (t.rdata = 0x1122)) = true := by decide +kernel

/-! The instruction of a table row is the first to run after reset (log 12). -/

theorem test_withFetchWord_dith :
    nextWith (step (State.reset.withFetchWord 32 5)) (ended .badRange 0 0 0 0 []) = true := by decide +kernel

theorem test_withFetchWord_lit :
    nextWith (step (State.reset.withFetchWord 8 0)) (fun t => decide (t.run = .decoding ⟨2, [0], 0⟩)) = true := by
  decide +kernel

/-! ### The hypotheses of every statement can be met -/

/-- What a write puts down is held there, and fits: the usual way to build a readable region. -/
theorem holds_write (m : Memory) (a : Nat) (bs : List Byte) : (m.write a bs).holds a bs := (Memory.wrote_write m a bs).1

theorem ready_of_precheck {c : Command} {l : Latch} (h : (c.precheck l).isNone = true) : Ready c l :=
  (precheck_eq_none_iff c l).1 (Option.isNone_iff_eq_none.1 h)

theorem lookup_empty (a : Nat) : Memory.lookup [] a = none := rfl

/-- A scanline of zeros and its encoding (E1). -/
def zeroRow : List Byte := List.replicate 72 0

theorem encodeLine_zeroRow : encodeLine zeroRow = bytes [0xB9, 0x00] := by decide +kernel

/-- The scanline of E6. -/
def rowE6 : List Byte := bytes [0xAA, 0xBB, 0xBB, 0xCC] ++ List.replicate 68 0

/-- One scanline as one group (D1). -/
def zeroLine : List Group := [.rep 72 0]

theorem zeroLine_legal : LegalLine zeroLine := by
  refine ⟨by decide, by decide +kernel, by decide⟩

theorem witness_DecodeAndEncodeAreInverse :
    ∀ i ∈ [Instr.encl, .encf, .decl, .decf, .dith, .illegal 0 0, .illegal 1 1, .lit 0, .lit 127, .nop, .rep 1, .rep 127],
      i.wellFormed = true := by decide

theorem witness_GroupBytesDecodeToTheGroup :
    ∀ g ∈ [Group.lit [7], .lit (List.replicate 128 7), .nop, .rep 2 7, .rep 128 7], g.wellFormed = true := by
  decide +kernel

/-- One state for each of the four checks, each at the edge of the check. -/
theorem witness_PreChecksFailInOrder :
    (let l := { (issued 5 0 414720 0x70000 51840 []).latch with gridH := 721 }
     ¬ (Command.dith = .dith → l.gridW = 576 ∧ l.gridH = 720)) ∧
    (let l := (issued 3 0 9 0x1000 71 []).latch
     ¬ (Command.decl = .decl → 72 ≤ l.dstLen.toNat)) ∧
    (let l := (issued 3 0 9 0xFFFB9 72 []).latch
     72 ≤ l.dstLen.toNat ∧
     ¬ (l.src.toNat + Command.decl.inLen l ≤ 1048576 ∧ l.dst.toNat + Command.decl.outLen l ≤ 1048576)) ∧
    (let l := (issued 3 0 9 8 72 []).latch
     72 ≤ l.dstLen.toNat ∧ l.src.toNat + Command.decl.inLen l ≤ 1048576 ∧
     l.dst.toNat + Command.decl.outLen l ≤ 1048576 ∧ 0 < Command.decl.inLen l ∧ 0 < Command.decl.outLen l ∧
     l.src.toNat < l.dst.toNat + Command.decl.outLen l ∧ l.dst.toNat < l.src.toNat + Command.decl.inLen l) := by
  decide

theorem witness_EncodeLineCompletes :
    let s := issued 1 0 72 72 2 (Memory.write [] 0 zeroRow)
    Ready .encl s.latch ∧ zeroRow.length = 72 ∧ s.mem.holds s.latch.src.toNat zeroRow ∧
      (encodeLine zeroRow).length ≤ s.latch.dstLen.toNat :=
  ⟨ready_of_precheck (by decide), by decide, holds_write _ _ _, by rw [encodeLine_zeroRow]; decide⟩

theorem witness_EncodeFrameCompletes :
    let rows := List.replicate 720 zeroRow
    let s := issued 2 0 51840 0x10000 1440 (Memory.write [] 0 rows.flatten)
    Ready .encf s.latch ∧ rows.length = 720 ∧ (∀ row ∈ rows, row.length = 72) ∧
      s.mem.holds s.latch.src.toNat rows.flatten ∧ (rows.flatMap encodeLine).length ≤ s.latch.dstLen.toNat := by
  refine ⟨ready_of_precheck (by decide), List.length_replicate, ?_, holds_write _ _ _, ?_⟩
  · intro row h
    rw [List.eq_of_mem_replicate h]
    decide
  · rw [List.length_flatMap, List.map_replicate, encodeLine_zeroRow, List.sum_replicate]
    decide

/-- EO1 -/
theorem witness_EncoderOverflowIsReported :
    let s := issued 1 0 72 0x1000 7 (Memory.write [] 0 rowE6)
    Ready .encl s.latch ∧ ([] : List (List Byte)).length < Command.encl.lines ∧ rowE6.length = 72 ∧
      s.mem.holds s.latch.src.toNat ([] ++ rowE6) ∧
      encodeGroups rowE6 = (encodeGroups rowE6).take 3 ++ (4, .rep 68 0) :: [] ∧
      (([] : List (List Byte)).flatMap encodeLine).length +
        (((encodeGroups rowE6).take 3).flatMap (fun p => encodeGroup p.2)).length ≤ s.latch.dstLen.toNat ∧
      s.latch.dstLen.toNat < (([] : List (List Byte)).flatMap encodeLine).length +
        (((encodeGroups rowE6).take 3).flatMap (fun p => encodeGroup p.2)).length +
        (encodeGroup (.rep 68 0)).length :=
  ⟨ready_of_precheck (by decide), by decide, by decide +kernel, holds_write _ _ _, by decide +kernel,
    by decide +kernel, by decide +kernel⟩

theorem witness_DecodeLineCompletes :
    let s := issued 3 0 2 2 72 (Memory.write [] 0 (streamBytes zeroLine))
    Ready .decl s.latch ∧ LegalLine zeroLine ∧ s.mem.holds s.latch.src.toNat (streamBytes zeroLine) ∧
      (streamBytes zeroLine).length ≤ s.latch.srcLen.toNat :=
  ⟨ready_of_precheck (by decide), zeroLine_legal, holds_write _ _ _, by decide⟩

theorem witness_DecodeFrameCompletes :
    let lines := List.replicate 720 zeroLine
    let s := issued 4 0 1440 0x10000 51840 (Memory.write [] 0 (lines.flatMap streamBytes))
    Ready .decf s.latch ∧ lines.length = 720 ∧ (∀ gs ∈ lines, LegalLine gs) ∧
      s.mem.holds s.latch.src.toNat (lines.flatMap streamBytes) ∧
      (lines.flatMap streamBytes).length ≤ s.latch.srcLen.toNat := by
  refine ⟨ready_of_precheck (by decide), List.length_replicate, ?_, holds_write _ _ _, ?_⟩
  · intro gs h
    rw [List.eq_of_mem_replicate h]
    exact zeroLine_legal
  · rw [List.length_flatMap, List.map_replicate, List.sum_replicate]
    decide

/-- The five ways to fail, at the edge of each: no byte left, LIT of 73, LIT of 72 one byte short, REP of 73, REP whose
value byte is missing. -/
theorem witness_DecoderErrorsAreReported :
    Ready .decl (issued 3 0 0 0x1000 72 []).latch ∧ Ready .decl (issued 3 0 72 0x1000 72 []).latch ∧
    Ready .decl (issued 3 0 1 0x1000 72 []).latch ∧ ([] : List (List Group)).length < Command.decl.lines ∧
    (streamOutput []).length < 72 ∧ Memory.holds [] 0 (streamBytes []) ∧
    (let n : BitVec 7 := 72
     (Memory.write [] 0 (bytes [0x48])).lookup 0 = some (0#1 ++ n) ∧ 72 < 0 + (n.toNat + 1)) ∧
    (let n : BitVec 7 := 71
     (Memory.write [] 0 (bytes [0x47])).lookup 0 = some (0#1 ++ n) ∧ 0 + (n.toNat + 1) ≤ 72 ∧ 72 < 0 + 1 + (n.toNat + 1)) ∧
    (let n : BitVec 7 := 56
     n ≠ 0 ∧ (Memory.write [] 0 (bytes [0xB8])).lookup 0 = some (1#1 ++ n) ∧ 72 < 0 + (129 - n.toNat)) ∧
    (let n : BitVec 7 := 57
     n ≠ 0 ∧ (Memory.write [] 0 (bytes [0xB9])).lookup 0 = some (1#1 ++ n) ∧ 0 + (129 - n.toNat) ≤ 72 ∧ 1 < 0 + 2) :=
  ⟨ready_of_precheck (by decide), ready_of_precheck (by decide), ready_of_precheck (by decide), by decide, by decide,
    fun i h => absurd h (by simp [streamBytes]), by decide, by decide, by decide, by decide⟩

/-- A grid of 414720 readable bytes. -/
theorem witness_DitherCompletes :
    let s := issued 5 0 414720 0x70000 51840 (Memory.write [] 0 (List.replicate 414720 0xFF))
    Ready .dith s.latch ∧
      ∀ x y, x < 576 → y < 720 → s.mem.lookup (s.latch.src.toNat + y * 576 + x) = some ((fun _ _ => 0xFF : Nat → Nat → Byte) x y) := by
  refine ⟨ready_of_precheck (by decide), fun x y hx hy => ?_⟩
  have hlt : 0 + y * 576 + x < 414720 := by omega
  refine (Memory.lookup_write [] 0 (0 + y * 576 + x) (List.replicate 414720 0xFF)).trans ?_
  rw [List.length_replicate, if_pos ⟨Nat.zero_le _, by omega⟩, List.getElem?_replicate, if_pos (by omega)]

/-- A success, whose code is NONE (E1). -/
theorem witness_CommandsKeepBytesOutsideTheDestination :
    ∃ t, exec (Command.instr .encl) (issued 1 0 72 72 2 (Memory.write [] 0 zeroRow)) = .next t ∧
      t.regs.errCode = .noError := by
  have h : nextWith (exec (Command.instr .encl) (issued 1 0 72 72 2 (Memory.write [] 0 zeroRow)))
      (fun t => decide (t.regs.errCode = .noError)) = true := by decide +kernel
  revert h
  cases exec (Command.instr .encl) (issued 1 0 72 72 2 (Memory.write [] 0 zeroRow)) <;> simp [nextWith]

/-- Two states that differ outside the source region, and a success. -/
theorem witness_ResultDependsOnLatchAndSourceOnly :
    let s := issued 1 0 72 72 2 (Memory.write [] 0 zeroRow)
    let s' := { s with mem := Memory.write [] 0 (zeroRow ++ [9]) }
    s'.latch = s.latch ∧
    (∀ k, k < Command.encl.inLen s.latch → s'.mem.lookup (s.latch.src.toNat + k) = s.mem.lookup (s.latch.src.toNat + k)) ∧
    ∃ t, exec (Command.instr .encl) s = .next t ∧ t.regs.errCode = .noError := by
  refine ⟨rfl, ?_, witness_CommandsKeepBytesOutsideTheDestination⟩
  decide +kernel

theorem witness_RunningCommandIgnoresOperandWrites :
    let s := issued 0 0 0 0 0 []
    s.phase = .busy ∧ (0x24#21) ∈ [0x10#21, 0x14#21, 0x18#21, 0x1C#21, 0x20#21, 0x24#21] ∧
      (∃ t, hostAccess 0x24#21 (.write .w32 5) s = .next t) ∧ ∃ u, completionStep s = .next u :=
  ⟨rfl, by decide, ⟨_, rfl⟩, ⟨_, rfl⟩⟩

/-- A literal of 72 bytes, the longest that fits. -/
theorem witness_LiteralGroupCopiesItsBytes :
    let n : BitVec 7 := 71
    let d : Decoder := ⟨0, [], 0⟩
    let s := decodingAt 73 (Memory.write [] 1 zeroRow) d
    s.run = .decoding d ∧ zeroRow.length = n.toNat + 1 ∧ d.out.length + zeroRow.length ≤ 72 ∧
      d.cur + 1 + zeroRow.length ≤ s.latch.srcLen.toNat ∧
      s.latch.src.toNat + s.latch.srcLen.toNat ≤ 1048576 ∧ s.mem.holds (s.latch.src.toNat + d.cur + 1) zeroRow :=
  ⟨rfl, by decide, by decide, by decide, by decide, holds_write _ _ _⟩

theorem witness_NopGroupMovesTheCursorOnly :
    (decodingAt 1 [] ⟨0, [], 0⟩).run = .decoding ⟨0, [], 0⟩ := rfl

/-- A repeat of 72 bytes, the longest that fits. -/
theorem witness_RepeatGroupRepeatsItsByte :
    let n : BitVec 7 := 57
    let d : Decoder := ⟨0, [], 0⟩
    let s := decodingAt 2 (Memory.write [] 1 [7]) d
    s.run = .decoding d ∧ d.out.length + (257 - (128 + n.toNat)) ≤ 72 ∧ d.cur + 2 ≤ s.latch.srcLen.toNat ∧
      s.latch.src.toNat + s.latch.srcLen.toNat ≤ 1048576 ∧ s.mem.lookup (s.latch.src.toNat + d.cur + 1) = some 7 := by
  decide

/-- A DECL in progress over an empty memory meets the invariant. -/
theorem decodingAt_inv {srcLen : Nat} {d : Decoder} (hp : (Command.decl.precheck (decodingAt srcLen [] d).latch).isNone = true)
    (hl : d.line = 0) (hc : d.cur ≤ (decodingAt srcLen [] d).latch.srcLen.toNat) (ho : d.out.length ≤ 72) :
    (decodingAt srcLen [] d).Inv where
  memory := Memory.wf_nil
  idleFresh := by intro h; cases h
  busyPending := fun _ => ⟨rfl, rfl⟩
  transient := ⟨.decl, rfl, Option.isNone_iff_eq_none.1 hp, Or.inl rfl, by rw [hl]; decide, hc, ho⟩
  noEncInvariant := by intro h; cases h
  failedCounts := by intro h; cases h
  noPosition := by intro h; cases h

/-- LIT of 73 and REP of 73, the shortest that overrun an empty scanline. -/
theorem witness_OverrunningGroupEndsTheCommand :
    let d : Decoder := ⟨0, [], 0⟩
    let s := decodingAt 1 [] d
    s.Inv ∧ s.run = .decoding d ∧ s.latch.command = some .decl ∧
      72 < d.out.length + ((72 : BitVec 7).toNat + 1) ∧ 72 < d.out.length + (257 - (128 + (56 : BitVec 7).toNat)) :=
  ⟨decodingAt_inv (by decide) rfl (by decide) (by decide), rfl, rfl, by decide, by decide⟩

/-- LIT of 1 and REP of 72 whose only data byte is missing. -/
theorem witness_CutGroupEndsTheCommand :
    let d : Decoder := ⟨0, [], 0⟩
    let s := decodingAt 1 [] d
    s.Inv ∧ s.run = .decoding d ∧ s.latch.command = some .decl ∧
      d.out.length + ((0 : BitVec 7).toNat + 1) ≤ 72 ∧ s.latch.srcLen.toNat < d.cur + 1 + ((0 : BitVec 7).toNat + 1) ∧
      d.out.length + (257 - (128 + (57 : BitVec 7).toNat)) ≤ 72 ∧ s.latch.srcLen.toNat < d.cur + 2 :=
  ⟨decodingAt_inv (by decide) rfl (by decide) (by decide), rfl, rfl, by decide, by decide, by decide, by decide⟩

theorem witness_ExhaustedStreamEndsTheCommand :
    let d : Decoder := ⟨1, List.replicate 71 0, 0⟩
    let s := { decodingAt 1 [] d with script := [.advance] }
    s.Inv ∧ s.phase = .busy ∧ s.script = .advance :: [] ∧ s.run = .decoding d ∧ s.latch.command = some .decl ∧
      d.out.length < 72 ∧ d.cur = s.latch.srcLen.toNat := by
  have h := decodingAt_inv (srcLen := 1) (d := ⟨1, List.replicate 71 0, 0⟩) (by decide) rfl (by decide) (by decide)
  exact ⟨⟨h.memory, h.idleFresh, h.busyPending, h.transient, h.noEncInvariant, h.failedCounts, h.noPosition⟩,
    rfl, rfl, rfl, rfl, by decide, rfl⟩

theorem witness_EncodedLinesDecodeBack :
    zeroRow.length = 72 ∧ (List.replicate 720 zeroRow).length = 720 ∧
      ∀ row ∈ List.replicate 720 zeroRow, row.length = 72 :=
  ⟨by decide, List.length_replicate, fun row h => by rw [List.eq_of_mem_replicate h]; decide⟩

theorem witness_EncoderEmitsOnlyLegalGroups : (0, Group.lit [7]) ∈ encodeGroups [7] := by decide

theorem witness_EncoderGroupsCoverTheInput :
    encodeGroups (bytes [1, 2, 2]) = [(0, .lit [1])] ++ (1, .rep 2 2) :: [] := by decide

/-- A pair, maximal runs of 2, 128 and 129, a literal before a pair, and two adjacent literals (E16). -/
theorem witness_EncoderOutputShape :
    ((bytes [1, 2, 2])[1]? = some 2 ∧ (bytes [1, 2, 2])[1 + 1]? = some 2) ∧
    (bytes [1, 2, 2] = [1] ++ List.replicate 2 2 ++ [] ∧ [(1 : Byte)].getLast? ≠ some 2 ∧
      ([] : List Byte).head? ≠ some 2 ∧ 128 * 0 + 2 ≤ 2) ∧
    (List.replicate 128 (7 : Byte) ++ [8] = [] ++ List.replicate 128 7 ++ [8] ∧ [(8 : Byte)].head? ≠ some 7 ∧
      ([] : List Byte).getLast? ≠ some 7 ∧ 128 ≤ 128) ∧
    (128 < 129 ∧ 129 % 128 = 1 ∧ 128 * 1 + 2 ≤ 130) ∧
    (0, Group.lit [1]) ∈ encodeGroups (bytes [1, 2, 2]) ∧
    encodeGroups (bytes (List.range 129)) =
      [] ++ (0, .lit (bytes (List.range 128))) :: (128, .lit [128]) :: [] := by
  refine ⟨by decide, by decide, ?_, by decide, by decide, by decide +kernel⟩
  exact ⟨rfl, by decide, by decide, by decide⟩

/-- The scanline of E6: runs `BB BB` and of 68 zeros, and the stretch `CC` between them. -/
theorem witness_EncoderCapsNeverBindOnAScanline :
    rowE6.length = 72 ∧ (∃ k g, (k, g) ∈ encodeGroups rowE6) ∧
    (rowE6 = bytes [0xAA, 0xBB, 0xBB, 0xCC] ++ List.replicate 68 0 ++ [] ∧ 2 ≤ 68 ∧
      (bytes [0xAA, 0xBB, 0xBB, 0xCC]).getLast? ≠ some 0 ∧ ([] : List Byte).head? ≠ some 0) ∧
    (rowE6 = bytes [0xAA, 0xBB, 0xBB] ++ [0xCC] ++ List.replicate 68 0 ∧
      (∀ i, (bytes [0xAA, 0xBB, 0xBB]).length ≤ i → i < (bytes [0xAA, 0xBB, 0xBB]).length + [(0xCC : Byte)].length →
        ¬ inRun rowE6 i) ∧
      inRun rowE6 ((bytes [0xAA, 0xBB, 0xBB]).length - 1) ∧
      inRun rowE6 ((bytes [0xAA, 0xBB, 0xBB]).length + [(0xCC : Byte)].length)) ∧
    ∃ t, completionStep (issued 0 0 0 0 0 []) = .next t := by
  refine ⟨by decide +kernel, ⟨4, .rep 68 0, by decide +kernel⟩, ⟨by decide +kernel, by decide, by decide, by decide⟩,
    ⟨by decide +kernel, ?_, ⟨0xBB, by decide +kernel, Or.inr (by decide +kernel)⟩,
      ⟨0, by decide +kernel, Or.inl (by decide +kernel)⟩⟩, ⟨_, rfl⟩⟩
  intro i h1 h2 ⟨b, h3, h4⟩
  have hi : i = 3 := by
    simp only [bytes, List.length_map, List.length_cons, List.length_nil] at h1 h2
    omega
  subst hi
  have e2 : rowE6[3 - 1]? = some 0xBB := by decide +kernel
  have e3 : rowE6[3]? = some 0xCC := by decide +kernel
  have e4 : rowE6[3 + 1]? = some 0 := by decide +kernel
  rw [e3] at h3
  cases h3
  rw [e2, e4] at h4
  exact absurd h4 (by decide)

theorem witness_EncodedLengthIsBounded :
    1 ≤ (bytes [7]).length ∧ (List.replicate 128 (7 : Byte)).length ≤ 128 ∧ (1 : Byte) ≠ 2 ∧ 1 ≤ 42 ∧ 3 * 42 ≤ 128 := by
  decide +kernel

theorem witness_DivisionByEightRounds : (0 : Int) ≤ 0 ∧ (-1 : Int) < 0 := by decide

/-- A pixel of 127 and one of 128 with a zero error cell. -/
theorem witness_PixelIsThresholdedAndItsErrorDiffused :
    (((127 : Byte).toNat : Int) + (ditherStart 1 1).err.getD (0 * 1 + 0) 0 < 128) ∧
    128 ≤ (((128 : Byte).toNat : Int) + (ditherStart 1 1).err.getD (0 * 1 + 0) 0) := by decide

theorem witness_DiffusionReachesExactlyTheSixNeighbours :
    (Array.replicate (3 * 3) (0 : Int)).size = 3 * 3 ∧ 2 < 3 ∧ 1 < 3 ∧ 1 < 3 ∧ 2 < 3 := by simp

theorem witness_PixelsAreVisitedInRasterOrder : 0 < 3 ∧ 9 ≤ 3 * 3 := by decide

theorem witness_DitherValuesStayInRange : 9 ≤ 3 * 3 ∧ 8 ≤ 3 * 3 ∧ 8 < 3 * 3 := by decide

theorem witness_UniformGridsDither :
    0 < 3 ∧ 0 < 2 ∧ (255 : Byte).toNat = 255 ∧ (7 : Byte).toNat ≤ 7 ∧ Config.DivRound.trunc = .trunc ∧
      248 ≤ (248 : Byte).toNat := by decide

/-- The last pixel and the last padding bit of a row of 9 pixels. -/
theorem witness_BitsArePackedMostSignificantFirst :
    (Array.replicate (9 * 2) true).size = 9 * 2 ∧ 1 < 2 ∧ 8 < 8 * ((9 + 7) / 8) ∧ 8 < 9 ∧ 15 < 8 * ((9 + 7) / 8) ∧
      9 ≤ 15 := by simp

theorem witness_RegisterWritesChangeTheirFieldsOnly : (0xFFFFFFFD : Word).getLsbD 1 = false := by decide

/-- Each kind of refused access, at the edges of its range. -/
theorem witness_RefusedAccessesOnlySetBusErr :
    ((0x3F#21).toNat < 0x40 ∧ (Width.w32 ≠ .w32 ∨ (0x3F#21).toNat % 4 ≠ 0)) ∧
    ((0x08#21).toNat < 0x40 ∧ (Width.w8 ≠ .w32 ∨ (0x08#21).toNat % 4 ≠ 0)) ∧
    (0x40 ≤ (0x40#21).toNat ∧ (0x40#21).toNat < 0x100000) ∧
    (0x40 ≤ (0xFFFFF#21).toNat ∧ (0xFFFFF#21).toNat < 0x100000) ∧
    (0x100000 ≤ (0x100000#21).toNat ∧ (issued 3 0 0 0 0 []).phase = .busy) ∧
    (0x100000 ≤ (0x100001#21).toNat ∧ (Width.w16 = .w16 ∧ (0x100001#21).toNat % 2 ≠ 0)) ∧
    (0x100000 ≤ (0x1FFFFE#21).toNat ∧ (Width.w32 = .w32 ∧ (0x1FFFFE#21).toNat % 4 ≠ 0)) := by decide

/-- The last four bytes of BUF. -/
theorem witness_BufferReadsAreLittleEndian :
    let s := { State.reset with mem := Memory.write [] 0xFFFFC (bytes [1, 2, 3, 4]) }
    s.phase = .idle ∧ 0x100000 ≤ (0x1FFFFC#21).toNat ∧ (bytes [1, 2, 3, 4]).length = 4 ∧
      (0x1FFFFC#21).toNat % (bytes [1, 2, 3, 4]).length = 0 ∧
      s.mem.holds ((0x1FFFFC#21).toNat - 0x100000) (bytes [1, 2, 3, 4]) :=
  ⟨rfl, by decide, rfl, by decide, holds_write _ _ _⟩

theorem witness_BufferWritesAreLittleEndian :
    State.reset.phase = .idle ∧ 0x100000 ≤ (0x1FFFFC#21).toNat ∧ (0x1FFFFC#21).toNat % 4 = 0 := by decide

/-- The first byte of BUF in an 8-bit read, and the last byte of BUF in a 32-bit read whose other bytes hold values. -/
theorem witness_UnwrittenBytesStopTheReader :
    (State.reset.phase = .idle ∧ 0x100000 ≤ (0x100000#21).toNat ∧
      State.reset.mem.lookup ((0x100000#21).toNat - 0x100000 + 0) = none) ∧
    (let s := { State.reset with mem := Memory.write [] 0xFFFFC (bytes [1, 2, 3]) }
     s.phase = .idle ∧ (0x1FFFFC#21).toNat % 4 = 0 ∧
      (∀ i, i < 3 → s.mem.lookup ((0x1FFFFC#21).toNat - 0x100000 + i) ≠ none) ∧
      s.mem.lookup ((0x1FFFFC#21).toNat - 0x100000 + 3) = none) := by decide

/-- The last byte of a scanline; no control byte; the last data byte of a literal of 72; the value byte of a repeat of 72;
the last byte of a grid. -/
theorem witness_UnwrittenBytesStopTheEngine :
    (let s := issued 1 0 72 0x1000 0 (Memory.write [] 0 (List.replicate 71 0))
     Ready .encl s.latch ∧ ([] : List (List Byte)).length < Command.encl.lines ∧ (List.replicate 71 (0 : Byte)).length < 72 ∧
       (([] : List (List Byte)).flatMap encodeLine).length ≤ s.latch.dstLen.toNat ∧
       s.mem.holds s.latch.src.toNat (([] : List (List Byte)).flatten ++ List.replicate 71 0) ∧
       s.mem.lookup (s.latch.src.toNat + (0 * 72 + 71)) = none) ∧
    (Ready .decl (issued 3 0 73 0x1000 72 []).latch ∧ ([] : List (List Group)).length < Command.decl.lines ∧
      (streamOutput []).length < 72 ∧ Memory.holds [] 0 (streamBytes []) ∧ Memory.lookup [] 0 = none) ∧
    (let m := Memory.write [] 0 ((0#1 ++ 71#7) :: List.replicate 71 0)
     m.holds 0 ((0#1 ++ 71#7) :: List.replicate 71 0) ∧ (List.replicate 71 (0 : Byte)).length < (71#7).toNat + 1 ∧
       0 + ((71#7).toNat + 1) ≤ 72 ∧ 0 + 1 + ((71#7).toNat + 1) ≤ 73 ∧ m.lookup (0 + 1 + 71) = none) ∧
    ((57#7) ≠ 0 ∧ (Memory.write [] 0 [0xB9]).lookup 0 = some (1#1 ++ 57#7) ∧ 0 + (129 - (57#7).toNat) ≤ 72 ∧ 0 + 2 ≤ 73 ∧
      (Memory.write [] 0 [0xB9]).lookup (0 + 1) = none) ∧
    (let s := issued 5 0 414720 0x70000 51840 (Memory.write [] 0 (List.replicate 414719 0xFF))
     Ready .dith s.latch ∧ (∀ i, i < 414719 → s.mem.lookup (s.latch.src.toNat + i) ≠ none) ∧
       s.mem.lookup (s.latch.src.toNat + 414719) = none) := by
  refine ⟨⟨ready_of_precheck (by decide), by decide, by decide +kernel, by decide, holds_write _ _ _, by decide +kernel⟩,
    ⟨ready_of_precheck (by decide), by decide, by decide, fun i h => absurd h (by simp [streamBytes]), rfl⟩,
    ⟨holds_write _ _ _, by decide +kernel, by decide, by decide, by decide +kernel⟩, by decide,
    ready_of_precheck (by decide), fun i hi => ?_, ?_⟩
  · refine ne_of_eq_of_ne (Memory.lookup_write [] 0 (0 + i) (List.replicate 414719 0xFF)) ?_
    rw [List.length_replicate, if_pos ⟨Nat.zero_le _, by omega⟩, List.getElem?_replicate, if_pos (by omega)]
    simp
  · refine (Memory.lookup_write [] 0 (0 + 414719) (List.replicate 414719 0xFF)).trans ?_
    rw [List.length_replicate, if_neg (by omega)]
    rfl

theorem witness_CommandWriteWhileIdleIsAccepted : State.reset.phase = .idle := rfl

theorem witness_CommandWriteWhileBusyIsLost : (issued 3 0 0 0 0 []).phase = .busy := rfl

theorem witness_SoftResetAbortsAndResets :
    (2 : Word).getLsbD 1 = true ∧ State.reset.phase = .idle ∧ (issued 3 0 0 0 0 []).phase = .busy ∧
      (issued 3 0 0 0 0 []).latch.command = some .decl := by decide

theorem witness_PowerOnGivesTheResetState :
    { State.reset with script := [.powerOn] }.script = .powerOn :: [] := rfl

/-- The first clause's completion is an illegal command's. -/
theorem witness_InterruptFollowsEnableAndDone :
    (∃ t, completionStep (issued 0 0 0 0 0 []) = .next t) ∧
    (∃ t, exec (Command.instr .decl) State.reset = .next t) ∧
    (∃ t, hostAccess 0x04 (.write .w32 2) State.reset = .next t) ∧
    ((2 : Word).getLsbD 1 = true ∧ ∃ t, hostAccess 0x08 (.write .w32 2) State.reset = .next t) ∧
    (State.reset.phase = .idle ∧ ∃ t, hostAccess 0x0C (.write .w32 2) State.reset = .next t) :=
  ⟨⟨_, rfl⟩, ⟨_, rfl⟩, ⟨_, rfl⟩, ⟨by decide, ⟨_, rfl⟩⟩, ⟨rfl, ⟨_, rfl⟩⟩⟩

theorem witness_ReadsHaveNoSideEffects : ∃ t, hostAccess 0x41 (.read .w8) State.reset = .next t := ⟨_, rfl⟩

theorem witness_SystemAddressesMapIntoTheWindow :
    Config.blockBase + 2097152 < Config.blockBase ∨ Config.blockBase + 2097152 ≤ Config.blockBase + 2097152 :=
  Or.inr (Nat.le_refl _)

theorem witness_InstancesAreIndependent :
    (0 : Nat) ≠ 1 ∧ ∃ q, stepInstance [State.reset, State.reset] 0 = .next q ∧ ∃ r, stepInstance q 1 = .next r :=
  ⟨by decide, _, rfl, _, rfl⟩

theorem witness_CompletionStepRunsTheIssuedCommand :
    let s := { issued 0x13 0 0 0 0 [] with script := [.engine] }
    s.latch.op = cmdOp 0x23 ∧ s.latch.rsv = decide (cmdRsv 0x23 ≠ 0) ∧ s.phase = .busy ∧ s.script = .engine :: [] ∧
      (issued 0x13 0 0 0 0 []).script = [] ∧ State.reset.phase = .idle ∧ State.reset.script = [] ∧
      State.reset.latch.op = cmdOp 0 ∧ State.reset.latch.rsv = decide (cmdRsv 0 ≠ 0) := by decide

theorem witness_InternalStepRunsTheGroupAtTheCursor :
    let d : Decoder := ⟨0, List.replicate 71 0, 0⟩
    let s := { decodingAt 1 (Memory.write [] 0 [0x80]) d with script := [.advance] }
    s.phase = .busy ∧ s.script = .advance :: [] ∧ s.latch.command = some .decl ∧ s.run = .decoding d ∧
      d.out.length < 72 ∧ d.cur < s.latch.srcLen.toNat ∧
      s.latch.src.toNat + s.latch.srcLen.toNat ≤ 1048576 ∧ s.mem.lookup (s.latch.src.toNat + d.cur) = some 0x80 := by
  decide

/-- A host operation that steps, one at a system address, and a power-on reset, each at the head of a script. -/
theorem witness_HostStepsHappenInOrder :
    (let s := { State.reset with script := [.host 0x04 (.write .w32 1)] }
     s.script = .host 0x04 (.write .w32 1) :: [] ∧ ∃ t, step s = .next t) ∧
    { State.reset with script := [.system 0 (.read .w8), .advance] }.script = .system 0 (.read .w8) :: [.advance] ∧
    (let s := { State.reset with script := [.powerOn, .engine] }
     s.script = .powerOn :: [.engine] ∧ ∃ t, step s = .next t) :=
  ⟨⟨rfl, _, rfl⟩, rfl, rfl, _, rfl⟩

/-- A command about to begin; an encode at its last group with just the room for it, with one byte less, at the end of its
row and after its last row; a dither at a pixel and after the last. -/
theorem witness_InternalStepsBeginEncodeAndDither :
    (let s := { issued 5 0 414720 0x70000 51840 (Memory.write [] 0 [9]) with script := [.advance] }
     s.phase = .busy ∧ s.script = .advance :: [] ∧ s.latch.command = some .dith ∧ Ready .dith s.latch ∧ s.run = .fresh ∧
       s.mem.lookup (s.latch.src.toNat + (0 * 576 + 0)) = some 9 ∧
       { s with run := .dithering (ditherStart 576 720) }.run = .dithering (ditherStart 576 720) ∧
       (ditherStart 576 720).x < 576 ∧ (ditherStart 576 720).y < 720 ∧ 720 ≤ { ditherStart 576 720 with y := 720 }.y) ∧
    (∀ dstLen ∈ [7, 8],
      let e : Encoder := ⟨0, 4, 6⟩
      let s := { issued 1 0 72 0x1000 dstLen (Memory.write [] 0 rowE6) with run := .encoding e, script := [.advance] }
      s.phase = .busy ∧ s.script = .advance :: [] ∧ s.latch.command = some .encl ∧ Ready .encl s.latch ∧
        s.run = .encoding e ∧ e.line < Command.encl.lines ∧ rowE6.length = 72 ∧
        s.mem.holds (s.latch.src.toNat + e.line * 72) rowE6 ∧
        encodeGroups rowE6 = (encodeGroups rowE6).take 3 ++ (e.pos, .rep 68 0) :: [] ∧
        (dstLen = 8 → e.written + (encodeGroup (.rep 68 0)).length ≤ s.latch.dstLen.toNat) ∧
        (dstLen = 7 → s.latch.dstLen.toNat < e.written + (encodeGroup (.rep 68 0)).length) ∧
        72 ≤ { e with pos := 72 }.pos ∧ Command.encl.lines ≤ { e with line := 1 }.line ∧
        e.written ≤ s.latch.dstLen.toNat) := by
  refine ⟨⟨rfl, rfl, rfl, ready_of_precheck (by decide), rfl, by decide, rfl, by decide, by decide, by decide⟩, ?_⟩
  intro dstLen h
  have hc : dstLen = 7 ∨ dstLen = 8 := by simpa using h
  rcases hc with rfl | rfl <;>
    exact ⟨rfl, rfl, rfl, ready_of_precheck (by decide), rfl, by decide, by decide +kernel, holds_write _ _ _,
      by decide +kernel, by decide, by decide, by decide, by decide, by decide⟩

/-- A command that is still running after one internal step and has completed after two, whose completion step answers a
next state; and one whose completion step stops on an unwritten byte. -/
theorem witness_InternalStepsAgreeWithTheCompletionStep :
    (let s := issued 3 0 0 0x1000 72 []
     s.phase = .busy ∧ s.run = .fresh ∧ s.mem.wf ∧ (∃ t, advanceTimes 1 s = .next t ∧ t.phase = .busy) ∧
       (∃ t, advanceTimes 2 s = .next t ∧ t.phase = .idle) ∧ ∃ u, completionStep s = .next u) ∧
    (let s := issued 3 0 1 0x1000 72 []
     s.phase = .busy ∧ s.run = .fresh ∧ s.mem.wf ∧ ∃ f, completionStep s = .fault f) :=
  ⟨⟨rfl, rfl, Memory.wf_nil, ⟨_, rfl, rfl⟩, ⟨_, rfl, rfl⟩, ⟨_, rfl⟩⟩, ⟨rfl, rfl, Memory.wf_nil, ⟨_, rfl⟩⟩⟩

/-- A running state that meets the invariant and steps. -/
theorem witness_EveryStepKeepsTheInvariant :
    (decodingAt 0 [] ⟨0, [], 0⟩).Inv ∧ ∃ t, step (decodingAt 0 [] ⟨0, [], 0⟩) = .next t :=
  ⟨decodingAt_inv (by decide) rfl (by decide) (by decide), _, rfl⟩

theorem witness_NoAccessFallsOutsideTheBuffer : (decodingAt 0 [] ⟨0, [], 0⟩).Inv :=
  decodingAt_inv (by decide) rfl (by decide) (by decide)

theorem witness_EngineLeavesHostFlagsAlone :
    (∃ t, completionStep (decodingAt 0 [] ⟨0, [], 0⟩) = .next t) ∧
      ∃ t, advanceStep (decodingAt 0 [] ⟨0, [], 0⟩) = .next t := ⟨⟨_, rfl⟩, ⟨_, rfl⟩⟩

theorem witness_PollingEndsWithTheCompletion :
    let s := { issued 3 0 0 0x1000 72 [] with script := [.host 0x08 (.read .w32), .host 0x101000 (.read .w8)] }
    s.phase = .busy ∧ ∀ e ∈ s.script, ∃ o w, e = Event.host o (.read w) :=
  ⟨rfl, by simp⟩

end Sys2Proof.Tests
end

/-! PROOFS of the family 10_state: what a command and a 32-bit register write answer, and the interrupt output (R44). -/

namespace Sys2Proof

open Machine

/-! ### What a step that answers has done -/

/-- A completion step that answers has completed the command (R115). -/
theorem Machine.completionStep_eq_next {s t : State} (h : completionStep s = .next t) :
    ∃ e pos line n p m, t = s.complete e pos line n p m := by
  obtain ⟨e, pos, line, n, p, m, hc⟩ | ⟨f, hf⟩ := completionStep_cases s
  · exact ⟨e, pos, line, n, p, m, Host.Outcome.next.inj (h.symm.trans hc)⟩
  · simp [hf] at h

/-- A legal command that answers has completed, with an error or without (R115, R120 to R122). -/
theorem exec_command_eq_next {c : Command} {s t : State} (h : exec c.instr s = .next t) :
    ∃ e pos line n p m, t = s.complete e pos line n p m := by
  obtain ⟨e, -, hx⟩ | ⟨out, n, -, -, -, hx⟩ | ⟨e, pos, line, -, -, hx⟩ | ⟨f, -, -, hx⟩ := exec_command_cases c s
  · exact ⟨_, _, _, _, _, _, Host.Outcome.next.inj (h.symm.trans hx)⟩
  · exact ⟨_, _, _, _, _, _, Host.Outcome.next.inj (h.symm.trans hx)⟩
  · exact ⟨_, _, _, _, _, _, Host.Outcome.next.inj (h.symm.trans hx)⟩
  · simp [hx] at h

/-- An aligned 32-bit write into the register window is performed (R64, R101). -/
theorem Machine.hostAccess_registerWrite {o : HostOffset} (hwindow : o.toNat < 0x40) (haligned : o.toNat % 4 = 0)
    (v : Word) (s : State) : hostAccess o (.write .w32 v) s = .next (s.writeRegister o.toNat v) := by
  simp [hostAccess, registerAccess, Access.width, hwindow, haligned]

theorem Machine.hostAccess_registerWrite_eq_next {o : HostOffset} {v : Word} {s t : State} (hwindow : o.toNat < 0x40)
    (haligned : o.toNat % 4 = 0) (h : hostAccess o (.write .w32 v) s = .next t) : t = s.writeRegister o.toNat v :=
  Host.Outcome.next.inj (h.symm.trans (hostAccess_registerWrite hwindow haligned v s))

/-- A CTRL write with bit 1 clear only stores IE (R23). -/
theorem Machine.State.writeControl_of_clear (s : State) {v : Word} (h : v.getLsbD 1 = false) :
    s.writeControl v = { s with regs := { s.regs with ie := v.getLsbD 0 } } := by
  simp only [State.writeControl, h, Bool.false_eq_true, if_false]

/-- A CTRL write with bit 1 set is a soft reset, made after IE is stored (R23, R232). -/
theorem Machine.State.writeControl_of_set (s : State) {v : Word} (h : v.getLsbD 1 = true) :
    s.writeControl v = State.softReset { s with regs := { s.regs with ie := v.getLsbD 0 } } := by
  simp only [State.writeControl, h, if_true]

/-! ### The interrupt output (R44) -/

namespace Machine

theorem State.irq_iff (s : State) : s.irq = true ↔ s.regs.ie = true ∧ s.regs.done = true := by
  simp [State.irq]

theorem State.irq_of_not_done {s : State} (h : s.regs.done = false) : s.irq = false := by
  simp [State.irq, h]

@[simp] theorem State.irq_complete (s : State) (e : ErrCode) (pos line n p : Nat) (m : Memory) :
    (s.complete e pos line n p m).irq = s.regs.ie := by
  simp [State.irq]

@[simp] theorem State.irq_softReset (s : State) : s.softReset.irq = false := State.irq_of_not_done rfl

@[simp] theorem State.irq_powerOnReset (s : State) : s.powerOnReset.irq = false := State.irq_of_not_done rfl

/-- A CTRL write raises IRQ where it sets IE while DONE is up, unless it is also a soft reset (R23, R232). -/
theorem State.irq_writeControl (s : State) (v : Word) :
    (s.writeControl v).irq = (s.regs.done && v.getLsbD 0 && !v.getLsbD 1) := by
  cases hreset : v.getLsbD 1 with
  | true => rw [s.writeControl_of_set hreset, State.irq_softReset, Bool.not_true, Bool.and_false]
  | false =>
    rw [s.writeControl_of_clear hreset, Bool.not_false, Bool.and_true]
    exact Bool.and_comm _ _

/-- A STATUS write with bit 1 set clears DONE (R24). -/
theorem Regs.writeStatus_done_of_set (r : Regs) {v : Word} (h : v.getLsbD 1 = true) : (r.writeStatus v).done = false := by
  simp [writeOneClears, h]

end Machine

end Sys2Proof

namespace Sys2Proof.Proofs

open Sys2Proof Sys2Proof.Machine

/-- Settles O46: a completion raises DONE and keeps IE; each of the register writes and resets acts on IE and DONE as its
own rule says. -/
theorem interruptFollowsEnableAndDone : Obligations.InterruptFollowsEnableAndDone := by
  intro s v
  refine ⟨s.irq_iff, ?completion, ?command, ?control, ?status, ?issue, s.irq_powerOnReset⟩
  case completion =>
    intro t h
    obtain ⟨e, pos, line, n, p, m, rfl⟩ := completionStep_eq_next h
    exact s.irq_complete e pos line n p m
  case command =>
    intro c t h
    obtain ⟨e, pos, line, n, p, m, rfl⟩ := exec_command_eq_next h
    exact s.irq_complete e pos line n p m
  case control =>
    intro t h
    obtain rfl := hostAccess_registerWrite_eq_next (by decide) (by decide) h
    exact s.irq_writeControl v
  case status =>
    intro t hclear h
    obtain rfl := hostAccess_registerWrite_eq_next (by decide) (by decide) h
    exact State.irq_of_not_done (s.regs.writeStatus_done_of_set hclear)
  case issue =>
    intro t hidle h
    obtain rfl := hostAccess_registerWrite_eq_next (by decide) (by decide) h
    have haccept : s.writeRegister 0x0C v = s.accept v := State.issue_idle hidle v
    have hdone : (s.writeRegister 0x0C v).regs.done = false := by rw [haccept, State.accept_done]
    exact State.irq_of_not_done hdone

end Sys2Proof.Proofs

/-! PROOFS of the family 40_command_interface: the CMD write, by phase (R113, R114). -/

namespace Sys2Proof

/-- OP is the word's low four bits (R80). -/
theorem cmdOp_eq_ofNat (v : Word) : cmdOp v = BitVec.ofNat 4 v.toNat := by
  apply BitVec.eq_of_toNat_eq
  simp [cmdOp]

/-- The reserved bits, all above the low four, are not all 0 exactly when the word is at least 16 (R80). -/
theorem cmdRsv_ne_zero_iff (v : Word) : cmdRsv v ≠ 0 ↔ 16 ≤ v.toNat := by
  have hfield : (cmdRsv v).toNat = v.toNat / 16 := by
    rw [cmdRsv, BitVec.extractLsb'_toNat, Nat.shiftRight_eq_div_pow]
    have := v.isLt
    omega
  have hzero : cmdRsv v = 0 ↔ v.toNat / 16 = 0 := by
    rw [← BitVec.toNat_inj, hfield]
    rfl
  rw [ne_eq, hzero]
  omega

namespace Machine

/-- A CMD write is performed in either phase (R64, R101). -/
theorem hostAccess_commandWrite (v : Word) (s : State) : hostAccess 0x0C (.write .w32 v) s = .next (s.issue v) :=
  hostAccess_registerWrite (by decide) (by decide) v s

/-- The latch's fields in terms of the number written (R40, R113). -/
theorem State.capture_eq (s : State) (v : Word) :
    s.capture v =
      { op := BitVec.ofNat 4 v.toNat
        rsv := decide (16 ≤ v.toNat)
        src := s.regs.srcAddr
        srcLen := s.regs.srcLen
        dst := s.regs.dstAddr
        dstLen := s.regs.dstLen
        gridW := s.regs.gridW
        gridH := s.regs.gridH } := by
  simp only [State.capture, cmdOp_eq_ofNat, cmdRsv_ne_zero_iff]

end Machine

end Sys2Proof

namespace Sys2Proof.Proofs

open Sys2Proof Sys2Proof.Machine

/-- Settles O42: an idle block accepts the word, and the latch it captures has the word's fields. -/
theorem commandWriteWhileIdleIsAccepted : Obligations.CommandWriteWhileIdleIsAccepted := by
  intro s v hidle
  rw [hostAccess_commandWrite, State.issue_idle hidle, ← State.capture_eq]
  rfl

/-- Settles O43: a busy block answers the word by setting LOST. -/
theorem commandWriteWhileBusyIsLost : Obligations.CommandWriteWhileBusyIsLost := by
  intro s v hbusy
  rw [hostAccess_commandWrite, State.issue_busy hbusy]

end Sys2Proof.Proofs

/-! PROOFS of the family 41_rle_encode: the groups of a byte list and where they stand (R132 to R135), and the way back
through the decoder (R136). -/

namespace Sys2Proof

/-! ### Control bytes (R86, R87) -/

theorem ctrlField_toNat (c : Byte) : (ctrlField c).toNat = c.toNat % 128 := by
  simp [ctrlField]

/-- The control byte of a literal of `n` bytes (R87). -/
theorem literalControl_toNat {n : Nat} (h : n ≤ 128) : (BitVec.ofNat 8 (n - 1)).toNat = n - 1 := by
  rw [BitVec.toNat_ofNat]
  omega

/-- The control byte of a repeat of `n` bytes (R87). -/
theorem repeatControl_toNat {n : Nat} (h : 2 ≤ n) : (BitVec.ofNat 8 (257 - n)).toNat = 257 - n := by
  rw [BitVec.toNat_ofNat]
  omega

theorem literalControl_ne_nop {n : Nat} (h : n ≤ 128) : BitVec.ofNat 8 (n - 1) ≠ 0x80 := by
  intro hnop
  have hval : n - 1 = 128 := (literalControl_toNat h).symm.trans (congrArg BitVec.toNat hnop)
  omega

theorem repeatControl_ne_nop {n : Nat} (h : 2 ≤ n ∧ n ≤ 128) : BitVec.ofNat 8 (257 - n) ≠ 0x80 := by
  intro hnop
  have hval : 257 - n = 128 := (repeatControl_toNat h.1).symm.trans (congrArg BitVec.toNat hnop)
  omega

theorem litLength_literalControl {n : Nat} (h : 1 ≤ n) (h' : n ≤ 128) :
    litLength (ctrlField (BitVec.ofNat 8 (n - 1))) = n := by
  rw [litLength, ctrlField_toNat, literalControl_toNat h']
  omega

theorem repLength_repeatControl {n : Nat} (h : 2 ≤ n ∧ n ≤ 128) :
    repLength (ctrlField (BitVec.ofNat 8 (257 - n))) = n := by
  rw [repLength, ctrlField_toNat, repeatControl_toNat h.1]
  omega

@[simp] theorem Group.wellFormed_lit_iff {data : List Byte} :
    (Group.lit data).wellFormed = true ↔ 1 ≤ data.length ∧ data.length ≤ 128 := by
  simp [Group.wellFormed]

@[simp] theorem Group.wellFormed_rep_iff {n : Nat} {v : Byte} :
    (Group.rep n v).wellFormed = true ↔ 2 ≤ n ∧ n ≤ 128 := by
  simp [Group.wellFormed]

/-- A well-formed group other than NOP stands for at least one byte (R87). -/
theorem Group.expand_length_pos {g : Group} (hwf : g.wellFormed = true) (hnop : g ≠ .nop) : 1 ≤ g.expand.length := by
  cases g with
  | lit data => exact (wellFormed_lit_iff.1 hwf).1
  | nop => exact absurd rfl hnop
  | rep n v =>
    have := wellFormed_rep_iff.1 hwf
    simp only [expand, List.length_replicate]
    omega

namespace Machine

/-! ### Pairs of equal bytes -/

/-- Bytes `i` and `i + 1` of `s` are there and are equal. -/
def pairAt (s : List Byte) (i : Nat) : Prop := ∃ b, s[i]? = some b ∧ s[i + 1]? = some b

@[simp] theorem pairAt_cons_succ (b : Byte) (s : List Byte) (i : Nat) : pairAt (b :: s) (i + 1) ↔ pairAt s i := by
  simp [pairAt]

@[simp] theorem pairAt_cons_cons_zero (a b : Byte) (s : List Byte) : pairAt (a :: b :: s) 0 ↔ a = b := by
  simp [pairAt, eq_comm]

@[simp] theorem pairAt_drop (s : List Byte) (k i : Nat) : pairAt (s.drop k) i ↔ pairAt s (k + i) := by
  simp [pairAt, List.getElem?_drop, Nat.add_assoc]

theorem not_pairAt_singleton (b : Byte) (i : Nat) : ¬ pairAt [b] i := by
  simp [pairAt]

theorem inRun_iff_pairAt (s : List Byte) (i : Nat) : inRun s i ↔ pairAt s i ∨ 1 ≤ i ∧ pairAt s (i - 1) := by
  cases i with
  | zero => simp [inRun, pairAt]
  | succ i => simp [inRun, pairAt, and_or_left, exists_or, and_comm]

/-! ### The two loops of the encoder (R132) -/

/-- No pair begins in the bytes a literal run takes. -/
theorem not_pairAt_of_lt_literalCount {s : List Byte} {cap i : Nat} (h : i < literalCount s cap) : ¬ pairAt s i := by
  fun_induction literalCount s cap generalizing i with
  | case1 => omega
  | case2 => omega
  | case3 b => exact not_pairAt_singleton b i
  | case4 => omega
  | case5 b b' bs cap hne ih =>
    cases i with
    | zero => simpa using hne
    | succ i => simpa using ih (by omega)

/-- A literal run ends at its cap, at the end of the bytes, or before a pair. -/
theorem literalCount_stops (s : List Byte) (cap : Nat) :
    literalCount s cap = cap ∨ literalCount s cap = s.length ∨ pairAt s (literalCount s cap) := by
  fun_induction literalCount s cap with
  | case1 => simp
  | case2 => simp
  | case3 => simp
  | case4 => simp
  | case5 b b' bs cap hne ih => simpa using ih

/-- A repeat run ends at its cap or before a byte that differs or is not there. -/
theorem sameCount_stops (v : Byte) (s : List Byte) (cap : Nat) :
    sameCount v s cap = cap ∨ s[sameCount v s cap]? ≠ some v := by
  fun_induction sameCount v s cap with
  | case1 => simp
  | case2 => simp
  | case3 bs cap ih => simpa using ih
  | case4 b bs cap hne => simpa using hne

/-! ### One group (R132) -/

/-- A group covers as many bytes as it stands for. -/
theorem nextGroup_snd (s : List Byte) : (nextGroup s).2 = (nextGroup s).1.expand.length := by
  cases s with
  | nil => rfl
  | cons b s =>
    obtain ⟨-, -, hle, hexpand⟩ := nextGroup_covers b s
    rw [hexpand, List.length_take, Nat.min_eq_left hle]

/-- A group stands for the bytes it covers. -/
theorem nextGroup_expand (s : List Byte) : (nextGroup s).1.expand = s.take (nextGroup s).1.expand.length := by
  cases s with
  | nil => rfl
  | cons b s =>
    rw [← nextGroup_snd]
    exact (nextGroup_covers b s).2.2.2

theorem nextGroup_cons_cons_self (a : Byte) (s : List Byte) :
    (nextGroup (a :: a :: s)).1 = .rep (sameCount a s 126 + 2) a := by
  rw [nextGroup, if_pos rfl]
  rfl

theorem nextGroup_cons_cons_of_ne {a b : Byte} (h : a ≠ b) (s : List Byte) :
    (nextGroup (a :: b :: s)).1 = .lit ((a :: b :: s).take (literalCount (b :: s) 127 + 1)) := by
  simp [nextGroup, h]

/-- No pair begins in a literal group, and the group ends at the cap, at the end of the bytes, or before a pair. -/
theorem nextGroup_lit {s data : List Byte} (h : (nextGroup s).1 = .lit data) :
    (∀ i < data.length, ¬ pairAt s i) ∧ (data.length = 128 ∨ s.length ≤ data.length ∨ pairAt s data.length) := by
  match s with
  | [] => cases h
  | [a] =>
    cases h
    exact ⟨fun i _ => not_pairAt_singleton a i, by simp⟩
  | a :: b :: s =>
    by_cases hab : a = b
    · subst hab
      simp [nextGroup_cons_cons_self] at h
    · have hcount := (literalCount_le (b :: s) 127).2
      have hlen : data.length = literalCount (b :: s) 127 + 1 := by
        rw [nextGroup_cons_cons_of_ne hab] at h
        cases h
        rw [List.length_take, List.length_cons]
        omega
      rw [hlen]
      refine ⟨fun i hi => ?_, ?_⟩
      · cases i with
        | zero => simpa using hab
        | succ i => simpa using not_pairAt_of_lt_literalCount (by omega : i < literalCount (b :: s) 127)
      · rw [pairAt_cons_succ, List.length_cons]
        exact (literalCount_stops (b :: s) 127).imp (by omega) (Or.imp_left (by omega))

/-- A repeat group ends at the cap or before a byte that differs or is not there. -/
theorem nextGroup_rep {s : List Byte} {count : Nat} {v : Byte} (h : (nextGroup s).1 = .rep count v) :
    count = 128 ∨ s[count]? ≠ some v := by
  match s with
  | [] => cases h
  | [a] => cases h
  | a :: b :: s =>
    by_cases hab : a = b
    · subst hab
      rw [nextGroup_cons_cons_self] at h
      obtain ⟨rfl, rfl⟩ := Group.rep.inj h
      exact (sameCount_stops a s 126).imp_left (by omega)
    · simp [nextGroup_cons_cons_of_ne hab] at h

/-! ### Where the groups stand (R132) -/

theorem length_drop_nextGroup_le {fuel : Nat} {b : Byte} {s : List Byte} (hfuel : (b :: s).length ≤ fuel + 1) :
    ((b :: s).drop (nextGroup (b :: s)).2).length ≤ fuel := by
  have := (nextGroup_covers b s).1
  rw [List.length_drop]
  omega

/-- What stands before and after one group: the bytes the group takes begin at its index, and the groups after it are the
groups of the bytes after it. -/
theorem encodeFrom_eq_append {fuel k j : Nat} {s : List Byte} {pre post : List (Nat × Group)} {g : Group}
    (hfuel : s.length ≤ fuel) (h : encodeFrom fuel k s = pre ++ (j, g) :: post) :
    ∃ i fuel', j = k + i ∧ i < s.length ∧ g = (nextGroup (s.drop i)).1 ∧
      (s.drop (i + g.expand.length)).length ≤ fuel' ∧
      post = encodeFrom fuel' (j + g.expand.length) (s.drop (i + g.expand.length)) := by
  induction fuel generalizing k s pre with
  | zero => simp [encodeFrom] at h
  | succ fuel ih =>
    match s, pre with
    | [], _ => simp [encodeFrom] at h
    | b :: s, [] =>
      simp only [encodeFrom, List.nil_append, List.cons.injEq, Prod.mk.injEq] at h
      obtain ⟨⟨rfl, rfl⟩, rfl⟩ := h
      have hdrop := length_drop_nextGroup_le hfuel
      rw [nextGroup_snd] at hdrop ⊢
      exact ⟨0, fuel, rfl, Nat.zero_lt_succ _, rfl, by rwa [Nat.zero_add], by rw [Nat.zero_add]⟩
    | b :: s, p :: pre =>
      simp only [encodeFrom, List.cons_append, List.cons.injEq] at h
      obtain ⟨i, fuel', hj, hi, hg, hfuel', hpost⟩ := ih (length_drop_nextGroup_le hfuel) h.2
      rw [List.drop_drop] at hg
      rw [List.drop_drop, ← Nat.add_assoc] at hfuel' hpost
      rw [List.length_drop] at hi
      exact ⟨(nextGroup (b :: s)).2 + i, fuel', by omega, by omega, hg, hfuel', hpost⟩

/-- The groups of bytes that are there begin at the position given. -/
theorem encodeFrom_eq_cons {fuel k : Nat} {s : List Byte} (hs : s ≠ []) (hfuel : s.length ≤ fuel) :
    ∃ g post, encodeFrom fuel k s = (k, g) :: post := by
  match fuel, s with
  | _, [] => exact absurd rfl hs
  | 0, _ :: _ => simp at hfuel
  | _ + 1, _ :: _ => exact ⟨_, _, rfl⟩

theorem encodeFrom_head {fuel k : Nat} {s : List Byte} {p : Nat × Group} {post : List (Nat × Group)}
    (h : encodeFrom fuel k s = p :: post) : p.1 = k := by
  match fuel, s with
  | 0, _ => simp [encodeFrom] at h
  | _ + 1, [] => simp [encodeFrom] at h
  | _ + 1, _ :: _ =>
    cases h
    rfl

/-- Every byte lies in a group. -/
theorem encodeFrom_covers {fuel k i : Nat} {s : List Byte} (hfuel : s.length ≤ fuel) (hi : i < s.length) :
    ∃ j g, (j, g) ∈ encodeFrom fuel k s ∧ j ≤ k + i ∧ k + i < j + g.expand.length := by
  induction fuel generalizing k i s with
  | zero => omega
  | succ fuel ih =>
    match s with
    | [] => simp at hi
    | b :: s =>
      by_cases hin : i < (nextGroup (b :: s)).2
      · rw [nextGroup_snd] at hin
        exact ⟨k, _, List.mem_cons_self, by omega, by omega⟩
      · obtain ⟨j, g, hmem, hle, hlt⟩ := ih (k := k + (nextGroup (b :: s)).2) (i := i - (nextGroup (b :: s)).2)
          (length_drop_nextGroup_le hfuel) (by rw [List.length_drop]; omega)
        exact ⟨j, g, List.mem_cons_of_mem _ hmem, by omega, by omega⟩

section

variable {s : List Byte} {k : Nat} {g : Group}

theorem encodeGroups_covers {i : Nat} (hi : i < s.length) :
    ∃ k g, (k, g) ∈ encodeGroups s ∧ k ≤ i ∧ i < k + g.expand.length := by
  simpa [encodeGroups] using encodeFrom_covers (k := 0) (Nat.le_refl _) hi

theorem encodeGroups_start (hs : s ≠ []) : ∃ g, (0, g) ∈ encodeGroups s := by
  obtain ⟨g, post, h⟩ := encodeFrom_eq_cons (k := 0) hs (Nat.le_refl _)
  exact ⟨g, by rw [encodeGroups, h]; exact List.mem_cons_self⟩

/-- Each group is the next group of the bytes from its index on. -/
theorem eq_nextGroup_of_mem (h : (k, g) ∈ encodeGroups s) : k < s.length ∧ g = (nextGroup (s.drop k)).1 := by
  obtain ⟨pre, post, hsplit⟩ := List.append_of_mem h
  obtain ⟨i, -, hk, hi, hg, -⟩ := encodeFrom_eq_append (Nat.le_refl _) hsplit
  obtain rfl : k = i := by omega
  exact ⟨hi, hg⟩

/-- Where a group ends before the bytes do, another begins. -/
theorem encodeGroups_next (h : (k, g) ∈ encodeGroups s) (hend : k + g.expand.length < s.length) :
    ∃ g', (k + g.expand.length, g') ∈ encodeGroups s := by
  obtain ⟨pre, post, hsplit⟩ := List.append_of_mem h
  obtain ⟨i, fuel, hk, -, -, hfuel, hpost⟩ := encodeFrom_eq_append (Nat.le_refl _) hsplit
  obtain rfl : k = i := by omega
  obtain ⟨g', post', hcons⟩ := encodeFrom_eq_cons (k := k + g.expand.length) (by simpa using hend) hfuel
  refine ⟨g', ?_⟩
  rw [hsplit, hpost, hcons]
  simp

/-- A group begins where the one before it ends. -/
theorem encodeGroups_adjacent {pre post : List (Nat × Group)} {k' : Nat} {g' : Group}
    (h : encodeGroups s = pre ++ (k, g) :: (k', g') :: post) : k' = k + g.expand.length := by
  obtain ⟨_, _, -, -, -, -, hpost⟩ := encodeFrom_eq_append (Nat.le_refl _) h
  exact encodeFrom_head hpost.symm

theorem wellFormed_of_mem (h : (k, g) ∈ encodeGroups s) : g.wellFormed = true ∧ g ≠ .nop :=
  encodeFrom_groups _ _ _ _ h

/-- A group stands for the bytes from its index on. -/
theorem expand_eq_of_mem (h : (k, g) ∈ encodeGroups s) : g.expand = (s.drop k).take g.expand.length := by
  obtain ⟨-, rfl⟩ := eq_nextGroup_of_mem h
  exact nextGroup_expand _

theorem getElem?_expand_of_mem (h : (k, g) ∈ encodeGroups s) {i : Nat} (hi : i < g.expand.length) :
    g.expand[i]? = s[k + i]? := by
  rw [expand_eq_of_mem h, List.getElem?_take_of_lt hi, List.getElem?_drop]

theorem end_le_of_mem (h : (k, g) ∈ encodeGroups s) : k + g.expand.length ≤ s.length := by
  have hk := (eq_nextGroup_of_mem h).1
  have hlen := congrArg List.length (expand_eq_of_mem h)
  rw [List.length_take, List.length_drop] at hlen
  omega

/-! ### Literal groups -/

section

variable {data : List Byte} (h : (k, Group.lit data) ∈ encodeGroups s)

include h

theorem not_pairAt_of_mem_lit {i : Nat} (hk : k ≤ i) (hi : i < k + data.length) : ¬ pairAt s i := by
  have := (nextGroup_lit (eq_nextGroup_of_mem h).2.symm).1 (i - k) (by omega)
  rwa [pairAt_drop, Nat.add_sub_cancel' hk] at this

theorem lit_stops : data.length = 128 ∨ s.length ≤ k + data.length ∨ pairAt s (k + data.length) := by
  have := (nextGroup_lit (eq_nextGroup_of_mem h).2.symm).2
  rw [pairAt_drop, List.length_drop] at this
  exact this.imp_right (Or.imp_left (by omega))

theorem getElem?_lit {i : Nat} (hi : i < data.length) : data[i]? = s[k + i]? :=
  getElem?_expand_of_mem h hi

end

/-! ### Repeat groups -/

section

variable {count : Nat} {v : Byte} (h : (k, Group.rep count v) ∈ encodeGroups s)

include h

theorem rep_count : 2 ≤ count ∧ count ≤ 128 := Group.wellFormed_rep_iff.1 (wellFormed_of_mem h).1

theorem rep_stops : count = 128 ∨ s[k + count]? ≠ some v := by
  have := nextGroup_rep (eq_nextGroup_of_mem h).2.symm
  rwa [List.getElem?_drop] at this

theorem getElem?_rep {i : Nat} (hk : k ≤ i) (hi : i < k + count) : s[i]? = some v := by
  have := getElem?_expand_of_mem h (i := i - k) (by simp only [Group.expand, List.length_replicate]; omega)
  rw [Nat.add_sub_cancel' hk] at this
  simpa [Group.expand, show i - k < count by omega] using this.symm

theorem pairAt_rep {i : Nat} (hk : k ≤ i) (hi : i + 1 < k + count) : pairAt s i :=
  ⟨v, getElem?_rep h hk (by omega), getElem?_rep h (by omega) hi⟩

/-- Every byte of a repeat group lies in a run. -/
theorem inRun_rep {i : Nat} (hk : k ≤ i) (hi : i < k + count) : inRun s i := by
  have hcount := rep_count h
  rw [inRun_iff_pairAt]
  by_cases hlast : i + 1 < k + count
  · exact Or.inl (pairAt_rep h hk hlast)
  · exact Or.inr ⟨by omega, pairAt_rep h (by omega) (by omega)⟩

end

/-- A pair begins in a repeat group. -/
theorem exists_rep_of_pairAt {i : Nat} (hpair : pairAt s i) :
    ∃ k count v, (k, Group.rep count v) ∈ encodeGroups s ∧ k ≤ i ∧ i < k + count := by
  obtain ⟨b, hb, -⟩ := id hpair
  obtain ⟨k, g, hmem, hk, hi⟩ := encodeGroups_covers (List.getElem?_eq_some_iff.1 hb).1
  cases g with
  | lit data => exact absurd hpair (not_pairAt_of_mem_lit hmem hk hi)
  | nop => exact absurd rfl (wellFormed_of_mem hmem).2
  | rep count v => exact ⟨k, count, v, hmem, hk, by simpa [Group.expand] using hi⟩

/-! ### Maximal runs (R134) -/

end

/-- Bytes `p` to `p + m - 1` of `s` are all `v`, and no byte beside them is. -/
structure MaximalRun (s : List Byte) (p m : Nat) (v : Byte) : Prop where
  inside : ∀ i, p ≤ i → i < p + m → s[i]? = some v
  after : s[p + m]? ≠ some v
  before : 1 ≤ p → s[p - 1]? ≠ some v

theorem maximalRun_of_eq_append {s before after : List Byte} {v : Byte} {m : Nat}
    (hs : s = before ++ List.replicate m v ++ after) (hbefore : before.getLast? ≠ some v)
    (hafter : after.head? ≠ some v) : MaximalRun s before.length m v := by
  subst hs
  refine ⟨fun i hp hi => ?_, ?_, fun hp => ?_⟩
  · rw [List.append_assoc, List.getElem?_append_right hp,
      List.getElem?_append_left (by rw [List.length_replicate]; omega)]
    exact List.getElem?_replicate_of_lt (by omega)
  · rw [List.getElem?_append_right (by simp)]
    simpa [List.head?_eq_getElem?] using hafter
  · rw [List.append_assoc, List.getElem?_append_left (by omega), ← List.getLast?_eq_getElem?]
    exact hbefore

section

variable {s : List Byte} {p m : Nat} {v : Byte} (h : MaximalRun s p m v)

include h

theorem MaximalRun.lt_length {i : Nat} (hi : i < m) : p + i < s.length :=
  (List.getElem?_eq_some_iff.1 (h.inside (p + i) (by omega) (by omega))).1

theorem MaximalRun.pairAt {i : Nat} (hi : i + 2 ≤ m) : pairAt s (p + i) :=
  ⟨v, h.inside _ (by omega) (by omega), h.inside _ (by omega) (by omega)⟩

/-- A group begins at the first byte of a maximal run. -/
theorem MaximalRun.start (hm : 2 ≤ m) : ∃ g, (p, g) ∈ encodeGroups s := by
  obtain ⟨k, count, w, hmem, hk, hp⟩ := exists_rep_of_pairAt (h.pairAt (i := 0) hm)
  obtain rfl | hlt := hk.eq_or_lt
  · exact ⟨_, hmem⟩
  · have hw : some w = some v := (getElem?_rep hmem hk hp).symm.trans (h.inside p (Nat.le_refl p) (by omega))
    have hprev : s[p - 1]? = some w := getElem?_rep hmem (by omega) (by omega)
    exact absurd (hprev.trans hw) (h.before (by omega))

/-- A group that begins in a maximal run before its last byte repeats what is left of the run, up to the cap. -/
theorem MaximalRun.eq_rep_of_mem {d : Nat} {g : Group} (hd : d + 2 ≤ m) (hmem : (p + d, g) ∈ encodeGroups s) :
    g = .rep (min 128 (m - d)) v := by
  cases g with
  | lit data =>
    have hpos := Group.expand_length_pos (wellFormed_of_mem hmem).1 (wellFormed_of_mem hmem).2
    exact absurd (h.pairAt hd) (not_pairAt_of_mem_lit hmem (Nat.le_refl _) (Nat.lt_add_of_pos_right hpos))
  | nop => exact absurd rfl (wellFormed_of_mem hmem).2
  | rep count w =>
    have hcount := rep_count hmem
    have hw : some w = some v :=
      (getElem?_rep hmem (Nat.le_refl _) (by omega)).symm.trans (h.inside (p + d) (by omega) (by omega))
    obtain rfl := Option.some.inj hw
    have hle : count ≤ m - d := by
      by_contra hgt
      exact h.after (getElem?_rep hmem (by omega) (by omega))
    have hstop : count = 128 ∨ m - d ≤ count :=
      (rep_stops hmem).imp_right fun hne => by
        by_contra hlt
        exact hne (h.inside _ (by omega) (by omega))
    rw [show count = min 128 (m - d) by omega]

/-- A maximal run is repeat groups of 128 bytes and one for the rest, where the rest is not a single byte. -/
theorem MaximalRun.rep_mem (j : Nat) (hj : 128 * j + 2 ≤ m) :
    (p + 128 * j, Group.rep (min 128 (m - 128 * j)) v) ∈ encodeGroups s := by
  have hstart : ∃ g, (p + 128 * j, g) ∈ encodeGroups s := by
    induction j with
    | zero => exact h.start hj
    | succ j ih =>
      obtain ⟨g, hmem⟩ := ih (by omega)
      have hlen : g.expand.length = 128 := by
        rw [h.eq_rep_of_mem (by omega) hmem, Group.expand, List.length_replicate]
        omega
      have hlt : p + 128 * (j + 1) < s.length := h.lt_length (by omega)
      obtain ⟨g', hnext⟩ := encodeGroups_next hmem (by omega)
      exact ⟨g', by rwa [hlen, Nat.add_assoc, ← Nat.mul_succ] at hnext⟩
  obtain ⟨g, hmem⟩ := hstart
  rwa [h.eq_rep_of_mem hj hmem] at hmem

/-- A maximal run of at most 128 bytes is one repeat group. -/
theorem MaximalRun.rep_mem_of_le (hm : 2 ≤ m) (hm' : m ≤ 128) : (p, Group.rep m v) ∈ encodeGroups s := by
  simpa [hm'] using h.rep_mem 0 hm

/-- A single byte left of a maximal run begins a literal group. -/
theorem MaximalRun.lit_mem (hm : 128 < m) (hmod : m % 128 = 1) :
    ∃ data, (p + (m - 1), Group.lit (v :: data)) ∈ encodeGroups s := by
  have hrep := h.rep_mem ((m - 1) / 128 - 1) (by omega)
  have hlt := h.lt_length (i := m - 1) (by omega)
  have hend : p + 128 * ((m - 1) / 128 - 1) +
      (Group.rep (min 128 (m - 128 * ((m - 1) / 128 - 1))) v).expand.length = p + (m - 1) := by
    rw [Group.expand, List.length_replicate]
    omega
  obtain ⟨g, hmem⟩ := encodeGroups_next hrep (by omega)
  rw [hend] at hmem
  cases g with
  | lit data =>
    cases data with
    | nil => simpa using (wellFormed_of_mem hmem).1
    | cons w data =>
      have hw : some w = some v := (getElem?_lit hmem (i := 0) (by simp)).trans (h.inside _ (by omega) (by omega))
      obtain rfl := Option.some.inj hw
      exact ⟨data, hmem⟩
  | nop => exact absurd rfl (wellFormed_of_mem hmem).2
  | rep count w =>
    have hcount := rep_count hmem
    have hw : some w = some v :=
      (getElem?_rep hmem (Nat.le_refl _) (by omega)).symm.trans (h.inside _ (by omega) (by omega))
    refine absurd ?_ h.after
    rw [← hw]
    exact getElem?_rep hmem (by omega) (by omega)

end

/-! ### Stretches between runs (R135) -/

/-- Bytes `p` to `p + n - 1` of `s` lie in no run, and any byte beside them does. -/
structure MaximalStretch (s : List Byte) (p n : Nat) : Prop where
  pos : 1 ≤ n
  le_length : p + n ≤ s.length
  inside : ∀ i, p ≤ i → i < p + n → ¬ inRun s i
  before : 1 ≤ p → inRun s (p - 1)
  after : p + n < s.length → inRun s (p + n)

/-- The caps of 128 bytes do not bind on the encoding of `s`. -/
def CapsUnused (s : List Byte) : Prop := ∀ k g, (k, g) ∈ encodeGroups s → g.expand.length < 128

theorem capsUnused_of_length_lt {s : List Byte} (hs : s.length < 128) : CapsUnused s := fun k g hmem => by
  have := end_le_of_mem hmem
  omega

section

variable {s : List Byte} {p n : Nat} (hcaps : CapsUnused s)

include hcaps

/-- Where the caps do not bind, every byte of a run lies in a repeat group. -/
theorem exists_rep_of_inRun {i : Nat} (hrun : inRun s i) :
    ∃ k count v, (k, Group.rep count v) ∈ encodeGroups s ∧ k ≤ i ∧ i < k + count := by
  obtain hpair | ⟨hi, hpair⟩ := (inRun_iff_pairAt s i).1 hrun
  · exact exists_rep_of_pairAt hpair
  · obtain ⟨k, count, v, hmem, hk, hlt⟩ := exists_rep_of_pairAt hpair
    have hcount : count < 128 := by simpa [Group.expand] using hcaps _ _ hmem
    obtain ⟨b, hb, hb'⟩ := hpair
    rw [Nat.sub_add_cancel hi] at hb'
    have hv : some v = some b := (getElem?_rep hmem hk hlt).symm.trans hb
    have hne : i ≠ k + count := by
      rintro rfl
      exact (rep_stops hmem).elim (by omega) (· (hb'.trans hv.symm))
    exact ⟨k, count, v, hmem, by omega, by omega⟩

/-- Where the caps do not bind, a group begins at the first byte of a maximal stretch. -/
theorem MaximalStretch.start (h : MaximalStretch s p n) : ∃ g, (p, g) ∈ encodeGroups s := by
  have hpos := h.pos
  have hle := h.le_length
  obtain rfl | hp := Nat.eq_zero_or_pos p
  · exact encodeGroups_start (List.ne_nil_of_length_pos (by omega))
  · obtain ⟨k, count, v, hmem, hk, hlt⟩ := exists_rep_of_inRun hcaps (h.before hp)
    have hend : k + (Group.rep count v).expand.length = p := by
      have : ¬ p < k + count := fun hlt' => h.inside p (Nat.le_refl p) (by omega) (inRun_rep hmem (by omega) hlt')
      rw [Group.expand, List.length_replicate]
      omega
    obtain ⟨g, hnext⟩ := encodeGroups_next hmem (by omega)
    exact ⟨g, by rwa [hend] at hnext⟩

/-- Where the caps do not bind, a maximal stretch is one literal group. -/
theorem MaximalStretch.lit_mem (h : MaximalStretch s p n) : (p, Group.lit ((s.drop p).take n)) ∈ encodeGroups s := by
  have hn := h.pos
  have hle := h.le_length
  obtain ⟨g, hmem⟩ := h.start hcaps
  cases g with
  | nop => exact absurd rfl (wellFormed_of_mem hmem).2
  | rep count v =>
    have hcount := rep_count hmem
    exact absurd (inRun_rep hmem (Nat.le_refl p) (by omega)) (h.inside p (Nat.le_refl p) (by omega))
  | lit data =>
    have hcap : data.length < 128 := hcaps _ _ hmem
    have hend : p + data.length ≤ s.length := end_le_of_mem hmem
    have hnotlong : data.length ≤ n := by
      by_contra hlong
      obtain hpair | ⟨-, hpair⟩ := (inRun_iff_pairAt s _).1 (h.after (by omega))
      · exact not_pairAt_of_mem_lit hmem (by omega) (by omega) hpair
      · exact not_pairAt_of_mem_lit hmem (by omega) (by omega) hpair
    have hnotshort : n ≤ data.length := by
      by_contra hshort
      obtain hmax | hall | hpair := lit_stops hmem
      · omega
      · omega
      · exact h.inside _ (by omega) (by omega) ((inRun_iff_pairAt s _).2 (Or.inl hpair))
    have hdata : data = (s.drop p).take data.length := expand_eq_of_mem hmem
    rwa [← Nat.le_antisymm hnotlong hnotshort, ← hdata]

end

theorem maximalStretch_of_eq_append {s before stretch after : List Byte} (hs : s = before ++ stretch ++ after)
    (hne : stretch ≠ [])
    (hinside : ∀ i, before.length ≤ i → i < before.length + stretch.length → ¬ inRun s i)
    (hbefore : before ≠ [] → inRun s (before.length - 1))
    (hafter : after ≠ [] → inRun s (before.length + stretch.length)) :
    MaximalStretch s before.length stretch.length where
  pos := List.length_pos_iff.2 hne
  le_length := by simp [hs]
  inside := hinside
  before hp := hbefore (List.ne_nil_of_length_pos hp)
  after hlt := hafter (by
    rintro rfl
    simp [hs] at hlt)

/-! ### The decoder on the bytes of groups (R136, R155) -/

theorem readBytes_cons_iff {rd : Nat → Except Fault Byte} {k n : Nat} {b : Byte} {bs : List Byte} :
    readBytes rd k (n + 1) = .ok (b :: bs) ↔ rd k = .ok b ∧ readBytes rd (k + 1) n = .ok bs := by
  rw [readBytes]
  cases rd k with
  | error f => simp
  | ok c => cases readBytes rd (k + 1) n <;> simp

theorem readBytes_append_iff {rd : Nat → Except Fault Byte} {k : Nat} {bs cs : List Byte} :
    readBytes rd k (bs ++ cs).length = .ok (bs ++ cs) ↔
      readBytes rd k bs.length = .ok bs ∧ readBytes rd (k + bs.length) cs.length = .ok cs := by
  induction bs generalizing k with
  | nil => simp [readBytes]
  | cons b bs ih =>
    simp only [List.cons_append, List.length_cons, readBytes_cons_iff, ih, and_assoc]
    rw [Nat.add_right_comm, Nat.add_assoc]

/-- A list is read back from itself, whatever follows it. -/
theorem readBytes_listReader (bs t : List Byte) : readBytes (listReader (bs ++ t)) 0 bs.length = .ok bs :=
  readBytes_eq_ok fun i hi => by
    rw [Nat.zero_add, listReader, List.getElem?_append_left hi, List.getElem?_eq_getElem hi]

theorem streamBytes_cons (g : Group) (gs : List Group) : streamBytes (g :: gs) = encodeGroup g ++ streamBytes gs := rfl

theorem streamOutput_cons (g : Group) (gs : List Group) : streamOutput (g :: gs) = g.expand ++ streamOutput gs := rfl

theorem encodeGroup_length_pos (g : Group) : 1 ≤ (encodeGroup g).length := by
  cases g <;> simp [encodeGroup]

/-- Well-formed groups that do not end in a NOP stand for at least one byte, if there are any (R156). -/
theorem streamOutput_length_pos {gs : List Group} (hwf : ∀ g ∈ gs, g.wellFormed = true) (hne : gs ≠ [])
    (hlast : gs.getLast? ≠ some .nop) : 1 ≤ (streamOutput gs).length := by
  obtain ⟨init, g, rfl⟩ := List.eq_nil_or_concat' gs |>.resolve_left hne
  have hpos := Group.expand_length_pos (hwf g (by simp)) (by simpa using hlast)
  simp only [streamOutput, List.flatMap_append, List.flatMap_singleton, List.length_append]
  omega

/-- The bytes of a well-formed group that fits the scanline and the stream move the cursor past them and append what the
group stands for (R150 to R152). -/
theorem groupStep_encodeGroup {rd : Nat → Except Fault Byte} {len : Nat} {d : Decoder} {g : Group}
    (hwf : g.wellFormed = true) (hreads : readBytes rd d.cur (encodeGroup g).length = .ok (encodeGroup g))
    (hlen : d.cur + (encodeGroup g).length ≤ len) (hout : d.out.length + g.expand.length ≤ Config.N) :
    ∃ c, rd d.cur = .ok c ∧
      groupStep rd len c d = .ok { d with cur := d.cur + (encodeGroup g).length, out := d.out ++ g.expand } := by
  cases g with
  | lit data =>
    obtain ⟨hpos, hmax⟩ := Group.wellFormed_lit_iff.1 hwf
    obtain ⟨hc, hdata⟩ := readBytes_cons_iff.1 hreads
    refine ⟨_, hc, ?_⟩
    simp only [encodeGroup, List.length_cons, Group.expand] at hlen hout ⊢
    rw [groupStep, if_pos (by rw [literalControl_toNat hmax]; omega), litStep, litLength_literalControl hpos hmax,
      if_neg (by omega), if_neg (by omega), hdata, Nat.add_assoc, Nat.add_comm 1]
  | nop =>
    obtain ⟨hc, -⟩ := readBytes_cons_iff.1 hreads
    refine ⟨_, hc, ?_⟩
    simp [groupStep, nopStep, encodeGroup, Group.expand]
  | rep count v =>
    have hcount := Group.wellFormed_rep_iff.1 hwf
    obtain ⟨hc, hv⟩ := readBytes_cons_iff.1 hreads
    refine ⟨_, hc, ?_⟩
    simp only [encodeGroup, List.length_cons, List.length_nil, Group.expand, List.length_replicate] at hlen hout ⊢
    rw [groupStep, if_neg (by rw [repeatControl_toNat hcount.1]; omega), if_neg (repeatControl_ne_nop hcount), repStep,
      repLength_repeatControl hcount, if_neg (by omega), if_neg (by omega), (readBytes_cons_iff.1 hv).1]

/-- Groups that complete a scanline, the last of them no NOP, decode to what they stand for; their bytes are consumed and
no more (R155, R156). -/
theorem decodeLine_streamBytes {rd : Nat → Except Fault Byte} {len fuel : Nat} {d : Decoder} {gs : List Group}
    (hwf : ∀ g ∈ gs, g.wellFormed = true) (hlast : gs.getLast? ≠ some .nop)
    (hout : d.out.length + (streamOutput gs).length = Config.N)
    (hreads : readBytes rd d.cur (streamBytes gs).length = .ok (streamBytes gs))
    (hlen : d.cur + (streamBytes gs).length ≤ len) (hfuel : (streamBytes gs).length < fuel) :
    decodeLine rd len fuel d =
      .ok { d with cur := d.cur + (streamBytes gs).length, out := d.out ++ streamOutput gs } := by
  induction gs generalizing d fuel with
  | nil =>
    obtain ⟨fuel, rfl⟩ := Nat.exists_eq_add_one.2 hfuel
    rw [decodeLine, if_pos (by simpa [streamOutput] using hout.ge)]
    simp [streamBytes, streamOutput]
  | cons g gs ih =>
    have hpos := streamOutput_length_pos hwf (List.cons_ne_nil g gs) hlast
    have hg := encodeGroup_length_pos g
    rw [streamBytes_cons] at hreads hlen hfuel ⊢
    rw [streamOutput_cons] at hpos hout ⊢
    obtain ⟨hreadsg, hreadsgs⟩ := readBytes_append_iff.1 hreads
    rw [List.length_append] at hpos hout hlen hfuel ⊢
    obtain ⟨fuel, rfl⟩ := Nat.exists_eq_add_one.2 (Nat.zero_lt_of_lt hfuel)
    obtain ⟨c, hc, hstep⟩ := groupStep_encodeGroup (hwf g List.mem_cons_self) hreadsg (len := len) (by omega) (by omega)
    rw [decodeLine, if_neg (by omega), if_neg (by omega), hc]
    simp only [hstep]
    rw [ih (fun g' hg' => hwf g' (List.mem_cons_of_mem g hg')) ?_ ?_ hreadsgs ?_ ?_, List.append_assoc, Nat.add_assoc]
    · intro hnop
      exact hlast (by rw [List.getLast?_cons, hnop]; rfl)
    · rw [List.length_append, Nat.add_assoc]
      exact hout
    · simp only
      omega
    · omega

/-- Legally formed scanlines back to back decode to what they stand for; their bytes are consumed and no more (R165). -/
theorem decodeRows_streamBytes {rd : Nat → Except Fault Byte} {len y cur : Nat} {lines : List (List Group)}
    (hlegal : ∀ gs ∈ lines, LegalLine gs)
    (hreads : readBytes rd cur (lines.flatMap streamBytes).length = .ok (lines.flatMap streamBytes))
    (hlen : cur + (lines.flatMap streamBytes).length ≤ len) :
    decodeRows rd len lines.length y cur =
      .ok (lines.flatMap streamOutput) (cur + (lines.flatMap streamBytes).length) := by
  induction lines generalizing y cur with
  | nil => rfl
  | cons gs lines ih =>
    obtain ⟨hwf, hout, hlast⟩ := hlegal gs List.mem_cons_self
    rw [List.flatMap_cons] at hreads hlen
    obtain ⟨hreadsgs, hreadslines⟩ := readBytes_append_iff.1 hreads
    rw [List.length_append] at hlen
    rw [List.length_cons, decodeRows, decodeLine_streamBytes hwf hlast (by simpa using hout) hreadsgs
      (by simp only; omega) (by omega)]
    simp only
    rw [ih (fun gs' hgs' => hlegal gs' (List.mem_cons_of_mem gs hgs')) hreadslines (by omega)]
    simp [Nat.add_assoc]

/-! ### The groups of a scanline as a stream -/

/-- The groups of the encoding of `s`, without their indices. -/
def lineGroups (s : List Byte) : List Group := (encodeGroups s).map (·.2)

theorem streamBytes_lineGroups (s : List Byte) : streamBytes (lineGroups s) = encodeLine s := by
  rw [streamBytes, lineGroups, List.flatMap_map]
  rfl

theorem streamOutput_lineGroups (s : List Byte) : streamOutput (lineGroups s) = s := by
  rw [streamOutput, lineGroups, List.flatMap_map]
  exact encodeGroups_expand s

/-- The encoding of a scanline is legally formed (R133, R156). -/
theorem legalLine_lineGroups {s : List Byte} (hs : s.length = 72) : LegalLine (lineGroups s) := by
  have hgroup : ∀ g ∈ lineGroups s, g.wellFormed = true ∧ g ≠ .nop := fun g hg => by
    obtain ⟨⟨k, g⟩, hmem, rfl⟩ := List.mem_map.1 hg
    exact wellFormed_of_mem hmem
  exact ⟨fun g hg => (hgroup g hg).1, by rw [streamOutput_lineGroups, hs],
    fun hlast => (hgroup _ (List.mem_of_getLast? hlast)).2 rfl⟩

/-! ### ENC_INVARIANT is never raised (R135, R208) -/

/-- A pre-check error comes with no position (R203). -/
theorem precheck_positionless {c : Command} {l : Latch} {e : ErrCode} (h : c.precheck l = some e) :
    e.positionless = true := by
  unfold Command.precheck at h
  split_ifs at h <;> cases h <;> rfl

/-- An encoder's only run-time error is DST_OVERFLOW (R203). -/
theorem encodeRows_raise {rd : Nat → Except Fault Byte} {cap consumed rows y p pos line : Nat} {e : ErrCode}
    (h : encodeRows rd cap consumed rows y p = .raise e pos line) : e = .dstOverflow := by
  induction rows generalizing y p with
  | zero => cases h
  | succ rows ih =>
    unfold encodeRows at h
    split at h
    · cases h
    · split at h
      · cases h
        rfl
      · split at h
        · cases h
        · next hrest =>
          cases h
          exact ih hrest
        · cases h

/-- A scanline's only errors are the two format errors (R203). -/
theorem decodeLine_err {rd : Nat → Except Fault Byte} {len fuel pos : Nat} {d : Decoder} {e : ErrCode}
    (hout : d.out.length ≤ Config.N) (h : decodeLine rd len fuel d = .err e pos) :
    e = .fmtTruncated ∨ e = .fmtOverrun := by
  induction fuel generalizing d with
  | zero =>
    cases h
    exact Or.inl rfl
  | succ fuel ih =>
    unfold decodeLine at h
    split at h
    · cases h
    · split at h
      · cases h
        exact Or.inl rfl
      · next hcur =>
        split at h
        · cases h
        · next c _ =>
          obtain ⟨d', hd, -, -, hout', -⟩ | hd | hd | ⟨f, hd⟩ :=
            groupStep_cases (rd := rd) (c := c) (Nat.not_le.1 hcur) hout
          · rw [hd] at h
            exact ih hout' h
          · rw [hd] at h
            cases h
            exact Or.inr rfl
          · rw [hd] at h
            cases h
            exact Or.inl rfl
          · rw [hd] at h
            cases h

/-- A decoder's only run-time errors are the two format errors (R203). -/
theorem decodeRows_raise {rd : Nat → Except Fault Byte} {len rows y cur pos line : Nat} {e : ErrCode}
    (h : decodeRows rd len rows y cur = .raise e pos line) : e = .fmtTruncated ∨ e = .fmtOverrun := by
  induction rows generalizing y cur with
  | zero => cases h
  | succ rows ih =>
    unfold decodeRows at h
    split at h
    · cases h
    · next hline =>
      cases h
      exact decodeLine_err (Nat.zero_le _) hline
    · split at h
      · cases h
      · next hrest =>
        cases h
        exact ih hrest
      · cases h

/-- The run-time errors of the legal commands (R203). -/
theorem body_raise {c : Command} {l : Latch} {rd : Nat → Except Fault Byte} {e : ErrCode} {pos line : Nat}
    (h : c.body l rd = .raise e pos line) : e = .dstOverflow ∨ e = .fmtTruncated ∨ e = .fmtOverrun := by
  cases c with
  | encl => exact Or.inl (encodeRows_raise h)
  | encf => exact Or.inl (encodeRows_raise h)
  | decl => exact Or.inr (decodeRows_raise h)
  | decf => exact Or.inr (decodeRows_raise h)
  | dith => exact absurd h (ditherBody_never_raises _ _ _ _ _)

theorem completionStep_errCode_ne_encInvariant {s t : State} (h : completionStep s = .next t) :
    t.regs.errCode ≠ .encInvariant := by
  cases hc : s.latch.command with
  | none =>
    rw [completionStep_illegal hc] at h
    cases h
    simp
  | some c =>
    rw [completionStep_command hc] at h
    obtain ⟨e, he, hx⟩ | ⟨out, n, -, -, -, hx⟩ | ⟨e, pos, line, -, he, hx⟩ | ⟨f, -, -, hx⟩ := exec_command_cases c s
    · cases h.symm.trans hx
      rintro rfl
      cases precheck_positionless he
    · cases h.symm.trans hx
      simp
    · cases h.symm.trans hx
      rintro rfl
      simpa using body_raise he
    · cases h.symm.trans hx

end Machine

end Sys2Proof

namespace Sys2Proof.Proofs

open Sys2Proof Sys2Proof.Machine

/-- Settles O22: the encoding is a legally formed scanline, and the decoder undoes its groups one by one. -/
theorem encodedLinesDecodeBack : Obligations.EncodedLinesDecodeBack := by
  refine ⟨fun row t hrow => ?line, fun rows hrows hrow => ?bitmap⟩
  case line =>
    obtain ⟨hwf, hout, hlast⟩ := legalLine_lineGroups hrow
    rw [← streamBytes_lineGroups row]
    have hreads := readBytes_listReader (streamBytes (lineGroups row)) t
    rw [decodeLine_streamBytes hwf hlast (by simpa using hout) hreads (by simp) (by rw [List.length_append]; omega)]
    simp [streamOutput_lineGroups]
  case bitmap =>
    have hbytes : (rows.map lineGroups).flatMap streamBytes = rows.flatMap encodeLine := by
      simp only [List.flatMap_map, streamBytes_lineGroups]
    have houtput : (rows.map lineGroups).flatMap streamOutput = rows.flatten := by
      simp only [List.flatMap_map, streamOutput_lineGroups, List.flatMap_id']
    have hlegal : ∀ gs ∈ rows.map lineGroups, LegalLine gs :=
      List.forall_mem_map.2 fun row hmem => legalLine_lineGroups (hrow row hmem)
    have hreads := readBytes_listReader (rows.flatMap encodeLine) []
    rw [List.append_nil, ← hbytes] at hreads
    have hdecode := decodeRows_streamBytes (y := 0) hlegal hreads (Nat.zero_add _).le
    rwa [List.length_map, hrows, hbytes, houtput, Nat.zero_add] at hdecode

/-- Settles O23: the groups are well formed and none is a NOP, so their lengths give the control bytes. -/
theorem encoderEmitsOnlyLegalGroups : Obligations.EncoderEmitsOnlyLegalGroups := by
  intro s k g hmem
  obtain ⟨hwf, hnop⟩ := wellFormed_of_mem hmem
  refine ⟨hnop, hwf, Group.expand_length_pos hwf hnop, ?_⟩
  cases g with
  | lit data =>
    have hlen := Group.wellFormed_lit_iff.1 hwf
    exact ⟨_, _, rfl, literalControl_ne_nop hlen.2, by rw [literalControl_toNat hlen.2]; omega⟩
  | nop => exact absurd rfl hnop
  | rep count v =>
    have hcount := Group.wellFormed_rep_iff.1 hwf
    exact ⟨_, _, rfl, repeatControl_ne_nop hcount, by rw [repeatControl_toNat hcount.1]; omega⟩

/-- Settles O25: pairs begin in repeat groups alone, a maximal run begins a group, and a literal group short of its cap
ends at a pair. -/
theorem encoderOutputShape : Obligations.EncoderOutputShape := by
  intro s
  refine ⟨fun i b hb hb' => exists_rep_of_pairAt ⟨b, hb, hb'⟩, ?runs, ?literals, ?adjacent⟩
  case runs =>
    intro before after v m hs hm hbefore hafter
    have hrun := maximalRun_of_eq_append hs hbefore hafter
    exact ⟨hrun.rep_mem_of_le hm, hrun.rep_mem, hrun.lit_mem⟩
  case literals =>
    intro k data hmem
    refine ⟨fun i b hb hb' => ?_, fun b hb hb' => ?_⟩
    · have hi : i + 1 < data.length := (List.getElem?_eq_some_iff.1 hb').1
      rw [getElem?_lit hmem (by omega)] at hb hb'
      exact not_pairAt_of_mem_lit hmem (Nat.le_add_right k i) (by omega) ⟨b, hb, hb'⟩
    · have hpos : 1 ≤ data.length := (Group.wellFormed_lit_iff.1 (wellFormed_of_mem hmem).1).1
      rw [List.getLast?_eq_getElem?, getElem?_lit hmem (by omega)] at hb
      refine not_pairAt_of_mem_lit hmem (i := k + (data.length - 1)) (by omega) (by omega) ⟨b, hb, ?_⟩
      rwa [Nat.add_assoc, Nat.sub_add_cancel hpos]
  case adjacent =>
    intro pre post k k' data data' hsplit
    have hmem : (k, Group.lit data) ∈ encodeGroups s := by simp [hsplit]
    have hmem' : (k', Group.lit data') ∈ encodeGroups s := by simp [hsplit]
    obtain rfl : k' = k + data.length := encodeGroups_adjacent hsplit
    have hlt := (eq_nextGroup_of_mem hmem').1
    have hpos : 1 ≤ data'.length := (Group.wellFormed_lit_iff.1 (wellFormed_of_mem hmem').1).1
    have hpair := not_pairAt_of_mem_lit hmem' (Nat.le_refl _) (by omega)
    exact (lit_stops hmem).resolve_right (not_or.2 ⟨by omega, hpair⟩)

/-- Settles O26: a group of a scanline covers at most 72 bytes, so no cap binds; no part of the engine raises code 8. -/
theorem encoderCapsNeverBindOnAScanline : Obligations.EncoderCapsNeverBindOnAScanline := by
  refine ⟨fun s hs => ?_, fun s t h => completionStep_errCode_ne_encInvariant h⟩
  have hcaps : CapsUnused s := capsUnused_of_length_lt (by omega)
  refine ⟨hcaps, ?runs, ?stretches⟩
  case runs =>
    intro before after v m hsplit hm hbefore hafter
    have hm' : m ≤ s.length := by
      rw [hsplit, List.length_append, List.length_append, List.length_replicate]
      omega
    exact (maximalRun_of_eq_append hsplit hbefore hafter).rep_mem_of_le hm (by omega)
  case stretches =>
    intro before stretch after hsplit hne hinside hbefore hafter
    have hmem := (maximalStretch_of_eq_append hsplit hne hinside hbefore hafter).lit_mem hcaps
    rwa [hsplit, List.append_assoc, List.drop_left, List.take_left, ← List.append_assoc, ← hsplit] at hmem

end Sys2Proof.Proofs

namespace Sys2Proof.Machine

/-- One turn of the loop of R155 whose group raises no error: the transient is the group's, all else stays. -/
theorem runGroup_ok {step : (Nat → Except Fault Byte) → Nat → Decoder → GroupResult} {s : State} {d d' : Decoder}
    (hrun : s.run = .decoding d)
    (hstep : step (fun k => s.mem.readByte (s.latch.src.toNat + k)) s.latch.srcLen.toNat d = .ok d') :
    runGroup step s = .next { s with run := .decoding d' } := by
  simp only [runGroup, hrun, hstep]

/-- R151: the group of a NOP raises no error on any transient. -/
theorem nopStep_eq_ok (d : Decoder) : nopStep d = .ok { d with cur := d.cur + 1 } := rfl

theorem exec_nop_eq_runGroup (s : State) : exec .nop s = runGroup (fun _ _ d => nopStep d) s := rfl

end Sys2Proof.Machine

namespace Sys2Proof.Proofs

open Sys2Proof Sys2Proof.Machine

/-- Settles O17: the group of a NOP succeeds on every transient, with the cursor moved and no byte read. -/
theorem nopGroupMovesTheCursorOnly : Obligations.NopGroupMovesTheCursorOnly := by
  intro s d hrun
  exact (exec_nop_eq_runGroup s).trans (runGroup_ok hrun (nopStep_eq_ok d))

end Sys2Proof.Proofs

/-! PROOFS of the family 43_dither: what one pixel decides and diffuses (R183 to R186), the ranges of the values (R189),
the packing of the bits (R187), and the pre-checks (R116 to R120, R182). -/

namespace Sys2Proof.Machine

open Sys2Proof.Config (DivRound)

/-! ### One pixel: threshold and error (R184, R185) -/

theorem inkBit_of_lt {adj : Int} (h : adj < 128) : inkBit adj = true := decide_eq_true h

theorem inkBit_of_ge {adj : Int} (h : 128 ≤ adj) : inkBit adj = false := decide_eq_false (not_lt.2 h)

/-- Ink is rendered 0 (R185). -/
theorem quantError_of_lt {adj : Int} (h : adj < 128) : quantError adj = adj := by
  simp [quantError, inkBit_of_lt h]

/-- White is rendered 255 (R185). -/
theorem quantError_of_ge {adj : Int} (h : 128 ≤ adj) : quantError adj = adj - 255 := by
  simp [quantError, inkBit_of_ge h]

/-! ### Diffusion (R186) -/

/-- In a row-major grid of width `w` a cell has one index (R43). -/
theorem cellIndex_inj {w x y x' y' : Nat} (hx : x < w) (hx' : x' < w) :
    y * w + x = y' * w + x' ↔ x = x' ∧ y = y' := by
  constructor
  · intro h
    have hcol := congrArg (· % w) h
    have hrow := congrArg (· / w) h
    simp only [Nat.mul_add_mod', Nat.mod_eq_of_lt hx, Nat.mod_eq_of_lt hx'] at hcol
    subst hcol
    exact ⟨rfl, Nat.eq_of_mul_eq_mul_right (Nat.zero_lt_of_lt hx) (Nat.add_right_cancel h)⟩
  · rintro ⟨rfl, rfl⟩
    rfl

theorem cellIndex_lt {w h x y : Nat} (hx : x < w) (hy : y < h) : y * w + x < w * h := by
  calc y * w + x < (y + 1) * w := by rw [Nat.succ_mul]; omega
    _ ≤ h * w := Nat.mul_le_mul_right w hy
    _ = w * h := Nat.mul_comm h w

section
variable {w h x' y' : Nat} (hx' : x' < w) (hy' : y' < h)
include hx' hy'

/-- One share reaches the cell that lies at its offset, and no other cell of the grid. -/
theorem errCell_diffuseOne {err : Array Int} (hsize : err.size = w * h) (x y : Nat) (d : Int) (o : Int × Int) :
    errCell w (diffuseOne w h x y d err o) x' y' =
      errCell w err x' y' + if o = ((x' : Int) - x, (y' : Int) - y) then d else 0 := by
  have hindex : y' * w + x' < err.size := hsize ▸ cellIndex_lt hx' hy'
  obtain ⟨dx, dy⟩ := o
  unfold diffuseOne errCell
  by_cases hin : 0 ≤ (x : Int) + dx ∧ (x : Int) + dx < w ∧ 0 ≤ (y : Int) + dy ∧ (y : Int) + dy < h
  · have hcol : ((x : Int) + dx).toNat < w := by omega
    have hcell := cellIndex_inj (y := ((y : Int) + dy).toNat) (y' := y') hcol hx'
    have hoffset : (dx, dy) = ((x' : Int) - x, (y' : Int) - y) ↔
        ((y : Int) + dy).toNat * w + ((x : Int) + dx).toNat = y' * w + x' := by
      rw [hcell, Prod.mk.injEq]
      omega
    simp only [if_pos hin, hoffset, Array.getD_eq_getD_getElem?, Array.getElem?_setIfInBounds]
    split <;> simp_all
  · have hoffset : (dx, dy) ≠ ((x' : Int) - x, (y' : Int) - y) := by
      rw [ne_eq, Prod.mk.injEq]
      omega
    simp only [if_neg hin, if_neg hoffset, Int.add_zero]

/-- The shares of a list of offsets add up, whatever their order (R188). -/
theorem errCell_foldl_diffuseOne {err : Array Int} (hsize : err.size = w * h) (x y : Nat) (d : Int)
    (os : List (Int × Int)) :
    errCell w (os.foldl (diffuseOne w h x y d) err) x' y' =
      errCell w err x' y' + os.count ((x' : Int) - x, (y' : Int) - y) * d := by
  induction os generalizing err with
  | nil => simp
  | cons o os ih =>
    rw [List.foldl_cons, ih ((diffuseOne_size ..).trans hsize), errCell_diffuseOne hx' hy' hsize, List.count_cons]
    by_cases ho : o = ((x' : Int) - x, (y' : Int) - y)
    · simp [ho]
      ring
    · simp [ho]

/-- The six offsets differ, so a cell receives the amount once or not at all (R186). -/
theorem errCell_diffuse {err : Array Int} (hsize : err.size = w * h) (x y : Nat) (d : Int) :
    errCell w (diffuse w h x y d err) x' y' =
      errCell w err x' y' + if ((x' : Int) - x, (y' : Int) - y) ∈ neighbours then d else 0 := by
  have hnodup : neighbours.Nodup := by decide
  rw [diffuse, errCell_foldl_diffuseOne hx' hy' hsize, hnodup.count]
  split <;> simp

end

/-- The offsets of R186, written out for cells of the grid. -/
theorem offset_mem_neighbours_iff (x y x' y' : Nat) :
    ((x' : Int) - x, (y' : Int) - y) ∈ neighbours ↔
      (x' = x + 1 ∧ y' = y) ∨ (x' = x + 2 ∧ y' = y) ∨ (x' + 1 = x ∧ y' = y + 1) ∨ (x' = x ∧ y' = y + 1) ∨
        (x' = x + 1 ∧ y' = y + 1) ∨ (x' = x ∧ y' = y + 2) := by
  simp only [neighbours, List.mem_cons, List.not_mem_nil, or_false, Prod.mk.injEq]
  omega

/-! ### The raster position (R39) -/

/-- After a pixel comes the next in its row or, after the last of the row, the first of the next row. -/
theorem ditherPixel_next (r : DivRound) (w h : Nat) (g : Byte) (d : Ditherer) :
    (d.x + 1 < w ∧ (ditherPixel r w h g d).x = d.x + 1 ∧ (ditherPixel r w h g d).y = d.y) ∨
    (w ≤ d.x + 1 ∧ (ditherPixel r w h g d).x = 0 ∧ (ditherPixel r w h g d).y = d.y + 1) := by
  unfold ditherPixel
  by_cases hrow : d.x + 1 < w
  · exact Or.inl ⟨hrow, if_pos hrow, if_pos hrow⟩
  · exact Or.inr ⟨not_lt.1 hrow, if_neg hrow, if_neg hrow⟩

/-- A pixel moves the raster position on by one. -/
theorem ditherPixel_position (r : DivRound) {w : Nat} (h : Nat) (g : Byte) {d : Ditherer} (hx : d.x < w) :
    (ditherPixel r w h g d).x < w ∧
    (ditherPixel r w h g d).y * w + (ditherPixel r w h g d).x = d.y * w + d.x + 1 := by
  obtain ⟨hrow, hx', hy'⟩ | ⟨hrow, hx', hy'⟩ := ditherPixel_next r w h g d
  · rw [hx', hy']
    exact ⟨hrow, rfl⟩
  · rw [hx', hy', Nat.succ_mul]
    omega

/-! ### The ranges of the values (R189) -/

/-- The least amount one pixel diffuses (R189). -/
def leastShare : DivRound → Int
  | .trunc => -15
  | .floor => -16

theorem leastShare_bounds (r : DivRound) : -16 ≤ leastShare r ∧ leastShare r ≤ 0 := by
  cases r <;> decide

theorem div8_bounds (r : DivRound) {q : Int} (hlow : -127 ≤ q) (hhigh : q ≤ 127) :
    leastShare r ≤ div8 r q ∧ div8 r q ≤ 15 := by
  cases r with
  | trunc =>
    simp only [div8, leastShare, Int.tdiv_eq_ediv, show Int.sign 8 = 1 from rfl]
    split <;> omega
  | floor =>
    simp only [div8, leastShare, Int.fdiv_eq_ediv_of_nonneg q (by decide : (0 : Int) ≤ 8)]
    omega

theorem quantError_bounds {adj : Int} (hlow : -96 ≤ adj) (hhigh : adj ≤ 345) :
    -127 ≤ quantError adj ∧ quantError adj ≤ 127 := by
  obtain h | h := lt_or_ge adj 128
  · rw [quantError_of_lt h]
    omega
  · rw [quantError_of_ge h]
    omega

/-- A place `(x, y)` before the raster position; places beside the grid count too. -/
def Ditherer.passed (d : Ditherer) (x y : Int) : Bool := decide (y < d.y ∨ (y = d.y ∧ x < d.x))

/-- How many of the six places whose pixels diffuse into cell `(x, y)` are before the raster position (R188). -/
def Ditherer.sharesPassed (d : Ditherer) (x y : Nat) : Nat :=
  neighbours.countP fun o => d.passed ((x : Int) - o.1) ((y : Int) - o.2)

theorem Ditherer.sharesPassed_le (d : Ditherer) (x y : Nat) : d.sharesPassed x y ≤ 6 := List.countP_le_length

/-- A predicate that holds wherever another does, and somewhere more, counts more. -/
theorem countP_lt_countP {α : Type} {p q : α → Bool} {l : List α} {a : α} (himp : ∀ b, p b = true → q b = true)
    (hmem : a ∈ l) (hp : p a = false) (hq : q a = true) : l.countP p < l.countP q := by
  obtain ⟨s, t, rfl⟩ := List.append_of_mem hmem
  have hs : s.countP p ≤ s.countP q := List.countP_mono_left fun b _ => himp b
  have ht : t.countP p ≤ t.countP q := List.countP_mono_left fun b _ => himp b
  simp [List.countP_append, hp, hq]
  omega

section
variable (r : DivRound) (w h : Nat) (g : Byte) (d : Ditherer)

/-- A pixel leaves its own place behind, and every place it had left behind before. -/
theorem passed_ditherPixel {x y : Int} (hp : d.passed x y = true ∨ (x = d.x ∧ y = d.y)) :
    (ditherPixel r w h g d).passed x y = true := by
  simp only [Ditherer.passed, decide_eq_true_eq] at hp ⊢
  obtain ⟨-, hx', hy'⟩ | ⟨-, hx', hy'⟩ := ditherPixel_next r w h g d <;> omega

theorem sharesPassed_le_ditherPixel (x y : Nat) : d.sharesPassed x y ≤ (ditherPixel r w h g d).sharesPassed x y :=
  List.countP_mono_left fun _ _ hp => passed_ditherPixel r w h g d (Or.inl hp)

/-- A cell the pixel diffuses into has one more of its places behind. -/
theorem sharesPassed_lt_ditherPixel {x y : Nat} (hmem : ((x : Int) - d.x, (y : Int) - d.y) ∈ neighbours) :
    d.sharesPassed x y < (ditherPixel r w h g d).sharesPassed x y := by
  refine countP_lt_countP (fun _ hp => passed_ditherPixel r w h g d (Or.inl hp)) hmem ?_ ?_
  · simp [Ditherer.passed]
  · exact passed_ditherPixel r w h g d (Or.inr ⟨Int.sub_sub_self _ _, Int.sub_sub_self _ _⟩)

end

/-- The dither function after `n` pixels: the raster position, and every cell a sum of at most as many shares as there are
places behind that diffuse into it (the induction of R189). -/
structure Ditherer.Bounded (r : DivRound) (w h n : Nat) (d : Ditherer) : Prop where
  column : d.x < w
  position : d.y * w + d.x = n
  size : d.err.size = w * h
  cells : ∀ x y, x < w → y < h →
    d.sharesPassed x y * leastShare r ≤ errCell w d.err x y ∧ errCell w d.err x y ≤ d.sharesPassed x y * 15

namespace Ditherer.Bounded

variable {r : DivRound} {w h n : Nat} {d : Ditherer}

theorem start (r : DivRound) (hw : 0 < w) (h : Nat) : Ditherer.Bounded r w h 0 (ditherStart w h) where
  column := hw
  position := by simp [ditherStart]
  size := Array.size_replicate
  cells x y hx hy := by
    have hzero : errCell w (ditherStart w h).err x y = 0 := by
      simp [errCell, ditherStart, Array.getD_eq_getD_getElem?, cellIndex_lt hx hy]
    have hleast := leastShare_bounds r
    rw [hzero]
    exact ⟨Int.mul_nonpos_of_nonneg_of_nonpos (Int.natCast_nonneg _) hleast.2, by omega⟩

/-- No cell receives more than six shares (R189). -/
theorem errCell_bounds (hd : d.Bounded r w h n) {x y : Nat} (hx : x < w) (hy : y < h) :
    6 * leastShare r ≤ errCell w d.err x y ∧ errCell w d.err x y ≤ 90 := by
  obtain ⟨hlow, hhigh⟩ := hd.cells x y hx hy
  have hshares := d.sharesPassed_le x y
  cases r <;> simp only [leastShare] at hlow ⊢ <;> omega

theorem row (hd : d.Bounded r w h n) (hn : n < w * h) : d.y < h := by
  refine Nat.lt_of_mul_lt_mul_left (a := w) ?_
  have := hd.position
  rw [Nat.mul_comm w d.y]
  omega

theorem adjusted_bounds (hd : d.Bounded r w h n) (hn : n < w * h) (g : Byte) :
    -96 ≤ adjusted g (errCell w d.err d.x d.y) ∧ adjusted g (errCell w d.err d.x d.y) ≤ 345 := by
  obtain ⟨hlow, hhigh⟩ := hd.errCell_bounds hd.column (hd.row hn)
  have hleast := leastShare_bounds r
  have hg := g.isLt
  unfold adjusted
  omega

theorem div8_bounds (hd : d.Bounded r w h n) (hn : n < w * h) (g : Byte) :
    leastShare r ≤ div8 r (quantError (adjusted g (errCell w d.err d.x d.y))) ∧
    div8 r (quantError (adjusted g (errCell w d.err d.x d.y))) ≤ 15 := by
  obtain ⟨hlow, hhigh⟩ := hd.adjusted_bounds hn g
  obtain ⟨hlow, hhigh⟩ := quantError_bounds hlow hhigh
  exact Machine.div8_bounds r hlow hhigh

theorem pixel (hd : d.Bounded r w h n) (hn : n < w * h) (g : Byte) :
    (ditherPixel r w h g d).Bounded r w h (n + 1) := by
  obtain ⟨hcolumn, hposition⟩ := ditherPixel_position r h g hd.column
  refine ⟨hcolumn, hposition.trans (congrArg (· + 1) hd.position), by rw [ditherPixel_err_size, hd.size], ?_⟩
  intro x y hx hy
  have hcell : errCell w (ditherPixel r w h g d).err x y = _ := errCell_diffuse hx hy hd.size d.x d.y _
  obtain ⟨hlow, hhigh⟩ := hd.cells x y hx hy
  obtain ⟨hleast, hmost⟩ := hd.div8_bounds hn g
  have hneg := leastShare_bounds r
  rw [hcell]
  split
  · next hmem =>
    have hshares := sharesPassed_lt_ditherPixel r w h g d hmem
    cases r <;> simp only [leastShare] at * <;> omega
  · have hshares := sharesPassed_le_ditherPixel r w h g d x y
    cases r <;> simp only [leastShare] at * <;> omega

theorem steps {m : Nat} (g : Nat → Nat → Byte) (hd : d.Bounded r w h m) (hn : m + n ≤ w * h) :
    (ditherSteps r w h g n d).Bounded r w h (m + n) := by
  induction n generalizing m d with
  | zero => exact hd
  | succ n ih =>
    rw [← Nat.succ_add_eq_add_succ m n]
    exact ih (hd.pixel (by omega) _) (by omega)

end Ditherer.Bounded

/-! ### Packing (R14, R187) -/

/-- The weighted sum of R187 puts the bits in place, the first at the top. -/
theorem sum_msbFirst_eq_ofFnLE (f : Nat → Bool) :
    ((List.range 8).map fun k => (f k).toNat * 2 ^ (7 - k)).sum =
      (BitVec.ofFnLE fun i : Fin 8 => f (7 - i)).toNat := by
  rw [BitVec.toNat_ofFnLE]
  simp [List.range_succ, Nat.ofBits_succ]
  ring

theorem packByte_eq_ofFnLE (w : Nat) (bits : Array Bool) (y j : Nat) :
    packByte w bits y j = BitVec.ofFnLE fun i : Fin 8 => bitAt w bits (8 * j + (7 - i)) y := by
  rw [packByte, sum_msbFirst_eq_ofFnLE fun k => bitAt w bits (8 * j + k) y, BitVec.ofNat_toNat, BitVec.setWidth_eq]

theorem packByte_getLsbD (w : Nat) (bits : Array Bool) (y j : Nat) {k : Nat} (hk : k < 8) :
    (packByte w bits y j).getLsbD (7 - k) = bitAt w bits (8 * j + k) y := by
  rw [packByte_eq_ofFnLE, BitVec.getLsbD_ofFnLE, dif_pos (by omega)]
  simp only [Nat.sub_sub_self (Nat.le_of_lt_succ hk)]

theorem packBitmap_succ (w h : Nat) (bits : Array Bool) :
    packBitmap w (h + 1) bits = packBitmap w h bits ++ (List.range ((w + 7) / 8)).map (packByte w bits h) := by
  simp [packBitmap, List.range_succ]

/-- Row `y` of the packed bitmap begins at byte `y * ceil(w/8)` (R187). -/
theorem packBitmap_getElem? {w h y j : Nat} (bits : Array Bool) (hy : y < h) (hj : j < (w + 7) / 8) :
    (packBitmap w h bits)[y * ((w + 7) / 8) + j]? = some (packByte w bits y j) := by
  induction h with
  | zero => omega
  | succ h ih =>
    rw [packBitmap_succ]
    obtain hlast | rfl := Nat.lt_succ_iff_lt_or_eq.1 hy
    · have hlength : y * ((w + 7) / 8) + j < (packBitmap w h bits).length := by
        rw [packBitmap_length, Nat.mul_comm h]
        exact cellIndex_lt hj hlast
      rw [List.getElem?_append_left hlength, ih hlast]
    · rw [List.getElem?_append_right (by rw [packBitmap_length]; omega), packBitmap_length, Nat.add_sub_cancel_left]
      simp [hj]

end Sys2Proof.Machine

namespace Sys2Proof

open Machine

/-! ### The pre-checks (R117 to R119, R182) -/

theorem Command.dimensionsOk_iff (c : Command) (l : Latch) :
    c.dimensionsOk l = true ↔ (c = .dith → l.gridW = 576 ∧ l.gridH = 720) := by
  cases c <;> simp [Command.dimensionsOk]

theorem Command.lengthsOk_iff (c : Command) (l : Latch) :
    c.lengthsOk l = true ↔
      (c = .encl → 72 ≤ l.srcLen.toNat) ∧ (c = .encf → 51840 ≤ l.srcLen.toNat) ∧
      (c = .decl → 72 ≤ l.dstLen.toNat) ∧ (c = .decf → 51840 ≤ l.dstLen.toNat) ∧
      (c = .dith → 414720 ≤ l.srcLen.toNat ∧ 51840 ≤ l.dstLen.toNat) := by
  cases c <;> simp [Command.lengthsOk]

theorem Command.regions_outside_iff (c : Command) (l : Latch) :
    (Config.bufBytes < l.src.toNat + c.inLen l ∨ Config.bufBytes < l.dst.toNat + c.outLen l) ↔
      ¬ (l.src.toNat + c.inLen l ≤ 1048576 ∧ l.dst.toNat + c.outLen l ≤ 1048576) := by
  simp only [Config.bufBytes]
  omega

/-- The completion step of R115, where each result fits its field (R32 to R35). -/
theorem Machine.State.completedTo_complete (s : State) (e : ErrCode) {pos line n p : Nat} (m : Memory)
    (hpos : pos < 2 ^ 21) (hline : line < 2 ^ 16) (hn : n < 2 ^ 21) (hp : p < 2 ^ 21) :
    s.completedTo (s.complete e pos line n p m) e pos line n p :=
  ⟨rfl, Nat.mod_eq_of_lt hpos, Nat.mod_eq_of_lt hline, Nat.mod_eq_of_lt hn, Nat.mod_eq_of_lt hp,
    rfl, rfl, rfl, rfl, rfl⟩

/-- A failing pre-check completes the command with its code, and nothing is written (R120). -/
theorem exec_of_precheck {c : Command} {s : State} {e : ErrCode} (h : c.precheck s.latch = some e) :
    ∃ t, exec c.instr s = .next t ∧ s.completedTo t e 0 0 0 0 ∧ t.mem = s.mem := by
  refine ⟨s.preFail e, ?_, ?_, rfl⟩
  · rw [exec_command, h]
  · exact s.completedTo_complete e s.mem (by decide) (by decide) (by decide) (by decide)

end Sys2Proof

namespace Sys2Proof.Proofs

open Sys2Proof Sys2Proof.Machine

/-- Settles O29: the two branches of the threshold. -/
theorem pixelIsThresholdedAndItsErrorDiffused : Obligations.PixelIsThresholdedAndItsErrorDiffused := by
  intro r w h g d adj
  have hbits : (ditherPixel r w h g d).bits = d.bits.push (inkBit adj) := rfl
  have herr : (ditherPixel r w h g d).err = diffuse w h d.x d.y (div8 r (quantError adj)) d.err := rfl
  rw [hbits, herr]
  refine ⟨fun hink => ?_, fun hwhite => ?_⟩
  · rw [inkBit_of_lt hink, quantError_of_lt hink]
    exact ⟨rfl, rfl⟩
  · rw [inkBit_of_ge hwhite, quantError_of_ge hwhite]
    exact ⟨rfl, rfl⟩

/-- Settles O30: the amount reaches a cell exactly when the cell lies at one of the six offsets. -/
theorem diffusionReachesExactlyTheSixNeighbours : Obligations.DiffusionReachesExactlyTheSixNeighbours := by
  intro w h x y x' y' d err hsize _ _ hx' hy'
  refine ⟨(diffuse_size ..).trans hsize, ?_⟩
  rw [errCell_diffuse hx' hy' hsize]
  simp only [offset_mem_neighbours_iff]

/-- Settles O32: `Ditherer.Bounded` holds at the first pixel and every pixel of the grid keeps it. -/
theorem ditherValuesStayInRange : Obligations.DitherValuesStayInRange := by
  intro r w h n g hn low least d adj
  obtain rfl | hw := Nat.eq_zero_or_pos w
  · rw [Nat.zero_mul] at *
    exact ⟨fun x y hx => absurd hx (Nat.not_lt_zero x), fun hlt => absurd hlt (Nat.not_lt_zero n)⟩
  · have hd : d.Bounded r w h n := by
      have hsteps := (Ditherer.Bounded.start r hw h).steps g (n := n) (by omega)
      rwa [Nat.zero_add] at hsteps
    have hlow : low = 6 * leastShare r := by cases r <;> rfl
    have hleast : least = leastShare r := by cases r <;> rfl
    rw [hlow, hleast]
    refine ⟨fun x y hx hy => hd.errCell_bounds hx hy, fun hlt => ?_⟩
    obtain ⟨hadj, hadj'⟩ := hd.adjusted_bounds hlt (g d.x d.y)
    obtain ⟨hq, hq'⟩ := quantError_bounds hadj hadj'
    exact ⟨hadj, hadj', hq, hq', hd.div8_bounds hlt (g d.x d.y)⟩

/-- Settles O34: byte `x / 8` of row `y` holds the bit that `bitAt` gives for the pixel, padding included. -/
theorem bitsArePackedMostSignificantFirst : Obligations.BitsArePackedMostSignificantFirst := by
  intro w h x y bits hsize hy hx
  refine ⟨packBitmap_length w h bits, packByte w bits y (x / 8), packBitmap_getElem? bits hy (by omega), ?_⟩
  rw [packByte_getLsbD w bits y (x / 8) (Nat.mod_lt x (by decide)), Nat.div_add_mod]
  refine ⟨fun hin => ?_, fun hpad => ?_⟩
  · have hindex : y * w + x < bits.size := hsize ▸ cellIndex_lt hin hy
    simp [bitAt, hin, hindex]
  · simp [bitAt, not_lt.2 hpad]

/-- Settles O5: the pre-checks are tried in order, and the first that fails ends the command. -/
theorem preChecksFailInOrder : Obligations.PreChecksFailInOrder := by
  intro c s l dims lengths ranges overlaps failsWith
  have hdims : c.dimensionsOk s.latch = true ↔ dims := c.dimensionsOk_iff l
  have hlengths : c.lengthsOk s.latch = true ↔ lengths := c.lengthsOk_iff l
  have hranges : (Config.bufBytes < s.latch.src.toNat + c.inLen s.latch ∨
      Config.bufBytes < s.latch.dst.toNat + c.outLen s.latch) ↔ ¬ ranges := c.regions_outside_iff l
  have hoverlaps : overlap s.latch.src.toNat (c.inLen s.latch) s.latch.dst.toNat (c.outLen s.latch) = true ↔ overlaps :=
    decide_eq_true_iff
  refine ⟨fun hdim => exec_of_precheck ?_, fun hdim hlen => exec_of_precheck ?_,
    fun hdim hlen hrange => exec_of_precheck ?_, fun hdim hlen hrange hover => exec_of_precheck ?_⟩
  · simp [Command.precheck, hdims.not.2 hdim]
  · simp [Command.precheck, hdims.2 hdim, hlengths.not.2 hlen]
  · simp [Command.precheck, hdims.2 hdim, hlengths.2 hlen, hranges, hrange]
  · simp [Command.precheck, hdims.2 hdim, hlengths.2 hlen, hranges, hrange, hoverlaps.2 hover]

end Sys2Proof.Proofs

/-! PROOFS of the family other: command words and control bytes (R80 to R88). -/

namespace Sys2Proof

/-! ### Fields put together (R80, R86) -/

/-- Fields put together are digits of a number. -/
theorem append_toNat {m n : Nat} (x : BitVec m) (y : BitVec n) : (x ++ y).toNat = x.toNat * 2 ^ n + y.toNat := by
  rw [BitVec.toNat_append, ← Nat.shiftLeft_add_eq_or_of_lt y.isLt, Nat.shiftLeft_eq]

theorem cmdWord_fields (w : Word) : cmdWord (cmdOp w) (cmdRsv w) = w := by
  apply BitVec.eq_of_toNat_eq
  have hw := w.isLt
  rw [cmdWord, append_toNat, cmdOp, cmdRsv, BitVec.extractLsb'_toNat, BitVec.extractLsb'_toNat,
    Nat.shiftRight_eq_div_pow, Nat.shiftRight_eq_div_pow]
  omega

theorem literalByte_toNat (n : BitVec 7) : (0#1 ++ n).toNat = n.toNat := by
  rw [append_toNat]
  simp

theorem repeatByte_toNat (n : BitVec 7) : (1#1 ++ n).toNat = 128 + n.toNat := by
  rw [append_toNat]
  rfl

@[simp] theorem ctrlField_literalByte (n : BitVec 7) : ctrlField (0#1 ++ n) = n := by
  apply BitVec.eq_of_toNat_eq
  have := n.isLt
  rw [ctrlField_toNat, literalByte_toNat]
  omega

@[simp] theorem ctrlField_repeatByte (n : BitVec 7) : ctrlField (1#1 ++ n) = n := by
  apply BitVec.eq_of_toNat_eq
  have := n.isLt
  rw [ctrlField_toNat, repeatByte_toNat]
  omega

/-- A control byte below 0x80 is a 0 bit and its field. -/
theorem literalByte_ctrlField {c : Byte} (h : c.toNat ≤ 0x7F) : 0#1 ++ ctrlField c = c := by
  apply BitVec.eq_of_toNat_eq
  rw [literalByte_toNat, ctrlField_toNat]
  omega

/-- A control byte from 0x80 on is a 1 bit and its field. -/
theorem repeatByte_ctrlField {c : Byte} (h : ¬ c.toNat ≤ 0x7F) : 1#1 ++ ctrlField c = c := by
  apply BitVec.eq_of_toNat_eq
  have := c.isLt
  rw [repeatByte_toNat, ctrlField_toNat]
  omega

theorem ctrlField_ne_zero {c : Byte} (h : ¬ c.toNat ≤ 0x7F) (hnop : c ≠ 0x80) : ctrlField c ≠ 0 := by
  intro hzero
  rw [← repeatByte_ctrlField h, hzero] at hnop
  exact hnop rfl

theorem literalByte_le (n : BitVec 7) : (0#1 ++ n).toNat ≤ 0x7F := by
  have := n.isLt
  rw [literalByte_toNat]
  omega

theorem not_repeatByte_le (n : BitVec 7) : ¬ (1#1 ++ n).toNat ≤ 0x7F := by
  rw [repeatByte_toNat]
  omega

theorem repeatByte_ne_nop {n : BitVec 7} (hn : n ≠ 0) : 1#1 ++ n ≠ (0x80 : Byte) := by
  intro hnop
  have := congrArg ctrlField hnop
  rw [ctrlField_repeatByte] at this
  exact hn this

/-! ### Decoding (R81, R84, R86) -/

theorem decodeControl_literalByte (n : BitVec 7) : decodeControl (0#1 ++ n) = .lit n := by
  rw [decodeControl, if_pos (literalByte_le n), ctrlField_literalByte]

theorem decodeControl_repeatByte {n : BitVec 7} (hn : n ≠ 0) : decodeControl (1#1 ++ n) = .rep n := by
  rw [decodeControl, if_neg (not_repeatByte_le n), if_neg (repeatByte_ne_nop hn), ctrlField_repeatByte]

theorem commandOfOp_eq_some_iff {op : BitVec 4} {c : Command} : commandOfOp op = some c ↔ op = c.op := by
  revert op
  cases c <;> decide

theorem commandOfOp_eq_none_iff {op : BitVec 4} : commandOfOp op = none ↔ legalOp op = false := by
  revert op
  decide

theorem decodeCommand_legal (c : Command) : decodeCommand (cmdWord c.op 0) = c.instr := by
  rw [decodeCommand_cmdWord_zero, commandOfOp_op]

/-- A word that no command row matches is ILLEGAL with its own fields (R82). -/
theorem decodeCommand_illegal {op : BitVec 4} {rsv : BitVec 28} (h : (Instr.illegal op rsv).wellFormed = true) :
    decodeCommand (cmdWord op rsv) = .illegal op rsv := by
  by_cases hrsv : rsv = 0
  · subst hrsv
    have hop : legalOp op = false := by simpa [Instr.wellFormed] using h
    rw [decodeCommand_cmdWord_zero, commandOfOp_eq_none_iff.2 hop]
  · rw [decodeCommand, cmdRsv_cmdWord, if_neg hrsv, cmdOp_cmdWord]

/-- What a command word is: a legal command with no reserved bit set, or an illegal word (R84). -/
theorem command_word_cases (w : Word) :
    (∃ c : Command, w = cmdWord c.op 0) ∨
    (∃ op rsv, w = cmdWord op rsv ∧ (Instr.illegal op rsv).wellFormed = true) := by
  rw [← cmdWord_fields w]
  by_cases hrsv : cmdRsv w = 0
  · rw [hrsv]
    cases hop : commandOfOp (cmdOp w) with
    | some c => exact Or.inl ⟨c, by rw [commandOfOp_eq_some_iff.1 hop]⟩
    | none => exact Or.inr ⟨_, _, rfl, by simp [Instr.wellFormed, commandOfOp_eq_none_iff.1 hop]⟩
  · exact Or.inr ⟨_, _, rfl, by simpa [Instr.wellFormed] using Or.inr hrsv⟩

/-- What a control byte is: a literal's, the NOP, or a repeat's (R86). -/
theorem control_byte_cases (b : Byte) :
    (∃ n : BitVec 7, b = 0#1 ++ n) ∨ b = 0x80 ∨ ∃ n : BitVec 7, n ≠ 0 ∧ b = 1#1 ++ n := by
  by_cases hlit : b.toNat ≤ 0x7F
  · exact Or.inl ⟨_, (literalByte_ctrlField hlit).symm⟩
  · by_cases hnop : b = 0x80
    · exact Or.inr (Or.inl hnop)
    · exact Or.inr (Or.inr ⟨_, ctrlField_ne_zero hlit hnop, (repeatByte_ctrlField hlit).symm⟩)

theorem encode_command (c : Command) : encode c.instr = .cmd (cmdWord c.op 0) := by
  cases c <;> rfl

end Sys2Proof

namespace Sys2Proof.Proofs

open Sys2Proof Sys2Proof.Machine

/-- Settles O1: each row decodes to itself, and every word and control byte belongs to a row. -/
theorem decodeAndEncodeAreInverse : Obligations.DecodeAndEncodeAreInverse := by
  refine ⟨fun i hwf => ?instruction, fun e => ?encoded⟩
  case instruction =>
    cases i with
    | encl => exact decodeCommand_legal .encl
    | encf => exact decodeCommand_legal .encf
    | decl => exact decodeCommand_legal .decl
    | decf => exact decodeCommand_legal .decf
    | dith => exact decodeCommand_legal .dith
    | illegal op rsv => exact decodeCommand_illegal hwf
    | lit n => exact decodeControl_literalByte n
    | nop => rfl
    | rep n => exact decodeControl_repeatByte (by simpa [Instr.wellFormed] using hwf)
  case encoded =>
    cases e with
    | cmd w =>
      rw [decode]
      obtain ⟨c, rfl⟩ | ⟨op, rsv, rfl, hwf⟩ := command_word_cases w
      · rw [decodeCommand_legal]
        exact ⟨by cases c <;> rfl, encode_command c⟩
      · rw [decodeCommand_illegal hwf]
        exact ⟨hwf, rfl⟩
    | ctrl b =>
      rw [decode]
      obtain ⟨n, rfl⟩ | rfl | ⟨n, hn, rfl⟩ := control_byte_cases b
      · rw [decodeControl_literalByte]
        exact ⟨rfl, rfl⟩
      · exact ⟨rfl, rfl⟩
      · rw [decodeControl_repeatByte hn]
        exact ⟨by simpa [Instr.wellFormed] using hn, rfl⟩

/-- Settles O2: the control byte tells the kind of the group and its length. -/
theorem groupBytesDecodeToTheGroup : Obligations.GroupBytesDecodeToTheGroup := by
  intro g rest hwf
  cases g with
  | lit data =>
    obtain ⟨hpos, hmax⟩ := Group.wellFormed_lit_iff.1 hwf
    refine ⟨?_, rfl⟩
    have hcontrol : (BitVec.ofNat 8 (data.length - 1)).toNat ≤ 0x7F := by
      rw [literalControl_toNat hmax]
      omega
    simp only [encodeGroup, List.cons_append, decodeGroup, if_pos hcontrol, litLength_literalControl hpos hmax]
    rw [if_neg (by rw [List.length_append]; omega), List.take_left, List.drop_left]
  | nop => exact ⟨rfl, rfl⟩
  | rep count v =>
    have hcount := Group.wellFormed_rep_iff.1 hwf
    refine ⟨?_, rfl⟩
    have hcontrol : ¬ (BitVec.ofNat 8 (257 - count)).toNat ≤ 0x7F := by
      rw [repeatControl_toNat hcount.1]
      omega
    simp only [encodeGroup, List.cons_append, List.nil_append, decodeGroup, if_neg hcontrol,
      if_neg (repeatControl_ne_nop hcount), repLength_repeatControl hcount]

/-- Settles O3, by evaluation of the written-out words. -/
theorem writtenOutWordsDecode : Obligations.WrittenOutWordsDecode := by
  unfold Obligations.WrittenOutWordsDecode
  decide

end Sys2Proof.Proofs

/-! PROOFS of the family other: what the engine and the host read (R66, U6). -/

namespace Sys2Proof.Machine

/-! ### Reading bytes (R66) -/

/-- A byte of BUF that holds no value stops its reader (U6). -/
theorem Memory.readByte_unwritten {m : Memory} {a : Nat} (ha : a < Config.bufBytes) (h : m.lookup a = none) :
    m.readByte a = .error (.unwrittenRead a) := by
  simp [Memory.readByte, readValue, ha, h]

/-- Inside BUF a read stops for no other reason than an unwritten byte. -/
theorem Memory.readByte_eq_error {m : Memory} {a : Nat} {f : Fault} (ha : a < Config.bufBytes)
    (h : m.readByte a = .error f) : f = .unwrittenRead a := by
  cases hm : m.lookup a with
  | none => exact (Except.error.inj ((Memory.readByte_unwritten ha hm).symm.trans h)).symm
  | some b => simp [Memory.readByte_eq_ok ha hm] at h

theorem Memory.exists_readByte_eq_ok {m : Memory} {a : Nat} (ha : a < Config.bufBytes) (h : m.lookup a ≠ none) :
    ∃ b, m.readByte a = .ok b := by
  obtain ⟨b, hb⟩ := Option.ne_none_iff_exists'.1 h
  exact ⟨b, Memory.readByte_eq_ok ha hb⟩

theorem Memory.readByte_congr {m m' : Memory} {a : Nat} (h : m'.lookup a = m.lookup a) :
    m'.readByte a = m.readByte a := by
  rw [Memory.readByte, Memory.readByte, h]

/-- A held list is held part by part. -/
theorem Memory.holds_append_iff {m : Memory} {a : Nat} {bs cs : List Byte} :
    m.holds a (bs ++ cs) ↔ m.holds a bs ∧ m.holds (a + bs.length) cs := by
  refine ⟨fun h => ⟨fun i hi => ?_, fun i hi => ?_⟩, fun ⟨hbs, hcs⟩ i hi => ?_⟩
  · have := h i (by rw [List.length_append]; omega)
    rwa [List.getElem_append_left hi] at this
  · have := h (bs.length + i) (by rw [List.length_append]; omega)
    rwa [List.getElem_append_right (Nat.le_add_right _ _), ← Nat.add_assoc,
      getElem_congr_idx (Nat.add_sub_cancel_left ..)] at this
  · by_cases hin : i < bs.length
    · rw [List.getElem_append_left hin]
      exact hbs i hin
    · rw [List.length_append] at hi
      rw [List.getElem_append_right (Nat.not_lt.1 hin)]
      have := hcs (i - bs.length) (by omega)
      rwa [Nat.add_assoc, Nat.add_sub_cancel' (Nat.not_lt.1 hin)] at this

theorem Memory.holds_cons_iff {m : Memory} {a : Nat} {b : Byte} {bs : List Byte} :
    m.holds a (b :: bs) ↔ m.lookup a = some b ∧ m.holds (a + 1) bs := by
  have hsplit : m.holds a (b :: bs) ↔ m.holds a [b] ∧ m.holds (a + 1) bs := Memory.holds_append_iff (bs := [b])
  rw [hsplit]
  simp [Memory.holds]

section

variable {rd rd' : Nat → Except Fault Byte}

theorem readBytes_congr {k n : Nat} (h : ∀ i, k ≤ i → i < k + n → rd i = rd' i) :
    readBytes rd k n = readBytes rd' k n := by
  induction n generalizing k with
  | zero => rfl
  | succ n ih =>
    rw [readBytes, readBytes, h k (Nat.le_refl k) (by omega), ih fun i hi hi' => h i (by omega) (by omega)]

theorem readBytes_shift (a k n : Nat) : readBytes (fun i => rd (a + i)) k n = readBytes rd (a + k) n := by
  induction n generalizing k with
  | zero => rfl
  | succ n ih => rw [readBytes, readBytes, ih, Nat.add_assoc]

theorem readBytes_unreadable {k n : Nat} {f : Fault} (hk : rd k = .error f) : readBytes rd k (n + 1) = .error f := by
  rw [readBytes, hk]

theorem readBytes_succ_eq_error_iff {k n : Nat} {f : Fault} {b : Byte} (hk : rd k = .ok b) :
    readBytes rd k (n + 1) = .error f ↔ readBytes rd (k + 1) n = .error f := by
  rw [readBytes, hk]
  cases readBytes rd (k + 1) n <;> simp

/-- Several bytes cannot be read exactly where the first unreadable one among them stops the reader (R13; log 15). -/
theorem readBytes_eq_error_iff {k n : Nat} {f : Fault} :
    readBytes rd k n = .error f ↔ ∃ i, i < n ∧ (∀ j, j < i → ∃ b, rd (k + j) = .ok b) ∧ rd (k + i) = .error f := by
  induction n generalizing k with
  | zero => simp [readBytes]
  | succ n ih =>
    cases hk : rd k with
    | error f' =>
      rw [readBytes_unreadable hk]
      refine ⟨fun h => ⟨0, Nat.zero_lt_succ n, by simp, by simpa [hk] using h⟩, fun ⟨i, _, hok, hi⟩ => ?_⟩
      cases i with
      | zero => simpa [hk] using hi
      | succ i => simpa [hk] using hok 0 (Nat.zero_lt_succ i)
    | ok b =>
      rw [readBytes_succ_eq_error_iff hk, ih]
      constructor
      · rintro ⟨i, hi, hok, hf⟩
        refine ⟨i + 1, by omega, fun j hj => ?_, by rwa [Nat.add_right_comm] at hf⟩
        cases j with
        | zero => exact ⟨b, hk⟩
        | succ j =>
          rw [← Nat.add_assoc, Nat.add_right_comm]
          exact hok j (by omega)
      · rintro ⟨i, hi, hok, hf⟩
        cases i with
        | zero => simp [hk] at hf
        | succ i =>
          refine ⟨i, by omega, fun j hj => ?_, by rwa [Nat.add_right_comm]⟩
          rw [Nat.add_right_comm]
          exact hok (j + 1) (by omega)

/-- Where several bytes cannot be read, one of them cannot. -/
theorem exists_of_readBytes_eq_error {k n : Nat} {f : Fault} (h : readBytes rd k n = .error f) :
    ∃ i, k ≤ i ∧ i < k + n ∧ rd i = .error f := by
  obtain ⟨i, hi, -, hf⟩ := readBytes_eq_error_iff.1 h
  exact ⟨k + i, by omega, by omega, hf⟩

end

end Sys2Proof.Machine

/-! PROOFS of the family other: results of rows one after another (R131, R165), and the source bytes a result is
computed from (R72, R158). -/

namespace Sys2Proof.Machine

/-! ### Results after bytes already computed -/

/-- The result of a command whose output begins with `written`, where `r` is the result of what remains. -/
def CmdResult.after (written : List Byte) : CmdResult → CmdResult
  | .ok out n => .ok (written ++ out) n
  | .raise e pos line => .raise e pos line
  | .stop f => .stop f

@[simp] theorem CmdResult.after_ok (written out : List Byte) (n : Nat) :
    (CmdResult.ok out n).after written = .ok (written ++ out) n := rfl

@[simp] theorem CmdResult.after_raise (written : List Byte) (e : ErrCode) (pos line : Nat) :
    (CmdResult.raise e pos line).after written = .raise e pos line := rfl

@[simp] theorem CmdResult.after_stop (written : List Byte) (f : Fault) :
    (CmdResult.stop f).after written = .stop f := rfl

@[simp] theorem CmdResult.after_nil (r : CmdResult) : r.after [] = r := by
  cases r <;> rfl

@[simp] theorem CmdResult.after_after (xs ys : List Byte) (r : CmdResult) :
    (r.after ys).after xs = r.after (xs ++ ys) := by
  cases r <;> simp

section

variable {rd rd' : Nat → Except Fault Byte}

/-! ### Encoded rows (R130, R131) -/

/-- A row whose groups fit comes before the rows after it. -/
theorem encodeRows_succ {cap n rows y p : Nat} {row bs : List Byte}
    (hrow : readBytes rd (y * Config.N) Config.N = .ok row) (hemit : emitGroups cap p (encodeGroups row) = .ok bs) :
    encodeRows rd cap n (rows + 1) y p = (encodeRows rd cap n rows (y + 1) (p + bs.length)).after bs := by
  rw [encodeRows, hrow]
  simp only [hemit]
  cases encodeRows rd cap n rows (y + 1) (p + bs.length) <;> rfl

theorem encodeRows_unreadable {cap n rows y p : Nat} {f : Fault}
    (hrow : readBytes rd (y * Config.N) Config.N = .error f) : encodeRows rd cap n (rows + 1) y p = .stop f := by
  rw [encodeRows, hrow]

/-- A row whose groups do not fit ends the command at the first byte of the group that does not (R203). -/
theorem encodeRows_overflow {cap n rows y p k : Nat} {row : List Byte}
    (hrow : readBytes rd (y * Config.N) Config.N = .ok row) (hemit : emitGroups cap p (encodeGroups row) = .error k) :
    encodeRows rd cap n (rows + 1) y p = .raise .dstOverflow (y * Config.N + k) y := by
  rw [encodeRows, hrow]
  simp only [hemit]

/-- Rows whose encodings fit come before the rows after them. -/
theorem encodeRows_before {cap n rows y p : Nat} {before : List (List Byte)} (hlen : ∀ r ∈ before, r.length = 72)
    (hreads : readBytes rd (y * 72) before.flatten.length = .ok before.flatten)
    (hfit : p + (before.flatMap encodeLine).length ≤ cap) :
    encodeRows rd cap n (before.length + rows) y p =
      (encodeRows rd cap n rows (y + before.length) (p + (before.flatMap encodeLine).length)).after
        (before.flatMap encodeLine) := by
  induction before generalizing y p with
  | nil => simp
  | cons row before ih =>
    obtain ⟨hrow, hbefore⟩ := List.forall_mem_cons.1 hlen
    rw [List.flatten_cons] at hreads
    obtain ⟨hreadsrow, hreads⟩ := readBytes_append_iff.1 hreads
    rw [hrow] at hreadsrow hreads
    rw [← Nat.add_one_mul] at hreads
    rw [List.flatMap_cons, List.length_append] at hfit
    rw [List.length_cons, Nat.add_right_comm, encodeRows_succ hreadsrow (emitGroups_ok (by rw [← encodeLine]; omega)),
      ← encodeLine, ih hbefore hreads (by omega), CmdResult.after_after, List.flatMap_cons, List.length_append]
    simp only [Nat.add_assoc, Nat.add_comm 1]

/-! ### Decoded rows (R155, R165) -/

/-- A decoded scanline comes before the scanlines after it. -/
theorem decodeRows_succ {len rows y cur : Nat} {d : Decoder}
    (hline : decodeLine rd len (len + 1) { cur := cur, out := [], line := y } = .ok d) :
    decodeRows rd len (rows + 1) y cur = (decodeRows rd len rows (y + 1) d.cur).after d.out := by
  rw [decodeRows, hline]
  simp only
  cases decodeRows rd len rows (y + 1) d.cur <;> rfl

theorem decodeRows_err {len rows y cur pos : Nat} {e : ErrCode}
    (hline : decodeLine rd len (len + 1) { cur := cur, out := [], line := y } = .err e pos) :
    decodeRows rd len (rows + 1) y cur = .raise e pos y := by
  rw [decodeRows, hline]

theorem decodeRows_stop {len rows y cur : Nat} {f : Fault}
    (hline : decodeLine rd len (len + 1) { cur := cur, out := [], line := y } = .stop f) :
    decodeRows rd len (rows + 1) y cur = .stop f := by
  rw [decodeRows, hline]

/-- Legally formed scanlines come before the scanlines after them. -/
theorem decodeRows_before {len rows y cur : Nat} {lines : List (List Group)} (hlegal : ∀ gs ∈ lines, LegalLine gs)
    (hreads : readBytes rd cur (lines.flatMap streamBytes).length = .ok (lines.flatMap streamBytes))
    (hlen : cur + (lines.flatMap streamBytes).length ≤ len) :
    decodeRows rd len (lines.length + rows) y cur =
      (decodeRows rd len rows (y + lines.length) (cur + (lines.flatMap streamBytes).length)).after
        (lines.flatMap streamOutput) := by
  induction lines generalizing y cur with
  | nil => simp
  | cons gs lines ih =>
    obtain ⟨⟨hwf, hout, hlast⟩, hlines⟩ := List.forall_mem_cons.1 hlegal
    rw [List.flatMap_cons] at hreads
    obtain ⟨hreadsgs, hreads⟩ := readBytes_append_iff.1 hreads
    rw [List.flatMap_cons, List.length_append] at hlen
    have hline := decodeLine_streamBytes (d := { cur := cur, out := [], line := y }) (fuel := len + 1) hwf hlast
      (by simpa using hout) hreadsgs (len := len) (by simp only; omega) (by omega)
    rw [List.length_cons, Nat.add_right_comm, decodeRows_succ hline, ih hlines hreads (by omega),
      CmdResult.after_after, List.flatMap_cons, List.flatMap_cons, List.length_append, List.nil_append]
    simp only [Nat.add_assoc, Nat.add_comm 1]

/-! ### One scanline, group by group (R155) -/

theorem decodeLine_done {len fuel : Nat} {d : Decoder} (hout : Config.N ≤ d.out.length) :
    decodeLine rd len (fuel + 1) d = .ok d := by
  rw [decodeLine, if_pos hout]

/-- Where the stream has run out, the scanline is truncated (R154 (a)). -/
theorem decodeLine_exhausted {len fuel : Nat} {d : Decoder} (hout : d.out.length < Config.N) (hcur : len ≤ d.cur) :
    decodeLine rd len (fuel + 1) d = .err .fmtTruncated d.cur := by
  rw [decodeLine, if_neg (Nat.not_le.2 hout), if_pos hcur]

theorem decodeLine_unreadable {len fuel : Nat} {d : Decoder} {f : Fault} (hout : d.out.length < Config.N)
    (hcur : d.cur < len) (hread : rd d.cur = .error f) : decodeLine rd len (fuel + 1) d = .stop f := by
  rw [decodeLine, if_neg (Nat.not_le.2 hout), if_neg (Nat.not_le.2 hcur), hread]

section

variable {len fuel : Nat} {d : Decoder} {c : Byte} (hout : d.out.length < Config.N) (hcur : d.cur < len)
  (hread : rd d.cur = .ok c)

include hout hcur hread

theorem decodeLine_ok_group {d' : Decoder} (hgroup : groupStep rd len c d = .ok d') :
    decodeLine rd len (fuel + 1) d = decodeLine rd len fuel d' := by
  rw [decodeLine, if_neg (Nat.not_le.2 hout), if_neg (Nat.not_le.2 hcur), hread]
  simp only [hgroup]

theorem decodeLine_err_group {e : ErrCode} {pos : Nat} (hgroup : groupStep rd len c d = .err e pos) :
    decodeLine rd len (fuel + 1) d = .err e pos := by
  rw [decodeLine, if_neg (Nat.not_le.2 hout), if_neg (Nat.not_le.2 hcur), hread]
  simp only [hgroup]

theorem decodeLine_stop_group {f : Fault} (hgroup : groupStep rd len c d = .stop f) :
    decodeLine rd len (fuel + 1) d = .stop f := by
  rw [decodeLine, if_neg (Nat.not_le.2 hout), if_neg (Nat.not_le.2 hcur), hread]
  simp only [hgroup]

end

/-- Groups that do not complete the scanline leave the decode of what follows them. -/
theorem decodeLine_before {len fuel : Nat} {d : Decoder} {part : List Group} (hwf : ∀ g ∈ part, g.wellFormed = true)
    (hout : d.out.length + (streamOutput part).length < Config.N)
    (hreads : readBytes rd d.cur (streamBytes part).length = .ok (streamBytes part))
    (hlen : d.cur + (streamBytes part).length ≤ len) :
    decodeLine rd len (fuel + part.length) d =
      decodeLine rd len fuel
        { d with cur := d.cur + (streamBytes part).length, out := d.out ++ streamOutput part } := by
  induction part generalizing d with
  | nil => simp [streamBytes, streamOutput]
  | cons g part ih =>
    have hg := encodeGroup_length_pos g
    obtain ⟨hwfg, hwfpart⟩ := List.forall_mem_cons.1 hwf
    rw [streamBytes_cons] at hreads hlen ⊢
    rw [streamOutput_cons] at hout ⊢
    obtain ⟨hreadsg, hreads⟩ := readBytes_append_iff.1 hreads
    rw [List.length_append] at hout hlen
    obtain ⟨c, hc, hstep⟩ := groupStep_encodeGroup hwfg hreadsg (len := len) (by omega) (by omega)
    rw [List.length_cons, ← Nat.add_assoc, decodeLine_ok_group (by omega) (by omega) hc hstep,
      ih hwfpart (by rw [List.length_append]; omega) hreads (by simp only; omega)]
    simp only [List.length_append, Nat.add_assoc, List.append_assoc]

theorem length_le_streamBytes (gs : List Group) : gs.length ≤ (streamBytes gs).length := by
  induction gs with
  | nil => exact Nat.zero_le _
  | cons g gs ih =>
    have hg := encodeGroup_length_pos g
    rw [streamBytes_cons, List.length_append, List.length_cons]
    omega

/-! ### The group of a control byte (R150 to R153) -/

theorem groupStep_literalByte (len : Nat) (n : BitVec 7) (d : Decoder) :
    groupStep rd len (0#1 ++ n) d = litStep rd len n d := by
  rw [groupStep, if_pos (literalByte_le n), ctrlField_literalByte]

theorem groupStep_repeatByte (len : Nat) {n : BitVec 7} (hn : n ≠ 0) (d : Decoder) :
    groupStep rd len (1#1 ++ n) d = repStep rd len n d := by
  rw [groupStep, if_neg (not_repeatByte_le n), if_neg (repeatByte_ne_nop hn), ctrlField_repeatByte]

variable {len : Nat} {n : BitVec 7} {d : Decoder}

theorem litStep_overrun (h : 72 < d.out.length + litLength n) : litStep rd len n d = .err .fmtOverrun d.cur := by
  rw [litStep, if_pos h]

theorem litStep_cut (hout : d.out.length + litLength n ≤ 72) (hlen : len < d.cur + 1 + litLength n) :
    litStep rd len n d = .err .fmtTruncated d.cur := by
  rw [litStep, if_neg (Nat.not_lt.2 hout), if_pos hlen]

theorem litStep_ok {data : List Byte} (hout : d.out.length + litLength n ≤ 72) (hlen : d.cur + 1 + litLength n ≤ len)
    (hread : readBytes rd (d.cur + 1) (litLength n) = .ok data) :
    litStep rd len n d = .ok { d with cur := d.cur + 1 + litLength n, out := d.out ++ data } := by
  rw [litStep, if_neg (Nat.not_lt.2 hout), if_neg (Nat.not_lt.2 hlen), hread]

theorem litStep_stop {f : Fault} (hout : d.out.length + litLength n ≤ 72) (hlen : d.cur + 1 + litLength n ≤ len)
    (hread : readBytes rd (d.cur + 1) (litLength n) = .error f) : litStep rd len n d = .stop f := by
  rw [litStep, if_neg (Nat.not_lt.2 hout), if_neg (Nat.not_lt.2 hlen), hread]

theorem repStep_overrun (h : 72 < d.out.length + repLength n) : repStep rd len n d = .err .fmtOverrun d.cur := by
  rw [repStep, if_pos h]

theorem repStep_cut (hout : d.out.length + repLength n ≤ 72) (hlen : len < d.cur + 2) :
    repStep rd len n d = .err .fmtTruncated d.cur := by
  rw [repStep, if_neg (Nat.not_lt.2 hout), if_pos hlen]

theorem repStep_ok {v : Byte} (hout : d.out.length + repLength n ≤ 72) (hlen : d.cur + 2 ≤ len)
    (hread : rd (d.cur + 1) = .ok v) :
    repStep rd len n d = .ok { d with cur := d.cur + 2, out := d.out ++ List.replicate (repLength n) v } := by
  rw [repStep, if_neg (Nat.not_lt.2 hout), if_neg (Nat.not_lt.2 hlen), hread]

theorem repStep_stop {f : Fault} (hout : d.out.length + repLength n ≤ 72) (hlen : d.cur + 2 ≤ len)
    (hread : rd (d.cur + 1) = .error f) : repStep rd len n d = .stop f := by
  rw [repStep, if_neg (Nat.not_lt.2 hout), if_neg (Nat.not_lt.2 hlen), hread]

end

end Sys2Proof.Machine

/-! PROOFS of the family other: which source bytes a result is computed from (R72, R158), where a stop comes from (U6),
and the ditherer's pixels as a list (R180). -/

namespace Sys2Proof.Machine

open Sys2Proof.Config (DivRound)

/-! ### The ditherer's pixels in raster order (R39, R180) -/

/-- The pixels of a list, one after another. -/
def ditherPixels (r : DivRound) (w h : Nat) (pixels : List Byte) (d : Ditherer) : Ditherer :=
  pixels.foldl (fun d g => ditherPixel r w h g d) d

@[simp] theorem ditherPixels_nil (r : DivRound) (w h : Nat) (d : Ditherer) : ditherPixels r w h [] d = d := rfl

@[simp] theorem ditherPixels_cons (r : DivRound) (w h : Nat) (g : Byte) (pixels : List Byte) (d : Ditherer) :
    ditherPixels r w h (g :: pixels) d = ditherPixels r w h pixels (ditherPixel r w h g d) := rfl

/-- Dithering a grid is dithering the list of its pixels in raster order. -/
theorem ditherSteps_eq_ditherPixels (r : DivRound) {w : Nat} (h : Nat) {g : Nat → Nat → Byte} {pixels : List Byte}
    {d : Ditherer} (hx : d.x < w)
    (hpixels : ∀ i (hi : i < pixels.length) x y, x < w → y * w + x = d.y * w + d.x + i → g x y = pixels[i]) :
    ditherSteps r w h g pixels.length d = ditherPixels r w h pixels d := by
  induction pixels generalizing d with
  | nil => rfl
  | cons b pixels ih =>
    have hb : g d.x d.y = b := hpixels 0 (Nat.zero_lt_succ _) d.x d.y hx rfl
    obtain ⟨hx', hposition⟩ := ditherPixel_position r h b hx
    rw [List.length_cons, ditherSteps, hb, ditherPixels_cons]
    refine ih hx' fun i hi x y hxw hpos => ?_
    rw [hposition] at hpos
    exact hpixels (i + 1) (Nat.succ_lt_succ hi) x y hxw (by omega)

/-- The result of DITH from the raster position on: the pixels that are left are read and dithered (R181). -/
def ditherRest (r : DivRound) (rd : Nat → Except Fault Byte) (d : Ditherer) : CmdResult :=
  match readBytes rd (d.y * Config.W + d.x) (Config.gridBytes - (d.y * Config.W + d.x)) with
  | .error f => .stop f
  | .ok pixels => .ok (packBitmap Config.W Config.H (ditherPixels r Config.W Config.H pixels d).bits) Config.gridBytes

section

variable {rd rd' : Nat → Except Fault Byte}

theorem ditherRest_ok {r : DivRound} {d : Ditherer} {pixels : List Byte}
    (hread : readBytes rd (d.y * Config.W + d.x) (Config.gridBytes - (d.y * Config.W + d.x)) = .ok pixels) :
    ditherRest r rd d =
      .ok (packBitmap Config.W Config.H (ditherPixels r Config.W Config.H pixels d).bits) Config.gridBytes := by
  rw [ditherRest, hread]

theorem ditherRest_unreadable {r : DivRound} {d : Ditherer} {f : Fault}
    (hread : readBytes rd (d.y * Config.W + d.x) (Config.gridBytes - (d.y * Config.W + d.x)) = .error f) :
    ditherRest r rd d = .stop f := by
  rw [ditherRest, hread]

theorem gather_eq (n k : Nat) (acc : Array Byte) :
    gather rd n k acc = (readBytes rd k n).map (fun bs => acc ++ bs.toArray) := by
  induction n generalizing k acc with
  | zero => simp [gather, readBytes, Except.map]
  | succ n ih =>
    rw [gather, readBytes]
    cases rd k with
    | error f => rfl
    | ok b =>
      simp only [ih]
      cases readBytes rd (k + 1) n <;> simp [Except.map]

theorem ditherStart_position (w h : Nat) : (ditherStart w h).y * w + (ditherStart w h).x = 0 := by
  simp [ditherStart]

/-- The dither function of a list of pixels laid out row by row. -/
theorem ditherFn_eq_ditherPixels (r : DivRound) {w h : Nat} (hw : 0 < w) {g : Nat → Nat → Byte} {pixels : List Byte}
    (hlen : pixels.length = w * h)
    (hpixels : ∀ i (hi : i < pixels.length) x y, x < w → y * w + x = i → g x y = pixels[i]) :
    ditherFn r w h g = (ditherPixels r w h pixels (ditherStart w h)).bits := by
  rw [ditherFn, ← hlen, ditherSteps_eq_ditherPixels r h (by exact hw) fun i hi x y hx hpos =>
    hpixels i hi x y hx (by rwa [ditherStart_position, Nat.zero_add] at hpos)]

/-- The pixels of a grid in raster order. -/
def rasterPixels (w h : Nat) (g : Nat → Nat → Byte) : List Byte := (List.range (w * h)).map fun k => g (k % w) (k / w)

@[simp] theorem rasterPixels_length (w h : Nat) (g : Nat → Nat → Byte) : (rasterPixels w h g).length = w * h := by
  simp [rasterPixels]

theorem rasterPixels_getElem {w h k : Nat} {g : Nat → Nat → Byte} (hk : k < (rasterPixels w h g).length) :
    (rasterPixels w h g)[k] = g (k % w) (k / w) := by
  simp [rasterPixels]

/-- The dither function of a grid is that of its pixels in raster order. -/
theorem ditherFn_eq_rasterPixels (r : DivRound) {w : Nat} (hw : 0 < w) (h : Nat) (g : Nat → Nat → Byte) :
    ditherFn r w h g = (ditherPixels r w h (rasterPixels w h g) (ditherStart w h)).bits :=
  ditherFn_eq_ditherPixels r hw (rasterPixels_length w h g) fun i hi x y hx hpos => by
    rw [rasterPixels_getElem hi, ← hpos, Nat.mul_add_mod', Nat.mod_eq_of_lt hx, Nat.add_comm,
      Nat.add_mul_div_right _ _ hw, Nat.div_eq_of_lt hx, Nat.zero_add]

/-- DITH is what is left of it at the first pixel. -/
theorem ditherBody_eq_ditherRest (r : DivRound) :
    ditherBody r rd = ditherRest r rd (ditherStart Config.W Config.H) := by
  rw [ditherBody, gather_eq, ditherRest, ditherStart_position, Nat.sub_zero]
  cases hread : readBytes rd 0 Config.gridBytes with
  | error f => rfl
  | ok pixels =>
    simp only [Except.map, Array.empty_append]
    rw [ditherFn_eq_ditherPixels r (by decide) (readBytes_length hread) fun i hi x y _ hpos => by
      simp [hpos, Array.getD_eq_getD_getElem?, hi]]

/-! ### The same bytes give the same result (R72, R158) -/

theorem groupStep_congr {len : Nat} {c : Byte} {d : Decoder} (h : ∀ k, k < len → rd k = rd' k) :
    groupStep rd len c d = groupStep rd' len c d := by
  have hlit : ∀ n, litStep rd len n d = litStep rd' len n d := fun n => by
    unfold litStep
    split_ifs with hout hlen
    · rfl
    · rfl
    · rw [readBytes_congr fun i _ hi => h i (by omega)]
  have hrep : ∀ n, repStep rd len n d = repStep rd' len n d := fun n => by
    unfold repStep
    split_ifs with hout hlen
    · rfl
    · rfl
    · rw [h (d.cur + 1) (by omega)]
  rw [groupStep, groupStep, hlit, hrep]

theorem decodeLine_congr {len fuel : Nat} {d : Decoder} (h : ∀ k, k < len → rd k = rd' k) :
    decodeLine rd len fuel d = decodeLine rd' len fuel d := by
  induction fuel generalizing d with
  | zero => rfl
  | succ fuel ih =>
    rw [decodeLine, decodeLine]
    split_ifs with hout hcur
    · rfl
    · rfl
    · simp only [h d.cur (Nat.not_le.1 hcur), groupStep_congr h, ih]

theorem decodeRows_congr {len rows y cur : Nat} (h : ∀ k, k < len → rd k = rd' k) :
    decodeRows rd len rows y cur = decodeRows rd' len rows y cur := by
  induction rows generalizing y cur with
  | zero => rfl
  | succ rows ih =>
    rw [decodeRows, decodeRows]
    simp only [decodeLine_congr h, ih]

theorem encodeRows_congr {cap n rows y p : Nat} (h : ∀ k, k < (y + rows) * 72 → rd k = rd' k) :
    encodeRows rd cap n rows y p = encodeRows rd' cap n rows y p := by
  induction rows generalizing y p with
  | zero => rfl
  | succ rows ih =>
    have hrow : readBytes rd (y * Config.N) Config.N = readBytes rd' (y * Config.N) Config.N :=
      readBytes_congr fun i _ hi => h i (by simp only [Config.N] at hi; omega)
    rw [encodeRows, encodeRows, hrow]
    simp only [fun p => ih (y := y + 1) (p := p) fun k hk => h k (by rwa [Nat.add_right_comm, Nat.add_assoc] at hk)]

theorem ditherBody_congr {r : DivRound} (h : ∀ k, k < Config.gridBytes → rd k = rd' k) :
    ditherBody r rd = ditherBody r rd' := by
  rw [ditherBody, ditherBody, gather_eq, gather_eq, readBytes_congr fun i _ hi => h i (by omega)]

/-! ### A stop comes from a byte that cannot be read (U6) -/

theorem groupStep_eq_stop {len : Nat} {c : Byte} {d : Decoder} {f : Fault} (h : groupStep rd len c d = .stop f) :
    ∃ k, k < len ∧ rd k = .error f := by
  obtain ⟨n, rfl⟩ | rfl | ⟨n, hn, rfl⟩ := control_byte_cases c
  · rw [groupStep_literalByte] at h
    unfold litStep at h
    split_ifs at h with hout hlen
    cases hread : readBytes rd (d.cur + 1) (litLength n) with
    | error f' =>
      rw [hread] at h
      cases h
      obtain ⟨k, -, hk, hf⟩ := exists_of_readBytes_eq_error hread
      exact ⟨k, by omega, hf⟩
    | ok data => simp [hread] at h
  · cases h
  · rw [groupStep_repeatByte len hn] at h
    unfold repStep at h
    split_ifs at h with hout hlen
    cases hread : rd (d.cur + 1) with
    | error f' =>
      rw [hread] at h
      cases h
      exact ⟨d.cur + 1, by omega, hread⟩
    | ok v => simp [hread] at h

theorem decodeLine_eq_stop {len fuel : Nat} {d : Decoder} {f : Fault} (h : decodeLine rd len fuel d = .stop f) :
    ∃ k, k < len ∧ rd k = .error f := by
  induction fuel generalizing d with
  | zero => cases h
  | succ fuel ih =>
    unfold decodeLine at h
    split_ifs at h with hout hcur
    split at h
    · next hread =>
      cases h
      exact ⟨d.cur, Nat.not_le.1 hcur, hread⟩
    · split at h
      · exact ih h
      · cases h
      · next hgroup =>
        cases h
        exact groupStep_eq_stop hgroup

theorem decodeRows_eq_stop {len rows y cur : Nat} {f : Fault} (h : decodeRows rd len rows y cur = .stop f) :
    ∃ k, k < len ∧ rd k = .error f := by
  induction rows generalizing y cur with
  | zero => cases h
  | succ rows ih =>
    unfold decodeRows at h
    split at h
    · next hline =>
      cases h
      exact decodeLine_eq_stop hline
    · cases h
    · split at h
      · cases h
      · cases h
      · next hrest =>
        cases h
        exact ih hrest

theorem encodeRows_eq_stop {cap n rows y p : Nat} {f : Fault} (h : encodeRows rd cap n rows y p = .stop f) :
    ∃ k, k < (y + rows) * 72 ∧ rd k = .error f := by
  induction rows generalizing y p with
  | zero => cases h
  | succ rows ih =>
    unfold encodeRows at h
    split at h
    · next hread =>
      cases h
      obtain ⟨k, -, hk, hf⟩ := exists_of_readBytes_eq_error hread
      simp only [Config.N] at hk
      exact ⟨k, by omega, hf⟩
    · split at h
      · cases h
      · split at h
        · cases h
        · cases h
        · next hrest =>
          cases h
          obtain ⟨k, hk, hf⟩ := ih hrest
          exact ⟨k, by omega, hf⟩

theorem ditherBody_eq_stop {r : DivRound} {f : Fault} (h : ditherBody r rd = .stop f) :
    ∃ k, k < Config.gridBytes ∧ rd k = .error f := by
  unfold ditherBody at h
  rw [gather_eq] at h
  cases hread : readBytes rd 0 Config.gridBytes with
  | error f' =>
    simp only [hread, Except.map, CmdResult.stop.injEq] at h
    subst h
    obtain ⟨k, -, hk, hf⟩ := exists_of_readBytes_eq_error hread
    exact ⟨k, by omega, hf⟩
  | ok bs => simp [hread, Except.map] at h

end

end Sys2Proof.Machine

namespace Sys2Proof

open Machine

section

variable {c : Command} {l : Latch} {rd rd' : Nat → Except Fault Byte}

/-! ### The commands by kind (R83) -/

theorem body_encode (hc : c = .encl ∨ c = .encf) (l : Latch) (rd : Nat → Except Fault Byte) :
    c.body l rd = encodeRows rd l.dstLen.toNat (c.lines * 72) c.lines 0 0 := by
  obtain rfl | rfl := hc <;> rfl

theorem inLen_encode (hc : c = .encl ∨ c = .encf) (l : Latch) : c.inLen l = c.lines * 72 := by
  obtain rfl | rfl := hc <;> rfl

theorem outLen_encode (hc : c = .encl ∨ c = .encf) (l : Latch) : c.outLen l = l.dstLen.toNat := by
  obtain rfl | rfl := hc <;> rfl

theorem body_decode (hc : c = .decl ∨ c = .decf) (l : Latch) (rd : Nat → Except Fault Byte) :
    c.body l rd = decodeRows rd l.srcLen.toNat c.lines 0 0 := by
  obtain rfl | rfl := hc <;> rfl

theorem inLen_decode (hc : c = .decl ∨ c = .decf) (l : Latch) : c.inLen l = l.srcLen.toNat := by
  obtain rfl | rfl := hc <;> rfl

theorem outLen_decode (hc : c = .decl ∨ c = .decf) (l : Latch) : c.outLen l = c.lines * 72 := by
  obtain rfl | rfl := hc <;> rfl

theorem command_kinds (c : Command) : (c = .encl ∨ c = .encf) ∨ (c = .decl ∨ c = .decf) ∨ c = .dith := by
  cases c <;> simp

theorem lines_le (c : Command) : c.lines ≤ 720 := by
  cases c <;> decide

/-! ### The source region (R72, R83) -/

/-- A command's result is computed from its source region (R158). -/
theorem body_congr (h : ∀ k, k < c.inLen l → rd k = rd' k) : c.body l rd = c.body l rd' := by
  obtain hc | hc | rfl := command_kinds c
  · rw [inLen_encode hc] at h
    rw [body_encode hc, body_encode hc, encodeRows_congr (by simpa using h)]
  · rw [inLen_decode hc] at h
    rw [body_decode hc, body_decode hc, decodeRows_congr h]
  · exact ditherBody_congr h

/-- A command that stops has met an unreadable byte of its source region. -/
theorem body_eq_stop {f : Fault} (h : c.body l rd = .stop f) : ∃ k, k < c.inLen l ∧ rd k = .error f := by
  obtain hc | hc | rfl := command_kinds c
  · rw [body_encode hc] at h
    rw [inLen_encode hc]
    simpa using encodeRows_eq_stop h
  · rw [body_decode hc] at h
    rw [inLen_decode hc]
    exact decodeRows_eq_stop h
  · exact ditherBody_eq_stop h

end

end Sys2Proof

/-! PROOFS of the family other: the completion step of each command (R115, R120 to R122), from its body's result. -/

namespace Sys2Proof

open Machine

section

variable {c : Command} {s : State}

/-! ### A ready command and the result of its body -/

theorem exec_of_body_ok {out : List Byte} {n : Nat} (hready : Ready c s.latch)
    (hbody : c.body s.latch s.sourceByte = .ok out n) :
    exec c.instr s = .next (s.complete .noError 0 0 n out.length (s.mem.write s.latch.dst.toNat out)) := by
  obtain ⟨-, -, ⟨-, hregion⟩, -⟩ := id hready
  have hle := body_ok_le hbody
  rw [exec_command, (precheck_eq_none_iff c s.latch).2 hready, hbody]
  simp only [Memory.store_inside s.mem (show s.latch.dst.toNat + out.length ≤ Config.bufBytes by
    simp only [Config.bufBytes]; omega), State.succeed_eq]

theorem exec_of_body_raise {e : ErrCode} {pos line : Nat} (hready : Ready c s.latch)
    (hbody : c.body s.latch s.sourceByte = .raise e pos line) :
    exec c.instr s =
      .next (s.complete e pos line 0 0 (s.mem.forget s.latch.dst.toNat (c.outLen s.latch))) := by
  rw [exec_command, (precheck_eq_none_iff c s.latch).2 hready, hbody]
  rfl

theorem exec_of_body_stop {f : Fault} (hready : Ready c s.latch) (hbody : c.body s.latch s.sourceByte = .stop f) :
    exec c.instr s = .fault f := by
  rw [exec_command, (precheck_eq_none_iff c s.latch).2 hready, hbody]

/-- A destination region lies in BUF, so the count of bytes written fits its register (R33). -/
theorem outLen_lt_of_ready (hready : Ready c s.latch) : c.outLen s.latch < 2 ^ 21 := by
  obtain ⟨-, -, ⟨-, hregion⟩, -⟩ := hready
  omega

/-- A command whose body succeeds completes with success and writes its output (R122). -/
theorem succeeds_of_body {out : List Byte} {n : Nat} (hready : Ready c s.latch)
    (hbody : c.body s.latch s.sourceByte = .ok out n) (hn : n < 2 ^ 21) :
    ∃ t, exec c.instr s = .next t ∧ s.completedTo t .noError 0 0 n out.length ∧
      s.mem.wrote t.mem s.latch.dst.toNat out :=
  ⟨_, exec_of_body_ok hready hbody,
    s.completedTo_complete _ _ (by decide) (by decide) hn ((body_ok_le hbody).trans_lt (outLen_lt_of_ready hready)),
    s.mem.wrote_write _ _⟩

/-- A command whose body raises an error completes with it and leaves its destination region unwritten (R121). -/
theorem fails_of_body {e : ErrCode} {pos line : Nat} (hready : Ready c s.latch)
    (hbody : c.body s.latch s.sourceByte = .raise e pos line) (hpos : pos < 2 ^ 21) (hline : line < 2 ^ 16) :
    ∃ t, exec c.instr s = .next t ∧ s.completedTo t e pos line 0 0 ∧
      s.mem.forgot t.mem s.latch.dst.toNat (c.outLen s.latch) :=
  ⟨_, exec_of_body_raise hready hbody, s.completedTo_complete _ _ hpos hline (by decide) (by decide),
    s.mem.forgot_forget _ _⟩

/-! ### The source region in memory -/

/-- A byte of the source region that holds no value stops the engine that reads it (U6). -/
theorem Machine.State.sourceByte_unwritten {k : Nat} (hk : s.latch.src.toNat + k < 1048576)
    (h : s.mem.lookup (s.latch.src.toNat + k) = none) :
    s.sourceByte k = .error (.unwrittenRead (s.latch.src.toNat + k)) :=
  Memory.readByte_unwritten hk h

theorem Machine.State.sourceByte_eq_ok {k : Nat} {b : Byte} (hk : s.latch.src.toNat + k < 1048576)
    (h : s.mem.lookup (s.latch.src.toNat + k) = some b) : s.sourceByte k = .ok b :=
  Memory.readByte_eq_ok hk h

/-- Held bytes of the source region are read as they are (R66). -/
theorem Machine.State.readBytes_sourceByte {k : Nat} {bs : List Byte} (h : s.mem.holds (s.latch.src.toNat + k) bs)
    (hfit : s.latch.src.toNat + k + bs.length ≤ 1048576) : readBytes s.sourceByte k bs.length = .ok bs :=
  readBytes_eq_ok fun i hi => by
    rw [State.sourceByte, ← Nat.add_assoc]
    exact Memory.readByte_eq_ok (by simp only [Config.bufBytes]; omega) (h i hi)

/-- Bytes of the source region of which the first `held` and no more are held stop their reader (U6; log 15). -/
theorem Machine.State.readBytes_sourceByte_stop {k n : Nat} {held : List Byte}
    (h : s.mem.holds (s.latch.src.toNat + k) held) (hn : held.length < n) (hfit : s.latch.src.toNat + k + n ≤ 1048576)
    (hnone : s.mem.lookup (s.latch.src.toNat + k + held.length) = none) :
    readBytes s.sourceByte k n = .error (.unwrittenRead (s.latch.src.toNat + k + held.length)) := by
  rw [readBytes_eq_error_iff]
  refine ⟨held.length, hn, fun j hj => ⟨held[j], State.sourceByte_eq_ok (by omega) ?_⟩, ?_⟩
  · rw [← Nat.add_assoc]
    exact h j hj
  · rw [Nat.add_assoc]
    exact State.sourceByte_unwritten (by omega) (by rwa [← Nat.add_assoc])

/-! ### ENCL and ENCF (R130, R131) -/

theorem length_flatten_of_forall {rows : List (List Byte)} (h : ∀ r ∈ rows, r.length = 72) :
    rows.flatten.length = rows.length * 72 := by
  rw [List.length_flatten, List.map_congr_left h]
  simp

section

variable (hc : c = .encl ∨ c = .encf) (hready : Ready c s.latch)

include hc hready

theorem encode_source_le : s.latch.src.toNat + c.lines * 72 ≤ 1048576 := by
  obtain ⟨-, -, ⟨hregion, -⟩, -⟩ := hready
  rwa [inLen_encode hc] at hregion

/-- Whatever rows remain, those before them are encoded where their encodings fit. -/
theorem body_encode_before {before : List (List Byte)} {rows : Nat} (hlines : before.length + rows = c.lines)
    (hrows : ∀ r ∈ before, r.length = 72) (hholds : s.mem.holds s.latch.src.toNat before.flatten)
    (hfit : (before.flatMap encodeLine).length ≤ s.latch.dstLen.toNat) :
    c.body s.latch s.sourceByte =
      (encodeRows s.sourceByte s.latch.dstLen.toNat (c.lines * 72) rows before.length
        (before.flatMap encodeLine).length).after (before.flatMap encodeLine) := by
  have hsource := encode_source_le hc hready
  have hlen := length_flatten_of_forall hrows
  have hreads : readBytes s.sourceByte 0 before.flatten.length = .ok before.flatten :=
    State.readBytes_sourceByte hholds (by omega)
  rw [body_encode hc]
  conv_lhs => rw [← hlines]
  rw [encodeRows_before hrows (by rwa [Nat.zero_mul]) (by rwa [Nat.zero_add]), Nat.zero_add, Nat.zero_add, hlines]

/-- A readable bitmap whose encoding fits is encoded row after row. -/
theorem encode_succeeds {rows : List (List Byte)} (hlines : rows.length = c.lines) (hrows : ∀ r ∈ rows, r.length = 72)
    (hholds : s.mem.holds s.latch.src.toNat rows.flatten)
    (hfit : (rows.flatMap encodeLine).length ≤ s.latch.dstLen.toNat) :
    ∃ t, exec c.instr s = .next t ∧
      s.completedTo t .noError 0 0 (c.lines * 72) (rows.flatMap encodeLine).length ∧
      s.mem.wrote t.mem s.latch.dst.toNat (rows.flatMap encodeLine) := by
  have hbody := body_encode_before hc hready (rows := 0) hlines hrows hholds hfit
  rw [encodeRows, CmdResult.after_ok, List.append_nil] at hbody
  have hle := lines_le c
  exact succeeds_of_body hready hbody (by omega)

end

/-! ### DECL and DECF (R155, R160, R165) -/

/-- A decode after whole scanlines and the groups of a part of the next (R38). -/
def decoderAfter (lines : List (List Group)) (part : List Group) : Decoder where
  cur := (lines.flatMap streamBytes ++ streamBytes part).length
  out := streamOutput part
  line := lines.length

section

variable (hc : c = .decl ∨ c = .decf) (hready : Ready c s.latch)

include hc hready

theorem decode_source_le : s.latch.src.toNat + s.latch.srcLen.toNat ≤ 1048576 := by
  obtain ⟨-, -, ⟨hregion, -⟩, -⟩ := hready
  rwa [inLen_decode hc] at hregion

/-- Whatever scanlines remain, legally formed ones before them are decoded. -/
theorem body_decode_before {lines : List (List Group)} {rows : Nat} (hlines : lines.length + rows = c.lines)
    (hlegal : ∀ gs ∈ lines, LegalLine gs) (hholds : s.mem.holds s.latch.src.toNat (lines.flatMap streamBytes))
    (hlen : (lines.flatMap streamBytes).length ≤ s.latch.srcLen.toNat) :
    c.body s.latch s.sourceByte =
      (decodeRows s.sourceByte s.latch.srcLen.toNat rows lines.length (lines.flatMap streamBytes).length).after
        (lines.flatMap streamOutput) := by
  have hsource := decode_source_le hc hready
  rw [body_decode hc, ← hlines, decodeRows_before hlegal (State.readBytes_sourceByte hholds (by omega)) (by omega),
    Nat.zero_add, Nat.zero_add]

/-- Legally formed scanlines back to back are decoded, and what follows them is not looked at (R166). -/
theorem decode_succeeds {lines : List (List Group)} (hlines : lines.length = c.lines)
    (hlegal : ∀ gs ∈ lines, LegalLine gs) (hholds : s.mem.holds s.latch.src.toNat (lines.flatMap streamBytes))
    (hlen : (lines.flatMap streamBytes).length ≤ s.latch.srcLen.toNat) :
    ∃ t, exec c.instr s = .next t ∧
      s.completedTo t .noError 0 0 (lines.flatMap streamBytes).length (lines.flatMap streamOutput).length ∧
      s.mem.wrote t.mem s.latch.dst.toNat (lines.flatMap streamOutput) := by
  have hbody := body_decode_before hc hready (rows := 0) hlines hlegal hholds hlen
  rw [decodeRows, CmdResult.after_ok, List.append_nil] at hbody
  exact succeeds_of_body hready hbody (hlen.trans_lt s.latch.srcLen.isLt)

/-- Where the scanline begun after whole scanlines is not completed, the command ends as that scanline does. -/
theorem body_decode_part {lines : List (List Group)} {part : List Group} (hlines : lines.length < c.lines)
    (hlegal : ∀ gs ∈ lines, LegalLine gs) (hwf : ∀ g ∈ part, g.wellFormed = true)
    (hout : (streamOutput part).length < 72)
    (hholds : s.mem.holds s.latch.src.toNat (lines.flatMap streamBytes ++ streamBytes part))
    (hlen : (lines.flatMap streamBytes ++ streamBytes part).length ≤ s.latch.srcLen.toNat) :
    ∃ fuel,
      (∀ e pos, decodeLine s.sourceByte s.latch.srcLen.toNat (fuel + 1) (decoderAfter lines part) = .err e pos →
        c.body s.latch s.sourceByte = .raise e pos lines.length) ∧
      (∀ f, decodeLine s.sourceByte s.latch.srcLen.toNat (fuel + 1) (decoderAfter lines part) = .stop f →
        c.body s.latch s.sourceByte = .stop f) := by
  have hsource := decode_source_le hc hready
  obtain ⟨hholdslines, hholdspart⟩ := Memory.holds_append_iff.1 hholds
  rw [List.length_append] at hlen
  obtain ⟨rows, hrows⟩ := Nat.exists_eq_add_of_lt hlines
  have hbody := body_decode_before hc hready (rows := rows + 1) hrows.symm hlegal hholdslines (by omega)
  have hreads := State.readBytes_sourceByte hholdspart (by omega)
  have hcount := length_le_streamBytes part
  have hline := decodeLine_before (fuel := s.latch.srcLen.toNat - part.length + 1) (len := s.latch.srcLen.toNat)
    (d := { cur := (lines.flatMap streamBytes).length, out := [], line := lines.length }) hwf (by simpa using hout)
    hreads hlen
  rw [show s.latch.srcLen.toNat - part.length + 1 + part.length = s.latch.srcLen.toNat + 1 by omega, List.nil_append,
    ← List.length_append, ← decoderAfter] at hline
  refine ⟨s.latch.srcLen.toNat - part.length, fun e pos h => ?_, fun f h => ?_⟩
  · rw [hbody, decodeRows_err (hline.trans h), CmdResult.after_raise]
  · rw [hbody, decodeRows_stop (hline.trans h), CmdResult.after_stop]

end

end

end Sys2Proof

/-! PROOFS of the family other: what the commands do (R120 to R122, R130, R131, R153 to R166, R181, R201). -/

namespace Sys2Proof

open Machine

section

variable {c : Command} {s : State}

/-- A grid whose pixels all hold values is dithered and packed (R181). -/
theorem dither_succeeds {g : Nat → Nat → Byte} (hready : Ready .dith s.latch)
    (hgrid : ∀ x y, x < 576 → y < 720 → s.mem.lookup (s.latch.src.toNat + y * 576 + x) = some (g x y)) :
    Command.dith.body s.latch s.sourceByte =
      .ok (packBitmap 576 720 (ditherFn Config.divRound 576 720 g)) Config.gridBytes := by
  obtain ⟨-, -, ⟨hregion, -⟩, -⟩ := hready
  have hinLen : Command.dith.inLen s.latch = 414720 := rfl
  have hlen : (rasterPixels 576 720 g).length = 414720 := rasterPixels_length 576 720 g
  have hholds : s.mem.holds (s.latch.src.toNat + 0) (rasterPixels 576 720 g) := fun i hi => by
    rw [rasterPixels_getElem hi, ← hgrid (i % 576) (i / 576) (Nat.mod_lt _ (by decide)) (by omega)]
    exact congrArg s.mem.lookup (by omega)
  have hreads := State.readBytes_sourceByte hholds (by omega)
  rw [hlen] at hreads
  rw [ditherFn_eq_rasterPixels _ (by decide)]
  refine (ditherBody_eq_ditherRest _).trans (ditherRest_ok ?_)
  rw [ditherStart_position]
  exact hreads

end

end Sys2Proof

namespace Sys2Proof.Proofs

open Sys2Proof Sys2Proof.Machine

/-- Settles O4: an illegal word completes as a failing pre-check does. -/
theorem illegalCommandWritesNothing : Obligations.IllegalCommandWritesNothing := fun _ _ s =>
  ⟨s.preFail .illegalCmd, rfl, s.completedTo_complete _ _ (by decide) (by decide) (by decide) (by decide), rfl⟩

/-- Settles O6: a scanline is a bitmap of one row. -/
theorem encodeLineCompletes : Obligations.EncodeLineCompletes := by
  intro s row hready hrow hholds hfit
  have hone := encode_succeeds (Or.inl rfl) hready (rows := [row]) rfl (by simpa using hrow) (by simpa using hholds)
    (by simpa using hfit)
  rwa [List.flatMap_singleton] at hone

/-- Settles O7, by the induction over rows of `encodeRows_before`. -/
theorem encodeFrameCompletes : Obligations.EncodeFrameCompletes := fun _ _ hready hlines hrows hholds hfit =>
  encode_succeeds (Or.inr rfl) hready hlines hrows hholds hfit

/-- Settles O8: the rows before fit, and of the row's groups the first that does not fit is the one reported. -/
theorem encoderOverflowIsReported : Obligations.EncoderOverflowIsReported := by
  intro s c before row pre post k g hc hready hlines hrows hrow hholds hgroups hfit hover
  have hsource := encode_source_le hc hready
  obtain ⟨rows, hsum⟩ := Nat.exists_eq_add_of_lt hlines
  obtain ⟨hholdsbefore, hholdsrow⟩ := Memory.holds_append_iff.1 hholds
  rw [length_flatten_of_forall hrows] at hholdsrow
  have hreadsrow := State.readBytes_sourceByte hholdsrow (by omega)
  rw [hrow] at hreadsrow
  have hemit : emitGroups s.latch.dstLen.toNat (before.flatMap encodeLine).length (encodeGroups row) = .error k := by
    rw [hgroups]
    exact emitGroups_overflow hfit hover
  have hbody := body_encode_before hc hready (rows := rows + 1) hsum.symm hrows hholdsbefore (by omega)
  rw [encodeRows_overflow hreadsrow hemit, CmdResult.after_raise] at hbody
  have hk : k < row.length := (eq_nextGroup_of_mem (by rw [hgroups]; simp : (k, g) ∈ encodeGroups row)).1
  have hle := lines_le c
  rw [← outLen_encode hc]
  exact fails_of_body hready hbody (by omega) (by omega)

/-- Settles O9: a scanline is a bitmap of one row. -/
theorem decodeLineCompletes : Obligations.DecodeLineCompletes := by
  intro s gs hready hlegal hholds hlen
  have hone := decode_succeeds (Or.inl rfl) hready (lines := [gs]) rfl (by simpa using hlegal) (by simpa using hholds)
    (by simpa using hlen)
  rwa [List.flatMap_singleton, List.flatMap_singleton, hlegal.2.1] at hone

/-- Settles O10, by the induction over scanlines of `decodeRows_before`. -/
theorem decodeFrameCompletes : Obligations.DecodeFrameCompletes := by
  intro s lines hready hlines hlegal hholds hlen
  have hframe := decode_succeeds (Or.inr rfl) hready hlines hlegal hholds hlen
  have hout : (lines.flatMap streamOutput).length = 51840 := by
    rw [List.length_flatMap, List.map_congr_left fun gs hgs => (hlegal gs hgs).2.1, List.map_const', List.sum_replicate,
      hlines]
    rfl
  rwa [hout] at hframe

/-- Settles O11: the scanline that ends the command does so at the end of the stream or at its next group. -/
theorem decoderErrorsAreReported : Obligations.DecoderErrorsAreReported := by
  intro s c lines part e hc hready hlines hlegal hwf hout stream pos count len hholds hpos hends
  have hsource := decode_source_le hc hready
  obtain ⟨fuel, hraise, -⟩ := body_decode_part hc hready hlines hlegal hwf hout hholds hpos
  have hcur : (decoderAfter lines part).cur = pos := rfl
  have hlast : decodeLine s.sourceByte len (fuel + 1) (decoderAfter lines part) = .err e pos := by
    obtain ⟨hend, rfl⟩ | ⟨n, hlt, hctrl, hlit⟩ | ⟨n, hn, hlt, hctrl, hrep⟩ := hends
    · exact decodeLine_exhausted hout (Nat.le_of_eq hend.symm)
    · refine decodeLine_err_group hout hlt (State.sourceByte_eq_ok (by omega) hctrl) ?_
      rw [groupStep_literalByte]
      obtain ⟨hover, rfl⟩ | ⟨hroom, hcut, rfl⟩ := hlit
      · exact litStep_overrun hover
      · exact litStep_cut hroom hcut
    · refine decodeLine_err_group hout hlt (State.sourceByte_eq_ok (by omega) hctrl) ?_
      have hlength : repLength n = 129 - n.toNat := by rw [repLength]; omega
      rw [groupStep_repeatByte _ hn]
      obtain ⟨hover, rfl⟩ | ⟨hroom, hcut, rfl⟩ := hrep
      · exact repStep_overrun (by rw [hlength]; exact hover)
      · exact repStep_cut (by rw [hlength]; exact hroom) hcut
  have hle := lines_le c
  exact fails_of_body hready (hraise e pos hlast) (by omega) (by omega)

/-- Settles O12: what DITH reads is the grid's pixels in raster order. -/
theorem ditherCompletes : Obligations.DitherCompletes := by
  intro s g hready hgrid
  obtain ⟨t, hexec, hcompleted, hwrote⟩ := succeeds_of_body hready (dither_succeeds hready hgrid) (by decide)
  rw [packBitmap_length] at hcompleted
  exact ⟨t, hexec, hcompleted, hwrote⟩

/-- Settles O13: the four ways a command ends, each with what it does to memory. -/
theorem commandsKeepBytesOutsideTheDestination : Obligations.CommandsKeepBytesOutsideTheDestination := by
  intro c s t h
  obtain ⟨e, -, hx⟩ | ⟨out, n, hpre, hbody, hle, hx⟩ | ⟨e, pos, line, -, hbody, hx⟩ | ⟨f, -, -, hx⟩ :=
    exec_command_cases c s
  · cases h.symm.trans hx
    exact ⟨fun k _ => rfl, fun _ k _ => rfl⟩
  · cases h.symm.trans hx
    have hlt := outLen_lt_of_ready ((precheck_eq_none_iff c s.latch).1 hpre)
    have hproduced : (BitVec.ofNat 21 out.length).toNat = out.length := Nat.mod_eq_of_lt (by omega)
    have hsame := (s.mem.wrote_write s.latch.dst.toNat out).2
    refine ⟨fun k hk => hsame k (by omega), fun _ => ?_⟩
    simpa [hproduced] using hsame
  · cases h.symm.trans hx
    refine ⟨(s.mem.forgot_forget s.latch.dst.toNat (c.outLen s.latch)).2, fun hok => ?_⟩
    obtain rfl | rfl | rfl := body_raise hbody <;> cases hok
  · cases h.symm.trans hx

/-- Settles O14: the body's result is computed from the source region, and the rest of the completion from the latch. -/
theorem resultDependsOnLatchAndSourceOnly : Obligations.ResultDependsOnLatchAndSourceOnly := by
  intro c s s' t hlatch hsource h
  have hbody : c.body s'.latch s'.sourceByte = c.body s.latch s.sourceByte := by
    rw [hlatch]
    refine body_congr fun k hk => ?_
    rw [State.sourceByte, State.sourceByte, hlatch]
    exact Memory.readByte_congr (hsource k hk)
  obtain ⟨e, hpre, hx⟩ | ⟨out, n, hpre, hok, -, hx⟩ | ⟨e, pos, line, hpre, hraise, hx⟩ | ⟨f, -, -, hx⟩ :=
    exec_command_cases c s
  · cases h.symm.trans hx
    refine ⟨s'.preFail e, by rw [exec_command, hlatch, hpre], rfl, rfl, rfl, rfl, rfl, fun _ k hk => ?_⟩
    simp at hk
  · cases h.symm.trans hx
    have hready : Ready c s'.latch := by rwa [hlatch, ← precheck_eq_none_iff]
    have hlt := outLen_lt_of_ready hready
    have hle := body_ok_le (hbody.trans hok)
    refine ⟨_, exec_of_body_ok hready (hbody.trans hok), rfl, rfl, rfl, rfl, rfl, fun _ k hk => ?_⟩
    have hproduced : (BitVec.ofNat 21 out.length).toNat = out.length := Nat.mod_eq_of_lt (by omega)
    rw [State.succeed_eq, State.complete_produced, hproduced] at hk
    simp only [State.succeed_eq, State.complete_mem, hlatch]
    rw [(s'.mem.wrote_write _ out).1 k hk, (s.mem.wrote_write _ out).1 k hk]
  · cases h.symm.trans hx
    have hready : Ready c s'.latch := by rwa [hlatch, ← precheck_eq_none_iff]
    refine ⟨_, exec_of_body_raise hready (hbody.trans hraise), rfl, rfl, rfl, rfl, rfl, fun _ k hk => ?_⟩
    simp at hk
  · cases h.symm.trans hx

/-- Settles O41: the first byte a command needs and cannot read is the one its body stops on. -/
theorem unwrittenBytesStopTheEngine : Obligations.UnwrittenBytesStopTheEngine := by
  refine ⟨?encode, ?decode, ?dither⟩
  case encode =>
    intro s c before part hc hready hlines hrows hpart hfit hholds a hnone
    have hsource := encode_source_le hc hready
    obtain ⟨rows, hsum⟩ := Nat.exists_eq_add_of_lt hlines
    obtain ⟨hholdsbefore, hholdspart⟩ := Memory.holds_append_iff.1 hholds
    rw [length_flatten_of_forall hrows] at hholdspart
    have hread := State.readBytes_sourceByte_stop hholdspart hpart (by omega) (by rwa [Nat.add_assoc])
    have hbody := body_encode_before hc hready (rows := rows + 1) hsum.symm hrows hholdsbefore hfit
    rw [encodeRows_unreadable hread, CmdResult.after_stop, Nat.add_assoc] at hbody
    exact exec_of_body_stop hready hbody
  case decode =>
    intro s c lines part hc hready hlines hlegal hwf hout stream count len a hholds hlt
    have hsource := decode_source_le hc hready
    obtain ⟨fuel, -, hstop⟩ := body_decode_part hc hready hlines hlegal hwf hout hholds hlt.le
    have hcur : (decoderAfter lines part).cur = stream.length := rfl
    refine ⟨fun hnone => ?control, fun n data hdata hshort hroom hfits hnone => ?literal,
      fun n hn hctrl hroom hfits hnone => ?repeated⟩
    case control =>
      exact exec_of_body_stop hready (hstop _ (decodeLine_unreadable hout hlt
        (State.sourceByte_unwritten (by omega) hnone)))
    case literal =>
      obtain ⟨hctrl, hdata⟩ := Memory.holds_cons_iff.1 hdata
      refine exec_of_body_stop hready (hstop _ (decodeLine_stop_group hout hlt
        (State.sourceByte_eq_ok (by omega) hctrl) ?_))
      have hlength : litLength n = n.toNat + 1 := rfl
      rw [groupStep_literalByte]
      exact litStep_stop hroom hfits (State.readBytes_sourceByte_stop (by rwa [← Nat.add_assoc]) hshort
        (by omega) hnone)
    case repeated =>
      refine exec_of_body_stop hready (hstop _ (decodeLine_stop_group hout hlt
        (State.sourceByte_eq_ok (by omega) hctrl) ?_))
      have hlength : repLength n = 129 - n.toNat := by rw [repLength]; omega
      rw [groupStep_repeatByte _ hn]
      exact repStep_stop (by rw [hlength]; exact hroom) hfits (State.sourceByte_unwritten (by omega) hnone)
  case dither =>
    intro s k hready hk hheld hnone
    obtain ⟨-, -, ⟨hregion, -⟩, -⟩ := id hready
    have hinLen : Command.dith.inLen s.latch = 414720 := rfl
    refine exec_of_body_stop hready ((ditherBody_eq_ditherRest _).trans (ditherRest_unreadable ?_))
    rw [ditherStart_position, readBytes_eq_error_iff]
    refine ⟨k, hk, fun j hj => ?_, ?_⟩
    · rw [Nat.zero_add]
      exact Memory.exists_readByte_eq_ok (by simp only [Config.bufBytes]; omega) (hheld j hj)
    · rw [Nat.zero_add]
      exact State.sourceByte_unwritten (by omega) hnone

end Sys2Proof.Proofs

/-! PROOFS of the family other: whose turn it is (R17, R115), and each internal step (R38, R39, R43; log 2). -/

namespace Sys2Proof

open Machine

namespace Machine

/-! ### Turns (R17, R72, R115) -/

theorem step_of_script_cons {s : State} {e : Event} {rest : List Event} (h : s.script = e :: rest) :
    step s = perform e { s with script := rest } := by
  simp only [step, takeTurn, h]

theorem step_of_script_nil {s : State} (h : s.script = []) : step s = whenBusy completionStep s := by
  simp only [step, takeTurn, h]

theorem whenBusy_busy {f : State → Host.Outcome State Fault Refusal} {s : State} (h : s.phase = .busy) :
    whenBusy f s = f s := by
  simp only [whenBusy, h]

theorem whenBusy_idle {f : State → Host.Outcome State Fault Refusal} {s : State} (h : s.phase = .idle) :
    whenBusy f s = .next s := by
  simp only [whenBusy, h]

theorem step_advance {s : State} {rest : List Event} (hscript : s.script = .advance :: rest) (hbusy : s.phase = .busy) :
    step s = advanceStep { s with script := rest } :=
  (step_of_script_cons hscript).trans (whenBusy_busy hbusy)

theorem Latch.destination_eq {l : Latch} {c : Command} (h : l.command = some c) :
    l.destination = (l.dst.toNat, c.outLen l) := by
  rw [Latch.destination, h]
  rfl

/-! ### One stream group (R150 to R154) -/

section

variable {step : (Nat → Except Fault Byte) → Nat → Decoder → GroupResult} {s : State} {d : Decoder}
  (hrun : s.run = .decoding d)

include hrun

theorem runGroup_err {e : ErrCode} {pos : Nat} (hstep : step s.sourceByte s.latch.srcLen.toNat d = .err e pos) :
    runGroup step s = .next (s.runFail s.latch.destination e pos d.line) := by
  change step (fun k => s.mem.readByte (s.latch.src.toNat + k)) s.latch.srcLen.toNat d = .err e pos at hstep
  simp only [runGroup, hrun, hstep]

theorem runGroup_stop {f : Fault} (hstep : step s.sourceByte s.latch.srcLen.toNat d = .stop f) :
    runGroup step s = .fault f := by
  change step (fun k => s.mem.readByte (s.latch.src.toNat + k)) s.latch.srcLen.toNat d = .stop f at hstep
  simp only [runGroup, hrun, hstep]

end

theorem exec_lit_eq_runGroup (n : BitVec 7) (s : State) :
    exec (.lit n) s = runGroup (fun rd len d => litStep rd len n d) s := rfl

theorem exec_rep_eq_runGroup (n : BitVec 7) (s : State) :
    exec (.rep n) s = runGroup (fun rd len d => repStep rd len n d) s := rfl

end Machine

/-! ### The internal steps by case (log 2) -/

section

variable {c : Command} {s : State}

theorem Machine.advanceStep_illegal (hcommand : s.latch.command = none) : advanceStep s = completionStep s := by
  simp only [advanceStep, hcommand, completionStep]

section

variable (hcommand : s.latch.command = some c)

include hcommand

theorem Machine.advanceStep_precheck {e : ErrCode} (hrun : s.run = .fresh) (hpre : c.precheck s.latch = some e) :
    advanceStep s = .next (s.preFail e) := by
  simp only [advanceStep, hcommand, hrun, hpre]

theorem Machine.advanceStep_begin (hrun : s.run = .fresh) (hready : Ready c s.latch) :
    advanceStep s = .next { s with run := c.begin } := by
  simp only [advanceStep, hcommand, hrun, (precheck_eq_none_iff c s.latch).2 hready]

theorem Machine.advanceStep_decoding {d : Decoder} (hrun : s.run = .decoding d) :
    advanceStep s = advanceDecoder c d s := by
  simp only [advanceStep, hcommand, hrun]

theorem Machine.advanceStep_encoding {e : Encoder} (hrun : s.run = .encoding e) :
    advanceStep s = advanceEncoder c e s := by
  simp only [advanceStep, hcommand, hrun]

theorem Machine.advanceStep_dithering {d : Ditherer} (hrun : s.run = .dithering d) :
    advanceStep s = advanceDitherer d s := by
  simp only [advanceStep, hcommand, hrun]

end

/-! The decoder (R155, R160, R165). -/

section

variable {d : Decoder}

section

variable (hout : Config.N ≤ d.out.length)
  (hfit : s.latch.dst.toNat + d.line * Config.N + d.out.length ≤ Config.bufBytes)

include hout hfit

theorem Machine.advanceDecoder_line (hline : d.line + 1 < c.lines) :
    advanceDecoder c d s = .next { s with
      mem := s.mem.write (s.latch.dst.toNat + d.line * Config.N) d.out
      run := .decoding { cur := d.cur, out := [], line := d.line + 1 } } := by
  simp only [advanceDecoder, if_pos hout, Memory.store_inside _ hfit, if_pos hline]

theorem Machine.advanceDecoder_last (hline : c.lines ≤ d.line + 1) :
    advanceDecoder c d s =
      .next (s.succeed d.cur (c.lines * Config.N) (s.mem.write (s.latch.dst.toNat + d.line * Config.N) d.out)) := by
  simp only [advanceDecoder, if_pos hout, Memory.store_inside _ hfit, if_neg (Nat.not_lt.2 hline)]

end

variable (hout : d.out.length < Config.N)

include hout

theorem Machine.advanceDecoder_exhausted (hcur : s.latch.srcLen.toNat ≤ d.cur) :
    advanceDecoder c d s = .next (s.runFail s.latch.destination .fmtTruncated d.cur d.line) := by
  simp only [advanceDecoder, if_neg (Nat.not_le.2 hout), if_pos hcur]

variable (hcur : d.cur < s.latch.srcLen.toNat)

include hcur

theorem Machine.advanceDecoder_unreadable {f : Fault} (hread : s.sourceByte d.cur = .error f) :
    advanceDecoder c d s = .fault f := by
  simp only [advanceDecoder, if_neg (Nat.not_le.2 hout), if_neg (Nat.not_le.2 hcur), hread]

theorem Machine.advanceDecoder_group {b : Byte} (hread : s.sourceByte d.cur = .ok b) :
    advanceDecoder c d s = exec (decodeControl b) s := by
  simp only [advanceDecoder, if_neg (Nat.not_le.2 hout), if_neg (Nat.not_le.2 hcur), hread]

end

/-! The encoder (R130, R131). -/

section

variable {e : Encoder}

theorem Machine.advanceEncoder_done (hline : c.lines ≤ e.line) :
    advanceEncoder c e s = .next (s.succeed (c.lines * Config.N) e.written s.mem) := by
  simp only [advanceEncoder, if_pos hline]

variable (hline : e.line < c.lines)

include hline

theorem Machine.advanceEncoder_row (hpos : Config.N ≤ e.pos) :
    advanceEncoder c e s = .next { s with run := .encoding { e with line := e.line + 1, pos := 0 } } := by
  simp only [advanceEncoder, if_neg (Nat.not_le.2 hline), if_pos hpos]

variable (hpos : e.pos < Config.N)

include hpos

theorem Machine.advanceEncoder_unreadable {f : Fault}
    (hread : readBytes s.sourceByte (e.line * Config.N) Config.N = .error f) : advanceEncoder c e s = .fault f := by
  simp only [advanceEncoder, if_neg (Nat.not_le.2 hline), if_neg (Nat.not_le.2 hpos), hread]

variable {row : List Byte} (hread : readBytes s.sourceByte (e.line * Config.N) Config.N = .ok row)

include hread

theorem Machine.advanceEncoder_overflow
    (hover : s.latch.dstLen.toNat < e.written + (encodeGroup (nextGroup (row.drop e.pos)).1).length) :
    advanceEncoder c e s =
      .next (s.runFail s.latch.destination .dstOverflow (e.line * Config.N + e.pos) e.line) := by
  simp only [advanceEncoder, if_neg (Nat.not_le.2 hline), if_neg (Nat.not_le.2 hpos), hread, if_pos hover]

theorem Machine.advanceEncoder_group
    (hroom : e.written + (encodeGroup (nextGroup (row.drop e.pos)).1).length ≤ s.latch.dstLen.toNat)
    (hfit : s.latch.dst.toNat + e.written + (encodeGroup (nextGroup (row.drop e.pos)).1).length ≤ Config.bufBytes) :
    advanceEncoder c e s = .next { s with
      mem := s.mem.write (s.latch.dst.toNat + e.written) (encodeGroup (nextGroup (row.drop e.pos)).1)
      run := .encoding { e with
        pos := e.pos + (nextGroup (row.drop e.pos)).2
        written := e.written + (encodeGroup (nextGroup (row.drop e.pos)).1).length } } := by
  simp only [advanceEncoder, if_neg (Nat.not_le.2 hline), if_neg (Nat.not_le.2 hpos), hread,
    if_neg (Nat.not_lt.2 hroom), Memory.store_inside _ hfit]

end

/-! The ditherer (R181). -/

section

variable {d : Ditherer}

theorem Machine.advanceDitherer_done (hy : Config.H ≤ d.y)
    (hfit : s.latch.dst.toNat + Config.frameBytes ≤ Config.bufBytes) :
    advanceDitherer d s = .next (s.succeed Config.gridBytes Config.frameBytes
      (s.mem.write s.latch.dst.toNat (packBitmap Config.W Config.H d.bits))) := by
  have hlen : (packBitmap Config.W Config.H d.bits).length = Config.frameBytes := packBitmap_length ..
  simp only [advanceDitherer, if_pos hy, Memory.store_inside _ (by rwa [hlen] : _ + (packBitmap _ _ _).length ≤ _)]

variable (hy : d.y < Config.H)

include hy

theorem Machine.advanceDitherer_unreadable {f : Fault} (hread : s.sourceByte (d.y * Config.W + d.x) = .error f) :
    advanceDitherer d s = .fault f := by
  simp only [advanceDitherer, if_neg (Nat.not_le.2 hy), hread]

theorem Machine.advanceDitherer_pixel {g : Byte} (hread : s.sourceByte (d.y * Config.W + d.x) = .ok g) :
    advanceDitherer d s =
      .next { s with run := .dithering (ditherPixel Config.divRound Config.W Config.H g d) } := by
  simp only [advanceDitherer, if_neg (Nat.not_le.2 hy), hread]

end

/-! ### The bounds of a transient (R20) -/

section

variable {l : Latch} (hcommand : l.command = some c)

include hcommand

theorem valid_decoding_iff {d : Decoder} :
    (Running.decoding d).valid l ↔
      Ready c l ∧ (c = .decl ∨ c = .decf) ∧ d.line < c.lines ∧ d.cur ≤ l.srcLen.toNat ∧ d.out.length ≤ Config.N := by
  simp [Running.valid, hcommand, precheck_eq_none_iff]

theorem valid_encoding_iff {e : Encoder} :
    (Running.encoding e).valid l ↔
      Ready c l ∧ (c = .encl ∨ c = .encf) ∧ e.line ≤ c.lines ∧ e.pos ≤ Config.N ∧ e.written ≤ l.dstLen.toNat := by
  simp [Running.valid, hcommand, precheck_eq_none_iff]

end

theorem valid_dithering_iff {l : Latch} {d : Ditherer} :
    (Running.dithering d).valid l ↔
      l.command = some .dith ∧ Ready .dith l ∧ d.err.size = Config.W * Config.H ∧
        d.bits.size = d.y * Config.W + d.x ∧ d.x < Config.W ∧ (d.y < Config.H ∨ (d.y = Config.H ∧ d.x = 0)) := by
  rw [Running.valid, precheck_eq_none_iff]

/-! ### Errors of a running decode -/

/-- A run-time error of a command within its bounds ends it and leaves its destination unwritten (R121, R205). -/
theorem runFail_completedTo (hcommand : s.latch.command = some c) (e : ErrCode) {pos line : Nat} (hpos : pos < 2 ^ 21)
    (hline : line < 2 ^ 16) :
    s.completedTo (s.runFail s.latch.destination e pos line) e pos line 0 0 ∧
      s.mem.forgot (s.runFail s.latch.destination e pos line).mem s.latch.dst.toNat (c.outLen s.latch) := by
  rw [Latch.destination_eq hcommand]
  exact ⟨s.completedTo_complete _ _ hpos hline (by decide) (by decide), s.mem.forgot_forget _ _⟩

/-- Under the invariant the position and scanline of a running decode fit their registers (R34, R35). -/
theorem decoding_positions {d : Decoder} (hinv : s.Inv) (hrun : s.run = .decoding d)
    (hcommand : s.latch.command = some c) : d.cur < 2 ^ 21 ∧ d.line < 2 ^ 16 := by
  have hvalid := hinv.transient
  rw [hrun] at hvalid
  obtain ⟨-, -, hline, hcur, -⟩ := (valid_decoding_iff hcommand).1 hvalid
  have hle := lines_le c
  exact ⟨hcur.trans_lt s.latch.srcLen.isLt, by omega⟩

/-- A group that raises an error ends the command at its control byte (R153, R154). -/
theorem group_fails {step : (Nat → Except Fault Byte) → Nat → Decoder → GroupResult} {d : Decoder} {e : ErrCode}
    (hinv : s.Inv) (hrun : s.run = .decoding d) (hcommand : s.latch.command = some c)
    (hstep : step s.sourceByte s.latch.srcLen.toNat d = .err e d.cur) :
    ∃ t, runGroup step s = .next t ∧ s.completedTo t e d.cur d.line 0 0 ∧
      s.mem.forgot t.mem s.latch.dst.toNat (c.outLen s.latch) :=
  have hpositions := decoding_positions hinv hrun hcommand
  ⟨_, runGroup_err hrun hstep, runFail_completedTo hcommand e hpositions.1 hpositions.2⟩

theorem literal_fails {n : BitVec 7} {d : Decoder} {e : ErrCode} (hinv : s.Inv) (hrun : s.run = .decoding d)
    (hcommand : s.latch.command = some c) (hstep : litStep s.sourceByte s.latch.srcLen.toNat n d = .err e d.cur) :
    ∃ t, exec (.lit n) s = .next t ∧ s.completedTo t e d.cur d.line 0 0 ∧
      s.mem.forgot t.mem s.latch.dst.toNat (c.outLen s.latch) := by
  rw [exec_lit_eq_runGroup]
  exact group_fails hinv hrun hcommand hstep

theorem repeat_fails {n : BitVec 7} {d : Decoder} {e : ErrCode} (hinv : s.Inv) (hrun : s.run = .decoding d)
    (hcommand : s.latch.command = some c) (hstep : repStep s.sourceByte s.latch.srcLen.toNat n d = .err e d.cur) :
    ∃ t, exec (.rep n) s = .next t ∧ s.completedTo t e d.cur d.line 0 0 ∧
      s.mem.forgot t.mem s.latch.dst.toNat (c.outLen s.latch) := by
  rw [exec_rep_eq_runGroup]
  exact group_fails hinv hrun hcommand hstep

end

end Sys2Proof

namespace Sys2Proof.Proofs

open Sys2Proof Sys2Proof.Machine

/-- Settles O16: the group of a LIT with room and data succeeds. -/
theorem literalGroupCopiesItsBytes : Obligations.LiteralGroupCopiesItsBytes := by
  intro n s d data hrun hdata hroom hfits hsource hholds
  have hlength : litLength n = data.length := hdata.symm
  have hread := State.readBytes_sourceByte (s := s) (k := d.cur + 1) (by rwa [← Nat.add_assoc]) (by omega)
  rw [← hlength] at hread
  rw [exec_lit_eq_runGroup, runGroup_ok hrun (litStep_ok (by omega) (by omega) hread), hlength]

/-- Settles O18: the group of a REP with room and value succeeds. -/
theorem repeatGroupRepeatsItsByte : Obligations.RepeatGroupRepeatsItsByte := by
  intro n s d v hrun hroom hfits hsource hvalue
  have hread : s.sourceByte (d.cur + 1) = .ok v := State.sourceByte_eq_ok (by omega) (by rwa [← Nat.add_assoc])
  exact (exec_rep_eq_runGroup n s).trans (runGroup_ok hrun (repStep_ok hroom hfits hread))

/-- Settles O19: the overrun check comes first in both groups. -/
theorem overrunningGroupEndsTheCommand : Obligations.OverrunningGroupEndsTheCommand := by
  intro s d c n hinv hrun hcommand
  exact ⟨fun hover => literal_fails hinv hrun hcommand (litStep_overrun hover),
    fun hover => repeat_fails hinv hrun hcommand (repStep_overrun hover)⟩

/-- Settles O20: the truncation check comes second in both groups. -/
theorem cutGroupEndsTheCommand : Obligations.CutGroupEndsTheCommand := by
  intro s d c n hinv hrun hcommand
  exact ⟨fun hroom hcut => literal_fails hinv hrun hcommand (litStep_cut hroom hcut),
    fun hroom hcut => repeat_fails hinv hrun hcommand (repStep_cut hroom hcut)⟩

/-- Settles O21: the internal step finds no control byte. -/
theorem exhaustedStreamEndsTheCommand : Obligations.ExhaustedStreamEndsTheCommand := by
  intro s rest d c hinv hbusy hscript hrun hcommand hout hcur
  obtain ⟨hpos, hline⟩ := decoding_positions hinv hrun hcommand
  refine ⟨_, ?_, runFail_completedTo (s := { s with script := rest }) hcommand _ (hcur ▸ hpos) hline⟩
  rw [step_advance hscript hbusy, advanceStep_decoding (s := { s with script := rest }) hcommand hrun, ← hcur]
  exact advanceDecoder_exhausted hout hcur.ge

/-- Settles O50: the latch keeps what decoding needs of the word, whether it is legal or not. -/
theorem completionStepRunsTheIssuedCommand : Obligations.CompletionStepRunsTheIssuedCommand := by
  intro s w rest hop hrsv
  have hcompletion : ∀ t : State, t.latch = s.latch → completionStep t = exec (decodeCommand w) t := by
    intro t ht
    have hword : t.latch.word = cmdWord (cmdOp w) (if cmdRsv w ≠ 0 then 1 else 0) := by
      rw [Latch.word, ht, hop, hrsv]
      simp
    rw [completionStep, State.fetchCommand, hword]
    by_cases hzero : cmdRsv w = 0
    · rw [if_neg (not_not.2 hzero), ← hzero, cmdWord_fields]
    · have hillegal : ∀ v : Word, cmdRsv v ≠ 0 → exec (decodeCommand v) t = .next (t.preFail .illegalCmd) := by
        intro v hv
        rw [decodeCommand, if_neg hv]
        rfl
      rw [if_pos hzero, hillegal w hzero, hillegal _ (by rw [cmdRsv_cmdWord]; decide)]
  refine ⟨fun hbusy hscript => ?_, fun hbusy hscript => ?_, fun hidle hscript => ?_, fun hidle hscript => ?_⟩
  · rw [step_of_script_cons hscript]
    exact (whenBusy_busy (s := { s with script := rest }) hbusy).trans (hcompletion _ rfl)
  · rw [step_of_script_nil hscript, whenBusy_busy hbusy, hcompletion s rfl]
  · rw [step_of_script_cons hscript]
    exact whenBusy_idle hidle
  · rw [step_of_script_nil hscript, whenBusy_idle hidle]

/-- Settles O51: the control byte is fetched and its group run. -/
theorem internalStepRunsTheGroupAtTheCursor : Obligations.InternalStepRunsTheGroupAtTheCursor := by
  intro s rest d c b hbusy hscript hcommand hrun hout hcur hsource hbyte
  rw [step_advance hscript hbusy, advanceStep_decoding (s := { s with script := rest }) hcommand hrun]
  have hread : s.sourceByte d.cur = .ok b := State.sourceByte_eq_ok (by omega) hbyte
  exact advanceDecoder_group (s := { s with script := rest }) hout hcur hread

/-- Settles O52, case by case of the transient. -/
theorem internalStepsBeginEncodeAndDither : Obligations.InternalStepsBeginEncodeAndDither := by
  intro s rest c hbusy hscript hcommand hready s0
  have hregion : s.latch.dst.toNat + c.outLen s.latch ≤ 1048576 := by
    obtain ⟨-, -, ⟨-, hregion⟩, -⟩ := hready
    exact hregion
  have hcommand0 : s0.latch.command = some c := hcommand
  rw [step_advance hscript hbusy]
  refine ⟨fun hfresh => ?fresh, fun e hc hrun => ?encoder, fun d hc hrun => ?ditherer⟩
  case fresh =>
    rw [advanceStep_begin hcommand0 hfresh hready]
    cases c <;> rfl
  case encoder =>
    have hsource := encode_source_le hc hready
    have hle := lines_le c
    rw [outLen_encode hc] at hregion
    rw [advanceStep_encoding hcommand0 hrun]
    refine ⟨fun row pre post g hline hrow hholds hgroups => ?group, fun hline hpos => advanceEncoder_row hline hpos,
      fun hline hwritten => ?done⟩
    case group =>
      have hread := State.readBytes_sourceByte (s := s0) hholds (by simp only [s0]; omega)
      rw [hrow] at hread
      obtain ⟨hpos, hg⟩ := eq_nextGroup_of_mem (by rw [hgroups]; simp : (e.pos, g) ∈ encodeGroups row)
      rw [hrow] at hpos
      refine ⟨fun hroom => ?room, fun hover => ?overflow⟩
      case room =>
        refine ⟨_, s.mem.wrote_write _ _, ?_⟩
        rw [hg] at hroom ⊢
        rw [← nextGroup_snd]
        exact advanceEncoder_group (s := s0) hline hpos hread hroom (by simp only [s0, Config.bufBytes]; omega)
      case overflow =>
        obtain ⟨hcompleted, hforgot⟩ := runFail_completedTo (s := s0) hcommand .dstOverflow
          (pos := e.line * 72 + e.pos) (line := e.line) (by omega) (by omega)
        rw [outLen_encode hc] at hforgot
        rw [hg] at hover
        exact ⟨_, advanceEncoder_overflow (s := s0) hline hpos hread hover, hcompleted, hforgot⟩
    case done =>
      exact ⟨_, advanceEncoder_done hline, s0.completedTo_complete _ _ (by decide) (by decide)
        (by simp only [Config.N]; omega) (by omega), rfl⟩
  case ditherer =>
    subst hc
    have hlen : Command.dith.outLen s.latch = 51840 := rfl
    have hinLen : Command.dith.inLen s.latch = 414720 := rfl
    obtain ⟨-, -, ⟨hsource, -⟩, -⟩ := hready
    rw [advanceStep_dithering hcommand0 hrun]
    refine ⟨fun g hx hy hbyte => ?pixel, fun hy => ?done⟩
    case pixel =>
      exact advanceDitherer_pixel (s := s0) hy (State.sourceByte_eq_ok (by simp only [s0, Config.W]; omega) hbyte)
    case done =>
      exact ⟨_, advanceDitherer_done (s := s0) hy (by simp only [s0, Config.bufBytes, Config.frameBytes]; omega),
        s0.completedTo_complete _ _ (by decide) (by decide) (by decide) (by decide),
        by simpa [packBitmap_length] using s.mem.wrote_write s.latch.dst.toNat (packBitmap 576 720 d.bits)⟩

end Sys2Proof.Proofs

/-! PROOFS of the family other: where the encoder's groups begin and how long they are (R132, R137), and the ditherer's
raster order, rounding and uniform grids (R180, R185, R191). -/

namespace Sys2Proof.Machine

open Sys2Proof.Config (DivRound)

/-! ### Where groups begin (R132) -/

/-- A group begins after the bytes the groups before it stand for. -/
theorem encodeFrom_index {fuel k j : Nat} {s : List Byte} {pre post : List (Nat × Group)} {g : Group}
    (h : encodeFrom fuel k s = pre ++ (j, g) :: post) : j = k + (streamOutput (pre.map (·.2))).length := by
  induction fuel generalizing k s pre with
  | zero => simp [encodeFrom] at h
  | succ fuel ih =>
    match s, pre with
    | [], _ => simp [encodeFrom] at h
    | b :: s, [] => exact encodeFrom_head h
    | b :: s, p :: pre =>
      simp only [encodeFrom, List.cons_append, List.cons.injEq] at h
      obtain ⟨rfl, hrest⟩ := h
      rw [ih hrest, nextGroup_snd, List.map_cons, streamOutput_cons, List.length_append, Nat.add_assoc]

/-! ### How long the encoding is (R137) -/

/-- A LIT has one byte more than it stands for (R88). -/
theorem encodeGroup_lit_length (data : List Byte) : (encodeGroup (.lit data)).length = data.length + 1 := rfl

theorem encodeGroup_rep_length (count : Nat) (v : Byte) : (encodeGroup (.rep count v)).length = 2 := rfl

theorem two_le_encodeGroup_length {g : Group} (hwf : g.wellFormed = true) (hnop : g ≠ .nop) :
    2 ≤ (encodeGroup g).length := by
  cases g with
  | lit data => exact Nat.succ_le_succ (Group.wellFormed_lit_iff.1 hwf).1
  | nop => exact absurd rfl hnop
  | rep count v => exact Nat.le_refl 2

/-- The bytes of the groups of `encodeFrom`. -/
def groupBytes (gs : List (Nat × Group)) : List Byte := gs.flatMap fun p => encodeGroup p.2

theorem encodeLine_eq_groupBytes (s : List Byte) : encodeLine s = groupBytes (encodeFrom s.length 0 s) := rfl

theorem groupBytes_encodeFrom_cons (fuel k : Nat) (b : Byte) (s : List Byte) :
    groupBytes (encodeFrom (fuel + 1) k (b :: s)) =
      encodeGroup (nextGroup (b :: s)).1 ++
        groupBytes (encodeFrom fuel (k + (nextGroup (b :: s)).2) ((b :: s).drop (nextGroup (b :: s)).2)) := rfl

/-- The upper bound of R137, for bytes short enough that no cap binds. Bytes that begin with a pair, or are none, take
two thirds of a byte less, which makes up for a literal group before them. -/
theorem three_mul_groupBytes_le {fuel k : Nat} {s : List Byte} (hlen : s.length ≤ 128) :
    3 * (groupBytes (encodeFrom fuel k s)).length ≤ 4 * s.length + 2 ∧
    (s = [] ∨ pairAt s 0 → 3 * (groupBytes (encodeFrom fuel k s)).length ≤ 4 * s.length) := by
  induction fuel generalizing k s with
  | zero => simp [encodeFrom, groupBytes]
  | succ fuel ih =>
    match s with
    | [] => simp [encodeFrom, groupBytes]
    | b :: s =>
      have hcovers := nextGroup_covers b s
      have hwf := (nextGroup_wellFormed b s).1
      have hsnd := nextGroup_snd (b :: s)
      have hrest := ih (k := k + (nextGroup (b :: s)).2) (s := (b :: s).drop (nextGroup (b :: s)).2)
        (by rw [List.length_drop]; omega)
      rw [List.length_drop] at hrest
      rw [groupBytes_encodeFrom_cons, List.length_append]
      cases hg : (nextGroup (b :: s)).1 with
      | nop => exact absurd hg (nextGroup_wellFormed b s).2
      | lit data =>
        rw [hg] at hwf hsnd
        obtain ⟨hnopair, hstops⟩ := nextGroup_lit hg
        have hpos := (Group.wellFormed_lit_iff.1 hwf).1
        have hafter : (b :: s).drop (nextGroup (b :: s)).2 = [] ∨
            pairAt ((b :: s).drop (nextGroup (b :: s)).2) 0 := by
          rw [hsnd, List.drop_eq_nil_iff, pairAt_drop]
          obtain hcap | hend | hpair := hstops
          · exact Or.inl (hlen.trans hcap.ge)
          · exact Or.inl hend
          · exact Or.inr hpair
        have hrest := hrest.2 hafter
        rw [encodeGroup_lit_length]
        rw [Group.expand] at hsnd
        refine ⟨by omega, fun hpair => absurd (hpair.resolve_left (by simp)) (hnopair 0 hpos)⟩
      | rep count v =>
        rw [hg] at hwf hsnd
        have hcount := Group.wellFormed_rep_iff.1 hwf
        have hrest := hrest.1
        rw [encodeGroup_rep_length]
        rw [Group.expand, List.length_replicate] at hsnd
        exact ⟨by omega, fun _ => by omega⟩

section

variable {s : List Byte}

theorem encodeLine_eq_encodeGroup {k : Nat} {g : Group} (h : encodeGroups s = [(k, g)]) :
    encodeLine s = encodeGroup g ∧ g.expand = s := by
  have hexpand := encodeGroups_expand s
  rw [encodeLine, h] at *
  exact ⟨List.flatMap_singleton .., by simpa using hexpand⟩

/-- Where one group stands for all bytes, it is the only one. -/
theorem encodeGroups_eq_singleton {k : Nat} {g : Group} (hmem : (k, g) ∈ encodeGroups s)
    (hlen : g.expand.length = s.length) : encodeGroups s = [(k, g)] := by
  obtain ⟨pre, post, hsplit⟩ := List.append_of_mem hmem
  have hexpand := congrArg List.length (encodeGroups_expand s)
  rw [hsplit, List.flatMap_append, List.flatMap_cons, List.length_append, List.length_append] at hexpand
  change _ + (g.expand.length + _) = _ at hexpand
  have hempty : ∀ gs : List (Nat × Group), (∀ p ∈ gs, p ∈ encodeGroups s) →
      (gs.flatMap fun p => p.2.expand).length = 0 → gs = [] := by
    intro gs hgs hzero
    match gs with
    | [] => rfl
    | p :: gs =>
      obtain ⟨hwf, hnop⟩ := wellFormed_of_mem (hgs p List.mem_cons_self)
      have hpos := Group.expand_length_pos hwf hnop
      rw [List.flatMap_cons, List.length_append] at hzero
      omega
  rw [hsplit, hempty pre (fun p hp => by rw [hsplit]; simp [hp]) (by omega),
    hempty post (fun p hp => by rw [hsplit]; simp [hp]) (by omega), List.nil_append]

/-- A line of bytes that are all equal, two to 128 of them, is one repeat group (R137). -/
theorem encodeLine_replicate {n : Nat} (hn : 2 ≤ n) (hn' : n ≤ 128) (b : Byte) :
    encodeLine (List.replicate n b) = encodeGroup (.rep n b) := by
  have hrun : MaximalRun (List.replicate n b) 0 n b :=
    maximalRun_of_eq_append (before := []) (after := []) (by simp) (by simp) (by simp)
  exact (encodeLine_eq_encodeGroup (encodeGroups_eq_singleton (hrun.rep_mem_of_le hn hn')
    (by simp [Group.expand]))).1

/-- The encoding of a line has two bytes exactly where it is one group of two bytes (R137). -/
theorem encodeLine_length_of_ne_nil (hs : s ≠ []) :
    2 ≤ (encodeLine s).length ∧
    ((encodeLine s).length = 2 → ∃ k g, encodeGroups s = [(k, g)] ∧ (encodeGroup g).length = 2) := by
  have hgroup : ∀ p ∈ encodeGroups s, 2 ≤ (encodeGroup p.2).length := fun p hp =>
    have hwf := wellFormed_of_mem (k := p.1) (g := p.2) hp
    two_le_encodeGroup_length hwf.1 hwf.2
  obtain ⟨g, hmem⟩ := encodeGroups_start hs
  rw [encodeLine]
  match hgroups : encodeGroups s with
  | [] => simp [hgroups] at hmem
  | [p] =>
    have hp := hgroup p (by simp [hgroups])
    rw [List.flatMap_singleton]
    exact ⟨hp, fun htwo => ⟨p.1, p.2, rfl, htwo⟩⟩
  | p :: q :: gs =>
    have hp := hgroup p (by simp [hgroups])
    have hq := hgroup q (by simp [hgroups])
    rw [List.flatMap_cons, List.flatMap_cons, List.length_append, List.length_append]
    exact ⟨by omega, by omega⟩

end

/-- A group of two bytes stands for one byte or for equal ones (R88). -/
theorem expand_of_encodeGroup_length {g : Group} (h : (encodeGroup g).length = 2) :
    g.expand.length = 1 ∨ ∃ b, g.expand = List.replicate g.expand.length b := by
  cases g with
  | lit data => exact Or.inl (Nat.succ.inj h)
  | nop => simp [encodeGroup] at h
  | rep count v => exact Or.inr ⟨v, by rw [Group.expand, List.length_replicate]⟩

/-- Two bytes of encoding mean one byte or equal bytes, and the other way round (R137). -/
theorem encodeLine_length_eq_two_iff {s : List Byte} (hpos : 1 ≤ s.length) (hmax : s.length ≤ 128) :
    (encodeLine s).length = 2 ↔ s.length = 1 ∨ ∃ b, s = List.replicate s.length b := by
  constructor
  · intro htwo
    obtain ⟨k, g, hgroups, hlen⟩ := (encodeLine_length_of_ne_nil (List.ne_nil_of_length_pos hpos)).2 htwo
    have hexpand := expand_of_encodeGroup_length hlen
    rwa [(encodeLine_eq_encodeGroup hgroups).2] at hexpand
  · intro hshape
    obtain hone | htwo := hpos.eq_or_lt
    · obtain ⟨b, rfl⟩ := List.length_eq_one_iff.1 hone.symm
      rfl
    · obtain ⟨b, hb⟩ := hshape.resolve_left (by omega)
      rw [hb, encodeLine_replicate htwo hmax]
      rfl

/-- The pattern A B B is a literal of one byte and a repeat of two, over and over (R137). -/
theorem groupBytes_pattern_length {a b : Byte} (hab : a ≠ b) {fuel k m : Nat} (hfuel : 2 * m ≤ fuel) :
    (groupBytes (encodeFrom fuel k (List.replicate m [a, b, b]).flatten)).length = 4 * m := by
  induction m generalizing fuel k with
  | zero => cases fuel <;> simp [encodeFrom, groupBytes]
  | succ m ih =>
    obtain ⟨fuel, rfl⟩ : ∃ n, fuel = n + 1 + 1 := ⟨fuel - 2, by omega⟩
    have hlit : ∀ rest, nextGroup (a :: b :: b :: rest) = (.lit [a], 1) := fun rest => by
      simp [nextGroup, hab, literalCount]
    have hrep : nextGroup (b :: b :: (List.replicate m [a, b, b]).flatten) = (.rep 2 b, 2) := by
      cases m with
      | zero => simp [nextGroup, sameCount]
      | succ m => simp [nextGroup, List.replicate_succ, Config.maxRun, sameCount, hab]
    rw [List.replicate_succ, List.flatten_cons]
    simp only [List.cons_append, List.nil_append, groupBytes_encodeFrom_cons, hlit, hrep, List.drop_succ_cons,
      List.drop_zero, List.length_append, ih (by omega : 2 * m ≤ fuel), encodeGroup_lit_length, encodeGroup_rep_length,
      List.length_singleton]
    omega

/-! ### Raster order (R39, R180) -/

theorem ditherSteps_bits_size (r : DivRound) (w h : Nat) (g : Nat → Nat → Byte) (n : Nat) (d : Ditherer) :
    (ditherSteps r w h g n d).bits.size = d.bits.size + n := by
  induction n generalizing d with
  | zero => rfl
  | succ n ih => rw [ditherSteps, ih, ditherPixel_bits_size, Nat.add_assoc, Nat.add_comm 1]

/-! ### Uniform grids (R191) -/

/-- Diffusing nothing changes no cell. -/
theorem diffuse_zero (w h x y : Nat) (err : Array Int) : diffuse w h x y 0 err = err := by
  have hone : ∀ o, diffuseOne w h x y 0 err o = err := fun o => by
    simp only [diffuseOne, Int.add_zero]
    split
    · apply Array.ext
      · simp
      · intro i hi hi'
        rw [Array.getElem_setIfInBounds hi']
        split
        · next heq => simp [heq, hi']
        · rfl
    · rfl
  simp [diffuse, neighbours, hone]

theorem errCell_replicate_zero (w n x y : Nat) : errCell w (Array.replicate n 0) x y = 0 := by
  rw [errCell, Array.getD_eq_getD_getElem?, Array.getElem?_replicate]
  split <;> rfl

section

variable {r : DivRound} {w h : Nat} {v : Byte} (hq : div8 r (quantError v.toNat) = 0)

include hq

/-- A pixel whose quantisation error is too small to be diffused leaves every error cell 0. -/
theorem ditherPixel_uniform {d : Ditherer} (herr : d.err = Array.replicate (w * h) 0) :
    (ditherPixel r w h v d).err = Array.replicate (w * h) 0 ∧
    (ditherPixel r w h v d).bits = d.bits.push (inkBit v.toNat) := by
  have hadj : adjusted v (errCell w d.err d.x d.y) = v.toNat := by
    rw [herr, errCell_replicate_zero, adjusted, Int.add_zero]
  have hbits : (ditherPixel r w h v d).bits = d.bits.push (inkBit (adjusted v (errCell w d.err d.x d.y))) := rfl
  have hdiffuse : (ditherPixel r w h v d).err =
      diffuse w h d.x d.y (div8 r (quantError (adjusted v (errCell w d.err d.x d.y)))) d.err := rfl
  rw [hbits, hdiffuse, hadj, hq, diffuse_zero]
  exact ⟨herr, rfl⟩

/-- A grid of such pixels gets one bit for all. -/
theorem ditherFn_uniform : ditherFn r w h (fun _ _ => v) = Array.replicate (w * h) (inkBit v.toNat) := by
  have hsteps : ∀ n m (d : Ditherer), d.err = Array.replicate (w * h) 0 →
      d.bits = Array.replicate m (inkBit v.toNat) →
      (ditherSteps r w h (fun _ _ => v) n d).bits = Array.replicate (m + n) (inkBit v.toNat) := by
    intro n
    induction n with
    | zero => exact fun m d _ hbits => hbits
    | succ n ih =>
      intro m d herr hbits
      obtain ⟨herr', hbits'⟩ := ditherPixel_uniform hq herr
      rw [ditherSteps, ih (m + 1) _ herr' (by rw [hbits', hbits, Array.replicate_succ]), Nat.add_right_comm,
        Nat.add_assoc]
  rw [ditherFn, hsteps _ 0 _ rfl rfl, Nat.zero_add]

end

theorem div8_trunc (q : Int) : div8 .trunc q = if 0 ≤ q then q / 8 else -((-q) / 8) := by
  simp only [div8, Int.tdiv_eq_ediv, show Int.sign 8 = 1 from rfl]
  split_ifs <;> omega

theorem div8_floor (q : Int) : div8 .floor q = q / 8 := Int.fdiv_eq_ediv_of_nonneg q (by decide)

/-- Amounts below 8 are not diffused (R185, R191). -/
theorem div8_of_lt_eight (r : DivRound) {q : Int} (hq : 0 ≤ q) (hq' : q < 8) : div8 r q = 0 := by
  cases r with
  | trunc =>
    rw [div8_trunc, if_pos hq]
    omega
  | floor =>
    rw [div8_floor]
    omega

end Sys2Proof.Machine

namespace Sys2Proof.Proofs

open Sys2Proof Sys2Proof.Machine

/-- Settles O24: by induction over the groups before, and what all groups stand for. -/
theorem encoderGroupsCoverTheInput : Obligations.EncoderGroupsCoverTheInput := by
  intro s pre post k g hsplit
  refine ⟨?_, streamOutput_lineGroups s⟩
  have hindex := encodeFrom_index hsplit
  rwa [Nat.zero_add] at hindex

/-- Settles O27: each group has two bytes or more, literal groups stand between repeats, and two bytes are one group. -/
theorem encodedLengthIsBounded : Obligations.EncodedLengthIsBounded := by
  refine ⟨fun s hpos hmax => ⟨?lower, ?upper, encodeLine_length_eq_two_iff hpos hmax⟩, fun a b m hab _ _ => ?pattern⟩
  case lower => exact (encodeLine_length_of_ne_nil (List.ne_nil_of_length_pos hpos)).1
  case upper =>
    have hbound := (three_mul_groupBytes_le (fuel := s.length) (k := 0) hmax).1
    rw [← encodeLine_eq_groupBytes] at hbound
    omega
  case pattern =>
    rw [encodeLine_eq_groupBytes]
    exact groupBytes_pattern_length hab (by simp; omega)

/-- Settles O28: the quotient toward zero, and the floor by its defining inequality. -/
theorem divisionByEightRounds : Obligations.DivisionByEightRounds := by
  intro q
  rw [div8_trunc, div8_floor]
  refine ⟨fun hpos => ⟨if_pos hpos, rfl⟩, fun hneg => if_neg (by omega), fun k => ?_⟩
  omega

/-- Settles O31: the position is kept by `Ditherer.Bounded`, and each pixel adds a bit. -/
theorem pixelsAreVisitedInRasterOrder : Obligations.PixelsAreVisitedInRasterOrder := by
  intro r w h n g hw hn
  obtain ⟨hcolumn, hposition, -, -⟩ := (Ditherer.Bounded.start r hw h).steps g (n := n) (by omega)
  rw [Nat.zero_add] at hposition
  refine ⟨?_, ?_, by rw [ditherSteps_bits_size]; exact Nat.zero_add n⟩
  · conv_rhs => rw [← hposition, Nat.mul_add_mod', Nat.mod_eq_of_lt hcolumn]
  · conv_rhs => rw [← hposition, Nat.mul_comm, Nat.mul_add_div hw, Nat.div_eq_of_lt hcolumn, Nat.add_zero]

/-- Settles O33: in each of the three cases nothing is diffused. -/
theorem uniformGridsDither : Obligations.UniformGridsDither := by
  intro r w h v _ _
  refine ⟨fun hwhite => ?white, fun hblack => ?black, fun htrunc hlight => ?light⟩
  case white =>
    have hv : (128 : Int) ≤ v.toNat := by omega
    rw [← inkBit_of_ge hv]
    refine ditherFn_uniform ?_
    rw [quantError_of_ge hv]
    exact div8_of_lt_eight r (by omega) (by omega)
  case black =>
    have hv : (v.toNat : Int) < 128 := by omega
    rw [← inkBit_of_lt hv]
    refine ditherFn_uniform ?_
    rw [quantError_of_lt hv]
    exact div8_of_lt_eight r (by omega) (by omega)
  case light =>
    have hv : (128 : Int) ≤ v.toNat := by omega
    have hlt := v.isLt
    rw [← inkBit_of_ge hv]
    refine ditherFn_uniform ?_
    rw [quantError_of_ge hv, htrunc, div8_trunc]
    split_ifs <;> omega

end Sys2Proof.Proofs

/-! PROOFS of the family other: the host's side, registers (R100, R101), buffer window (R102, R103), refused accesses
(R62 to R65), resets (R231, R232), the system map (R60) and the order of events (R17). -/

namespace Sys2Proof

open Machine

namespace Machine

variable {s : State} {o : HostOffset}

/-! ### What each access answers (R63, R64, R65) -/

theorem hostAccess_registerRead (hwindow : o.toNat < 0x40) (haligned : o.toNat % 4 = 0) (s : State) :
    hostAccess o (.read .w32) s = .next { s with rdata := s.registerValue o.toNat } := by
  simp [hostAccess, registerAccess, Access.width, hwindow, haligned]

theorem hostAccess_register_refused {a : Access} (hwindow : o.toNat < 0x40) (h : a.width ≠ .w32 ∨ o.toNat % 4 ≠ 0)
    (s : State) : hostAccess o a s = .next (s.refuseAccess a) := by
  simp only [hostAccess, registerAccess, if_pos hwindow, if_pos h]

theorem hostAccess_reserved (hlow : 0x40 ≤ o.toNat) (hhigh : o.toNat < 0x100000) (a : Access) (s : State) :
    hostAccess o a s = .next (s.refuseAccess a) := by
  rw [hostAccess, if_neg (by omega), if_pos hhigh]

theorem hostAccess_buffer (hbuffer : 0x100000 ≤ o.toNat) (a : Access) (s : State) :
    hostAccess o a s = bufferAccess (o.toNat - 0x100000) a s := by
  rw [hostAccess, if_neg (by omega), if_neg (by omega)]

/-- The buffer window begins at a multiple of every width. -/
theorem buffer_aligned_iff (hbuffer : 0x100000 ≤ o.toNat) (w : Width) :
    (o.toNat - 0x100000) % w.bytes = 0 ↔ o.toNat % w.bytes = 0 := by
  cases w <;> simp only [Width.bytes] <;> omega

/-- A naturally aligned access to the buffer window lies inside BUF (R66). -/
theorem buffer_fits (hbuffer : 0x100000 ≤ o.toNat) {w : Width} (haligned : o.toNat % w.bytes = 0) :
    o.toNat - 0x100000 + w.bytes ≤ 1048576 := by
  have := o.isLt
  cases w <;> simp only [Width.bytes] at * <;> omega

theorem bufferAccess_refused {b : Nat} {a : Access} (h : s.phase = .busy ∨ b % a.width.bytes ≠ 0) :
    bufferAccess b a s = .next (s.refuseAccess a) := by
  simp only [bufferAccess, if_pos h]

theorem not_refused {b : Nat} {w : Width} (hidle : s.phase = .idle) (haligned : b % w.bytes = 0) :
    ¬ (s.phase = .busy ∨ b % w.bytes ≠ 0) := by
  simp [hidle, haligned]

section

variable {b : Nat} {w : Width} (hidle : s.phase = .idle) (haligned : b % w.bytes = 0)

include hidle haligned

theorem bufferAccess_read {bs : List Byte} (hread : readBytes s.mem.readByte b w.bytes = .ok bs) :
    bufferAccess b (.read w) s = .next { s with rdata := BitVec.ofNat 32 (leValue bs) } := by
  simp only [bufferAccess, Access.width, if_neg (not_refused hidle haligned), readBytes_shift, Nat.add_zero, hread]

theorem bufferAccess_read_stop {f : Fault} (hread : readBytes s.mem.readByte b w.bytes = .error f) :
    bufferAccess b (.read w) s = .fault f := by
  simp only [bufferAccess, Access.width, if_neg (not_refused hidle haligned), readBytes_shift, Nat.add_zero, hread]

theorem bufferAccess_write {v : Word} (hfits : b + w.bytes ≤ Config.bufBytes) :
    bufferAccess b (.write w v) s = .next { s with mem := s.mem.write b (leBytes v w.bytes) } := by
  rw [← leBytes_length v w.bytes] at hfits
  simp only [bufferAccess, Access.width, if_neg (not_refused hidle haligned), Memory.store_inside _ hfits]

end

theorem hostAccess_buffer_refused {a : Access} (hbuffer : 0x100000 ≤ o.toNat)
    (h : s.phase = .busy ∨ o.toNat % a.width.bytes ≠ 0) : hostAccess o a s = .next (s.refuseAccess a) := by
  rw [hostAccess_buffer hbuffer, bufferAccess_refused (h.imp_right (mt (buffer_aligned_iff hbuffer _).1))]

section

variable {w : Width} (hidle : s.phase = .idle) (hbuffer : 0x100000 ≤ o.toNat) (haligned : o.toNat % w.bytes = 0)

include hidle hbuffer haligned

theorem hostAccess_bufferRead {bs : List Byte}
    (hread : readBytes s.mem.readByte (o.toNat - 0x100000) w.bytes = .ok bs) :
    hostAccess o (.read w) s = .next { s with rdata := BitVec.ofNat 32 (leValue bs) } := by
  rw [hostAccess_buffer hbuffer, bufferAccess_read hidle ((buffer_aligned_iff hbuffer w).2 haligned) hread]

theorem hostAccess_bufferRead_stop {f : Fault}
    (hread : readBytes s.mem.readByte (o.toNat - 0x100000) w.bytes = .error f) :
    hostAccess o (.read w) s = .fault f := by
  rw [hostAccess_buffer hbuffer, bufferAccess_read_stop hidle ((buffer_aligned_iff hbuffer w).2 haligned) hread]

theorem hostAccess_bufferWrite (v : Word) :
    hostAccess o (.write w v) s =
      .next { s with mem := s.mem.write (o.toNat - 0x100000) (leBytes v w.bytes) } := by
  rw [hostAccess_buffer hbuffer, bufferAccess_write hidle ((buffer_aligned_iff hbuffer w).2 haligned)
    (buffer_fits hbuffer haligned)]

end

theorem hostAccess_byteRead {b : Byte} (hidle : s.phase = .idle) (hbuffer : 0x100000 ≤ o.toNat)
    (hbyte : s.mem.lookup (o.toNat - 0x100000) = some b) :
    hostAccess o (.read .w8) s = .next { s with rdata := BitVec.ofNat 32 b.toNat } := by
  have hfits := buffer_fits hbuffer (w := .w8) (Nat.mod_one _)
  have hread : readBytes s.mem.readByte (o.toNat - 0x100000) (Width.bytes .w8) = .ok [b] :=
    readBytes_cons_iff.2 ⟨Memory.readByte_eq_ok hfits hbyte, rfl⟩
  exact hostAccess_bufferRead hidle hbuffer (Nat.mod_one _) hread

/-- Everything a host operation can do: it is refused, or a register is read or written, or, while the block is idle,
bytes of BUF are read or written (R62 to R65, R100 to R104). -/
inductive HostStep (s : State) : Access → Host.Outcome State Fault Refusal → Prop where
  | refused (a : Access) : HostStep s a (.next (s.refuseAccess a))
  | registerRead (n : Nat) : HostStep s (.read .w32) (.next { s with rdata := s.registerValue n })
  | registerWrite (n : Nat) (v : Word) : HostStep s (.write .w32 v) (.next (s.writeRegister n v))
  | bufferRead (w : Width) (v : Word) (hidle : s.phase = .idle) : HostStep s (.read w) (.next { s with rdata := v })
  | bufferReadStop (w : Width) (a : Nat) (hidle : s.phase = .idle) : HostStep s (.read w) (.fault (.unwrittenRead a))
  | bufferWrite (w : Width) (v : Word) (a : Nat) (bytes : List Byte) (hidle : s.phase = .idle)
      (hfits : a + bytes.length ≤ Config.bufBytes) :
      HostStep s (.write w v) (.next { s with mem := s.mem.write a bytes })

theorem hostAccess_step (o : HostOffset) (a : Access) (s : State) : HostStep s a (hostAccess o a s) := by
  by_cases hwindow : o.toNat < 0x40
  · by_cases hrefused : a.width ≠ .w32 ∨ o.toNat % 4 ≠ 0
    · rw [hostAccess_register_refused hwindow hrefused]
      exact .refused a
    · obtain ⟨hwidth, haligned⟩ : a.width = .w32 ∧ o.toNat % 4 = 0 := by simpa using hrefused
      cases a with
      | read w =>
        obtain rfl : w = .w32 := hwidth
        rw [hostAccess_registerRead hwindow haligned]
        exact .registerRead _
      | write w v =>
        obtain rfl : w = .w32 := hwidth
        rw [hostAccess_registerWrite hwindow haligned]
        exact .registerWrite _ v
  · by_cases hbuffer : 0x100000 ≤ o.toNat
    · by_cases hrefused : s.phase = .busy ∨ o.toNat % a.width.bytes ≠ 0
      · rw [hostAccess_buffer_refused hbuffer hrefused]
        exact .refused a
      · obtain ⟨hbusy, haligned⟩ : s.phase ≠ .busy ∧ o.toNat % a.width.bytes = 0 := by simpa using hrefused
        have hidle : s.phase = .idle := by
          cases hphase : s.phase with
          | idle => rfl
          | busy => exact absurd hphase hbusy
        cases a with
        | read w =>
          have haligned : o.toNat % w.bytes = 0 := haligned
          cases hread : readBytes s.mem.readByte (o.toNat - 0x100000) w.bytes with
          | ok bs =>
            rw [hostAccess_bufferRead hidle hbuffer haligned hread]
            exact .bufferRead w _ hidle
          | error f =>
            rw [hostAccess_bufferRead_stop hidle hbuffer haligned hread]
            obtain ⟨a, _, ha, hf⟩ := exists_of_readBytes_eq_error hread
            rw [Memory.readByte_eq_error (ha.trans_le (buffer_fits hbuffer haligned)) hf]
            exact .bufferReadStop w a hidle
        | write w v =>
          have haligned : o.toNat % w.bytes = 0 := haligned
          rw [hostAccess_bufferWrite hidle hbuffer haligned]
          exact .bufferWrite w v _ _ hidle (by rw [leBytes_length]; exact buffer_fits hbuffer haligned)
    · rw [hostAccess_reserved (Nat.not_lt.1 hwindow) (Nat.not_le.1 hbuffer)]
      exact .refused a

/-- A read changes at most BUSERR and the value the host is given (R70). -/
theorem HostStep.read {w : Width} {t : State} (h : HostStep s (.read w) (.next t)) :
    t = { s with regs := { s.regs with busErr := t.regs.busErr }, rdata := t.rdata } := by
  cases h <;> rfl

@[simp] theorem State.refuseAccess_script (a : Access) (s : State) : (s.refuseAccess a).script = s.script := by
  cases a <;> rfl

@[simp] theorem State.writeRegister_script (s : State) (n : Nat) (v : Word) : 
    (s.writeRegister n v).script = s.script := by
  unfold State.writeRegister
  split
  case h_1 => unfold State.writeControl; dsimp only; split <;> rfl
  case h_3 => unfold State.issue; split <;> rfl
  all_goals rfl

theorem HostStep.script_eq {a : Access} {t : State} (h : HostStep s a (.next t)) : t.script = s.script := by
  cases h with
  | refused => exact State.refuseAccess_script a s
  | registerWrite n v => exact State.writeRegister_script s n v
  | registerRead | bufferRead | bufferWrite => rfl

/-! ### Little-endian values (R61) -/

theorem leValue_lt (bs : List Byte) : leValue bs < 256 ^ bs.length := by
  induction bs with
  | nil => exact Nat.one_pos
  | cons b bs ih =>
    have := b.isLt
    rw [leValue, List.length_cons, Nat.pow_succ']
    omega

theorem leValue_digit {bs : List Byte} {i : Nat} {b : Byte} (h : bs[i]? = some b) :
    leValue bs / 256 ^ i % 256 = b.toNat := by
  induction bs generalizing i with
  | nil => simp at h
  | cons c bs ih =>
    have := c.isLt
    rw [leValue]
    cases i with
    | zero =>
      obtain rfl : c = b := by simpa using h
      rw [Nat.pow_zero, Nat.div_one]
      omega
    | succ i =>
      rw [Nat.pow_succ', ← Nat.div_div_eq_div_mul, Nat.add_mul_div_left _ _ (by decide), Nat.div_eq_of_lt this,
        Nat.zero_add]
      exact ih (by simpa using h)

theorem leBytes_eq_map_range (v : Word) (n : Nat) :
    leBytes v n = (List.range n).map fun i => BitVec.ofNat 8 (v.toNat / 256 ^ i) := by
  induction n generalizing v with
  | zero => rfl
  | succ n ih =>
    have htail : ∀ i, (v >>> 8).toNat / 256 ^ i = v.toNat / 256 ^ (i + 1) := fun i => by
      rw [BitVec.toNat_ushiftRight, Nat.shiftRight_eq_div_pow, Nat.div_div_eq_div_mul, ← Nat.pow_succ']
    rw [leBytes, ih, List.range_succ_eq_map, List.map_cons, List.map_map]
    simp only [Function.comp_def, Nat.succ_eq_add_one, htail, Nat.pow_zero, Nat.div_one, BitVec.ofNat_toNat]

theorem Width.bytes_le (w : Width) : w.bytes ≤ 4 := by
  cases w <;> decide

/-! ### The STATUS word (R24, R100) -/

theorem ofBool_toNat_eq_ite (b : Bool) : (BitVec.ofBool b).toNat = if b then 1 else 0 := by
  cases b <;> rfl

theorem Regs.err_eq (r : Regs) : r.err = decide (r.errCode ≠ .noError) := by
  unfold Regs.err
  cases r.errCode <;> rfl

theorem State.statusWord_toNat (s : State) :
    s.statusWord.toNat = 256 * s.regs.errCode.code.toNat + 16 * (if s.regs.busErr then 1 else 0) +
      8 * (if s.regs.lost then 1 else 0) + 4 * (if decide (s.regs.errCode ≠ .noError) then 1 else 0) +
      2 * (if s.regs.done then 1 else 0) + (if decide (s.phase = .busy) then 1 else 0) := by
  simp only [State.statusWord, append_toNat, ofBool_toNat_eq_ite, Regs.err_eq, State.busy, BitVec.toNat_ofNat]
  omega

/-! ### The system map (R60) -/

theorem hostOffsetOf_inside (base : Nat) (o : HostOffset) : hostOffsetOf base (base + o.toNat) = some o := by
  have := o.isLt
  rw [hostOffsetOf, if_pos (by omega), Nat.add_sub_cancel_left, BitVec.ofNat_toNat, BitVec.setWidth_eq]

theorem hostOffsetOf_outside {base addr : Nat} (h : addr < base ∨ base + 2 ^ 21 ≤ addr) :
    hostOffsetOf base addr = none := by
  rw [hostOffsetOf, if_neg (by omega)]

end Machine

end Sys2Proof

namespace Sys2Proof.Proofs

open Sys2Proof Sys2Proof.Machine

/-- Settles O35: the value of each register, the STATUS word by its bits. -/
theorem registerReadsGiveTheirFields : Obligations.RegisterReadsGiveTheirFields := by
  intro s reads bit
  have hread : ∀ (o : HostOffset) (v : Nat), o.toNat < 0x40 → o.toNat % 4 = 0 →
      s.registerValue o.toNat = BitVec.ofNat 32 v → reads o v := fun o v hwindow haligned hvalue => by
    simp only [reads]
    rw [hostAccess_registerRead hwindow haligned, hvalue]
  have hfield : ∀ {n : Nat} (x : BitVec n), x.setWidth 32 = BitVec.ofNat 32 x.toNat := fun x =>
    (BitVec.ofNat_toNat 32 x).symm
  have hie : BitVec.setWidth 32 (BitVec.ofBool s.regs.ie) = BitVec.ofNat 32 (bit s.regs.ie) := by
    rw [hfield, ofBool_toNat_eq_ite]
  have hstatus : s.statusWord = BitVec.ofNat 32 s.statusWord.toNat := by simp
  rw [State.statusWord_toNat] at hstatus
  exact ⟨hread 0x00 _ (by decide) (by decide) rfl, hread 0x04 _ (by decide) (by decide) hie,
    hread 0x08 _ (by decide) (by decide) hstatus, hread 0x0C _ (by decide) (by decide) rfl,
    hread 0x10 _ (by decide) (by decide) (hfield _), hread 0x14 _ (by decide) (by decide) (hfield _),
    hread 0x18 _ (by decide) (by decide) (hfield _), hread 0x1C _ (by decide) (by decide) (hfield _),
    hread 0x20 _ (by decide) (by decide) (hfield _), hread 0x24 _ (by decide) (by decide) (hfield _),
    hread 0x28 _ (by decide) (by decide) (hfield _), hread 0x2C _ (by decide) (by decide) (hfield _),
    hread 0x30 _ (by decide) (by decide) (hfield _), hread 0x34 _ (by decide) (by decide) (hfield _),
    hread 0x38 _ (by decide) (by decide) rfl, hread 0x3C _ (by decide) (by decide) rfl⟩

/-- Settles O36: what is written to each register. -/
theorem registerWritesChangeTheirFieldsOnly : Obligations.RegisterWritesChangeTheirFieldsOnly := by
  intro s v writes
  have hwrite : ∀ (o : HostOffset) (r : Regs), o.toNat < 0x40 → o.toNat % 4 = 0 →
      s.writeRegister o.toNat v = { s with regs := r } → writes o r := fun o r hwindow haligned hvalue => by
    simp only [writes]
    rw [hostAccess_registerWrite hwindow haligned, hvalue]
  simp only [BitVec.ofNat_toNat]
  refine ⟨fun hclear => hwrite 0x04 _ (by decide) (by decide) (s.writeControl_of_clear hclear),
    hwrite 0x08 _ (by decide) (by decide) rfl, hwrite 0x10 _ (by decide) (by decide) rfl,
    hwrite 0x14 _ (by decide) (by decide) rfl, hwrite 0x18 _ (by decide) (by decide) rfl,
    hwrite 0x1C _ (by decide) (by decide) rfl, hwrite 0x20 _ (by decide) (by decide) rfl,
    hwrite 0x24 _ (by decide) (by decide) rfl, fun o ho => ?_⟩
  simp only [List.mem_cons, List.not_mem_nil, or_false] at ho
  obtain rfl | rfl | rfl | rfl | rfl | rfl | rfl := ho <;> exact hwrite _ _ (by decide) (by decide) rfl

/-- Settles O37: each class of refused accesses, by the window it falls in. -/
theorem refusedAccessesOnlySetBusErr : Obligations.RefusedAccessesOnlySetBusErr := by
  intro s o w v hclass
  have hrefused : ∀ a : Access, a.width = w → hostAccess o a s = .next (s.refuseAccess a) := by
    rintro a rfl
    obtain ⟨hwindow, hshape⟩ | ⟨hlow, hhigh⟩ | ⟨hbuffer, hshape⟩ := hclass
    · exact hostAccess_register_refused hwindow hshape s
    · exact hostAccess_reserved hlow hhigh a s
    · refine hostAccess_buffer_refused hbuffer (hshape.imp_right ?_)
      rintro (⟨hwidth, hodd⟩ | ⟨hwidth, hodd⟩) <;> rwa [hwidth]
  exact ⟨hrefused (.read w) rfl, hrefused (.write w v) rfl⟩

/-- Settles O38: the bytes read are the digits of the value. -/
theorem bufferReadsAreLittleEndian : Obligations.BufferReadsAreLittleEndian := by
  intro s o w bytes hidle hbuffer hlen haligned hholds
  replace hlen : bytes.length = w.bytes := by cases w <;> exact hlen
  rw [hlen] at haligned
  have hread := Memory.readBytes_of_holds hholds (by rw [hlen]; exact buffer_fits hbuffer haligned)
  rw [hlen] at hread
  have hlt := leValue_lt bytes
  have hmax : 256 ^ bytes.length ≤ 256 ^ 4 := Nat.pow_le_pow_right (by decide) (by rw [hlen]; exact w.bytes_le)
  have hvalue : (BitVec.ofNat 32 (leValue bytes)).toNat = leValue bytes := Nat.mod_eq_of_lt (by omega)
  refine ⟨_, hostAccess_bufferRead hidle hbuffer haligned hread, ?_, fun i b hb => ?_⟩
  · rwa [hvalue]
  · rw [hvalue, leValue_digit hb]

/-- Settles O39: the bytes written are the digits of the value, and each is read back by itself. -/
theorem bufferWritesAreLittleEndian : Obligations.BufferWritesAreLittleEndian := by
  intro s o w v hidle hbuffer size haligned
  have hsize : size = w.bytes := by cases w <;> rfl
  rw [hsize] at haligned ⊢
  have hfits := buffer_fits hbuffer haligned
  have hwrite := hostAccess_bufferWrite hidle hbuffer haligned v
  rw [leBytes_eq_map_range] at hwrite
  have hwrote := s.mem.wrote_write (o.toNat - 0x100000)
    ((List.range w.bytes).map fun i => BitVec.ofNat 8 (v.toNat / 256 ^ i))
  refine ⟨_, hwrite, hwrote, fun i hi => ?_⟩
  have hoffset : (BitVec.ofNat 21 (o.toNat + i)).toNat = o.toNat + i := Nat.mod_eq_of_lt (by omega)
  have hbyte := hwrote.1 i (by simpa using hi)
  rw [List.getElem_map, List.getElem_range,
    show o.toNat - 0x100000 + i = (BitVec.ofNat 21 (o.toNat + i)).toNat - 0x100000 by omega] at hbyte
  rw [hostAccess_byteRead (s := { s with mem := s.mem.write _ _ }) hidle (by omega) hbyte, BitVec.toNat_ofNat]

/-- Settles O40: the bytes before the first unwritten one are read, and it stops the reader. -/
theorem unwrittenBytesStopTheReader : Obligations.UnwrittenBytesStopTheReader := by
  intro s o w k hidle hbuffer size haligned hk hheld hnone
  have hsize : size = w.bytes := by cases w <;> rfl
  rw [hsize] at haligned hk
  have hfits := buffer_fits hbuffer haligned
  refine hostAccess_bufferRead_stop hidle hbuffer haligned (readBytes_eq_error_iff.2 ⟨k, hk, fun j hj => ?_, ?_⟩)
  · exact Memory.exists_readByte_eq_ok (by simp only [Config.bufBytes]; omega) (hheld j hj)
  · exact Memory.readByte_unwritten (by simp only [Config.bufBytes]; omega) hnone

/-- Settles O44: the soft reset after IE is stored. -/
theorem softResetAbortsAndResets : Obligations.SoftResetAbortsAndResets := by
  intro s v hset
  have hwrite := hostAccess_registerWrite (o := 0x04) (by decide) (by decide) v s
  refine ⟨_, hwrite.trans (congrArg _ (s.writeControl_of_set hset)), rfl, rfl, rfl, State.irq_softReset _, rfl, rfl,
    fun hidle => State.softReset_mem_idle hidle, fun c hbusy hcommand => ?_⟩
  rw [State.softReset_mem_busy (s := { s with regs := { s.regs with ie := v.getLsbD 0 } }) hbusy,
    Latch.destination_eq hcommand]
  exact s.mem.forgot_forget _ _

/-- Settles O45: the power-on event, and the fields of the reset state. -/
theorem powerOnGivesTheResetState : Obligations.PowerOnGivesTheResetState :=
  ⟨fun _ _ hscript => step_of_script_cons hscript, rfl, rfl, rfl, rfl, rfl, rfl, rfl, rfl, rfl, rfl, rfl, rfl, rfl, rfl,
    rfl, rfl, rfl, rfl, fun _ => rfl⟩

/-- Settles O47: every answer to a read is one of those of `HostStep`. -/
theorem readsHaveNoSideEffects : Obligations.ReadsHaveNoSideEffects := by
  intro s t o w h
  have hstep := hostAccess_step o (.read w) s
  rw [h] at hstep
  exact hstep.read

/-- Settles O48: the offset is counted from the base of the window. -/
theorem systemAddressesMapIntoTheWindow : Obligations.SystemAddressesMapIntoTheWindow := by
  intro s a addr
  refine ⟨fun o => ?_, fun houtside => ?_⟩
  · simp only [systemAccess, hostOffsetOf_inside]
  · simp only [systemAccess, hostOffsetOf_outside houtside]

/-- Settles O53: the head of the script is performed, and no host operation or reset touches what follows it. -/
theorem hostStepsHappenInOrder : Obligations.HostStepsHappenInOrder := by
  intro s rest
  refine ⟨fun o a => step_of_script_cons, fun addr a => step_of_script_cons, step_of_script_cons, ?_⟩
  intro e t hkind hscript hstep
  rw [step_of_script_cons hscript] at hstep
  have hhost : ∀ o a, hostAccess o a { s with script := rest } = .next t → t.script = rest := fun o a h => by
    have hstep := hostAccess_step o a { s with script := rest }
    rw [h] at hstep
    exact hstep.script_eq
  obtain ⟨o, a, rfl⟩ | ⟨addr, a, rfl⟩ | rfl := hkind
  · exact hhost o a hstep
  · change systemAccess addr a _ = _ at hstep
    unfold systemAccess at hstep
    split at hstep
    · exact hhost _ a hstep
    · cases hstep
      rfl
  · cases hstep
    rfl

end Sys2Proof.Proofs

/-! PROOFS of the family other: everything an internal step can do, the invariant that every step keeps (R20, R41, R113,
R203, R208, R214), and that no access falls outside BUF (R66). -/

namespace Sys2Proof

open Machine

namespace Machine

/-! ### Everything an internal step of a transient within its bounds can do (log 2) -/

/-- A decode writes a complete scanline and goes on or completes; or it reads a control byte and runs its group. -/
inductive DecoderStep (c : Command) (d : Decoder) (s : State) : Host.Outcome State Fault Refusal → Prop where
  | line (hout : d.out.length = 72) (hline : d.line + 1 < c.lines) : DecoderStep c d s (.next { s with
      mem := s.mem.write (s.latch.dst.toNat + d.line * 72) d.out
      run := .decoding { cur := d.cur, out := [], line := d.line + 1 } })
  | last (hout : d.out.length = 72) (hline : d.line + 1 = c.lines) : DecoderStep c d s
      (.next (s.succeed d.cur (c.lines * 72) (s.mem.write (s.latch.dst.toNat + d.line * 72) d.out)))
  | exhausted (hout : d.out.length < 72) (hcur : d.cur = s.latch.srcLen.toNat) :
      DecoderStep c d s (.next (s.runFail s.latch.destination .fmtTruncated d.cur d.line))
  | unreadable {f : Fault} (hout : d.out.length < 72) (hcur : d.cur < s.latch.srcLen.toNat)
      (hread : s.sourceByte d.cur = .error f) : DecoderStep c d s (.fault f)
  | group {b : Byte} {d' : Decoder} (hout : d.out.length < 72) (hcur : d.cur < s.latch.srcLen.toNat)
      (hread : s.sourceByte d.cur = .ok b) (hgroup : groupStep s.sourceByte s.latch.srcLen.toNat b d = .ok d')
      (hmoves : d.cur < d'.cur) (hcur' : d'.cur ≤ s.latch.srcLen.toNat) (hout' : d'.out.length ≤ 72)
      (hline' : d'.line = d.line) : DecoderStep c d s (.next { s with run := .decoding d' })
  | groupError {b : Byte} {e : ErrCode} (hout : d.out.length < 72) (hcur : d.cur < s.latch.srcLen.toNat)
      (hread : s.sourceByte d.cur = .ok b) (hgroup : groupStep s.sourceByte s.latch.srcLen.toNat b d = .err e d.cur)
      (he : e = .fmtOverrun ∨ e = .fmtTruncated) :
      DecoderStep c d s (.next (s.runFail s.latch.destination e d.cur d.line))
  | groupStop {b : Byte} {f : Fault} (hout : d.out.length < 72) (hcur : d.cur < s.latch.srcLen.toNat)
      (hread : s.sourceByte d.cur = .ok b) (hgroup : groupStep s.sourceByte s.latch.srcLen.toNat b d = .stop f) :
      DecoderStep c d s (.fault f)

/-- An encode completes after its last row, goes on to the next at the end of one, or emits a group. -/
inductive EncoderStep (c : Command) (e : Encoder) (s : State) : Host.Outcome State Fault Refusal → Prop where
  | done (hline : e.line = c.lines) : EncoderStep c e s (.next (s.succeed (c.lines * 72) e.written s.mem))
  | row (hline : e.line < c.lines) (hpos : e.pos = 72) :
      EncoderStep c e s (.next { s with run := .encoding { e with line := e.line + 1, pos := 0 } })
  | unreadable {f : Fault} (hline : e.line < c.lines) (hpos : e.pos < 72)
      (hread : readBytes s.sourceByte (e.line * 72) 72 = .error f) : EncoderStep c e s (.fault f)
  | overflow {row : List Byte} (hline : e.line < c.lines) (hpos : e.pos < 72)
      (hread : readBytes s.sourceByte (e.line * 72) 72 = .ok row)
      (hover : s.latch.dstLen.toNat < e.written + (encodeGroup (nextGroup (row.drop e.pos)).1).length) :
      EncoderStep c e s (.next (s.runFail s.latch.destination .dstOverflow (e.line * 72 + e.pos) e.line))
  | group {row : List Byte} (hline : e.line < c.lines) (hpos : e.pos < 72)
      (hread : readBytes s.sourceByte (e.line * 72) 72 = .ok row)
      (hroom : e.written + (encodeGroup (nextGroup (row.drop e.pos)).1).length ≤ s.latch.dstLen.toNat)
      (hmoves : 1 ≤ (nextGroup (row.drop e.pos)).2) (hpos' : e.pos + (nextGroup (row.drop e.pos)).2 ≤ 72) :
      EncoderStep c e s (.next { s with
        mem := s.mem.write (s.latch.dst.toNat + e.written) (encodeGroup (nextGroup (row.drop e.pos)).1)
        run := .encoding { e with
          pos := e.pos + (nextGroup (row.drop e.pos)).2
          written := e.written + (encodeGroup (nextGroup (row.drop e.pos)).1).length } })

/-- A dither completes after its last pixel, or decides the pixel at its position. -/
inductive DithererStep (d : Ditherer) (s : State) : Host.Outcome State Fault Refusal → Prop where
  | done (hy : d.y = 720) (hx : d.x = 0) : DithererStep d s (.next (s.succeed Config.gridBytes Config.frameBytes
      (s.mem.write s.latch.dst.toNat (packBitmap Config.W Config.H d.bits))))
  | unreadable {f : Fault} (hy : d.y < 720) (hread : s.sourceByte (d.y * Config.W + d.x) = .error f) :
      DithererStep d s (.fault f)
  | pixel {g : Byte} (hy : d.y < 720) (hread : s.sourceByte (d.y * Config.W + d.x) = .ok g) : DithererStep d s
      (.next { s with run := .dithering (ditherPixel Config.divRound Config.W Config.H g d) })

end Machine

section

variable {c : Command} {s : State}

theorem ready_destination_le (hready : Ready c s.latch) : s.latch.dst.toNat + c.outLen s.latch ≤ 1048576 := by
  obtain ⟨-, -, ⟨-, hregion⟩, -⟩ := hready
  exact hregion

theorem advanceDecoder_step {d : Decoder} (hcommand : s.latch.command = some c) (hrun : s.run = .decoding d)
    (hvalid : (Running.decoding d).valid s.latch) : DecoderStep c d s (advanceDecoder c d s) := by
  obtain ⟨hready, hc, hline, hcur, hout⟩ := (valid_decoding_iff hcommand).1 hvalid
  obtain hfull | hroom := hout.eq_or_lt
  · have hregion := ready_destination_le hready
    rw [outLen_decode hc] at hregion
    have hfits : s.latch.dst.toNat + d.line * Config.N + d.out.length ≤ Config.bufBytes := by
      simp only [Config.N, Config.bufBytes] at *
      omega
    obtain hmore | hlast := (Nat.succ_le_of_lt hline).lt_or_eq
    · rw [advanceDecoder_line hfull.ge hfits hmore]
      exact .line hfull hmore
    · rw [advanceDecoder_last hfull.ge hfits hlast.ge]
      exact .last hfull hlast
  · obtain hend | hcur := hcur.eq_or_lt
    · rw [advanceDecoder_exhausted hroom hend.ge]
      exact .exhausted hroom hend
    · cases hread : s.sourceByte d.cur with
      | error f =>
        rw [advanceDecoder_unreadable hroom hcur hread]
        exact .unreadable hroom hcur hread
      | ok b =>
        rw [advanceDecoder_group hroom hcur hread, runGroup_decodeControl]
        obtain ⟨d', hgroup, hmoves, hcur', hout', hline'⟩ | hgroup | hgroup | ⟨f, hgroup⟩ :=
          groupStep_cases (rd := s.sourceByte) (c := b) hcur hout
        · rw [runGroup_ok hrun hgroup]
          exact .group hroom hcur hread hgroup hmoves hcur' hout' hline'
        · rw [runGroup_err hrun hgroup]
          exact .groupError hroom hcur hread hgroup (Or.inl rfl)
        · rw [runGroup_err hrun hgroup]
          exact .groupError hroom hcur hread hgroup (Or.inr rfl)
        · rw [runGroup_stop hrun hgroup]
          exact .groupStop hroom hcur hread hgroup

theorem advanceEncoder_step {e : Encoder} (hcommand : s.latch.command = some c)
    (hvalid : (Running.encoding e).valid s.latch) : EncoderStep c e s (advanceEncoder c e s) := by
  obtain ⟨hready, hc, hline, hpos, hwritten⟩ := (valid_encoding_iff hcommand).1 hvalid
  have hregion := ready_destination_le hready
  rw [outLen_encode hc] at hregion
  obtain hdone | hline := hline.eq_or_lt
  · rw [advanceEncoder_done hdone.ge]
    exact .done hdone
  · obtain hend | hpos := hpos.eq_or_lt
    · rw [advanceEncoder_row hline hend.ge]
      exact .row hline hend
    · cases hread : readBytes s.sourceByte (e.line * Config.N) Config.N with
      | error f =>
        rw [advanceEncoder_unreadable hline hpos hread]
        exact .unreadable hline hpos hread
      | ok row =>
        by_cases hroom : e.written + (encodeGroup (nextGroup (row.drop e.pos)).1).length ≤ s.latch.dstLen.toNat
        · have hlen := readBytes_length hread
          obtain ⟨b, rest, hrest⟩ := List.exists_cons_of_length_pos (l := row.drop e.pos) (by
            rw [List.length_drop]
            omega)
          obtain ⟨hmoves, -, hle, -⟩ := nextGroup_covers b rest
          rw [← hrest] at hmoves hle
          rw [List.length_drop, hlen] at hle
          rw [advanceEncoder_group hline hpos hread hroom (by simp only [Config.bufBytes]; omega)]
          exact .group hline hpos hread hroom hmoves (by simp only [Config.N] at *; omega)
        · rw [advanceEncoder_overflow hline hpos hread (Nat.not_le.1 hroom)]
          exact .overflow hline hpos hread (Nat.not_le.1 hroom)

theorem advanceDitherer_step {d : Ditherer} (hvalid : (Running.dithering d).valid s.latch) :
    DithererStep d s (advanceDitherer d s) := by
  obtain ⟨-, hready, -, -, -, hy | ⟨hy, hx⟩⟩ := valid_dithering_iff.1 hvalid
  · cases hread : s.sourceByte (d.y * Config.W + d.x) with
    | error f =>
      rw [advanceDitherer_unreadable hy hread]
      exact .unreadable hy hread
    | ok g =>
      rw [advanceDitherer_pixel hy hread]
      exact .pixel hy hread
  · rw [advanceDitherer_done hy.ge (ready_destination_le hready)]
    exact .done hy hx

/-! ### Where a transient stays within its bounds (R20, R38, R39) -/

theorem begin_valid (hcommand : s.latch.command = some c) (hready : Ready c s.latch) : c.begin.valid s.latch := by
  obtain hc | hc | rfl := command_kinds c
  · have hvalid : (Running.encoding { line := 0, pos := 0, written := 0 }).valid s.latch :=
      (valid_encoding_iff hcommand).2 ⟨hready, hc, Nat.zero_le _, Nat.zero_le _, Nat.zero_le _⟩
    obtain rfl | rfl := hc <;> exact hvalid
  · have hvalid : (Running.decoding { cur := 0, out := [], line := 0 }).valid s.latch :=
      (valid_decoding_iff hcommand).2 ⟨hready, hc, by obtain rfl | rfl := hc <;> decide, Nat.zero_le _, Nat.zero_le _⟩
    obtain rfl | rfl := hc <;> exact hvalid
  · exact valid_dithering_iff.2
      ⟨hcommand, hready, Array.size_replicate, (ditherStart_position _ _).symm, by simp [ditherStart],
        Or.inl (by simp [ditherStart])⟩

theorem ditherPixel_valid {l : Latch} {d : Ditherer} (hvalid : (Running.dithering d).valid l) (hy : d.y < 720)
    (g : Byte) : (Running.dithering (ditherPixel Config.divRound Config.W Config.H g d)).valid l := by
  obtain ⟨hcommand, hready, herr, hbits, hx, -⟩ := valid_dithering_iff.1 hvalid
  obtain ⟨hx', hposition⟩ := ditherPixel_position Config.divRound Config.H g hx
  refine valid_dithering_iff.2 ⟨hcommand, hready, ?_, ?_, hx', ?_⟩
  · rw [ditherPixel_err_size, herr]
  · rw [ditherPixel_bits_size, hbits, hposition]
  · obtain ⟨-, -, hy'⟩ | ⟨-, hx', hy'⟩ := ditherPixel_next Config.divRound Config.W Config.H g d
    · exact Or.inl (hy'.trans_lt hy)
    · obtain hmore | hlast := (Nat.succ_le_of_lt hy).lt_or_eq
      · exact Or.inl (hy'.trans_lt hmore)
      · exact Or.inr ⟨hy'.trans hlast, hx'⟩

/-! ### The invariant -/

/-- The outcome keeps the invariant, or the machine has met an unwritten byte (U6). -/
inductive KeepsInv : Host.Outcome State Fault Refusal → Prop where
  | next {t : State} (h : t.Inv) : KeepsInv (.next t)
  | unwritten (a : Nat) : KeepsInv (.fault (.unwrittenRead a))

/-- A byte of a source region that cannot be read is an unwritten one (R66). -/
theorem keepsInv_of_source {k : Nat} {f : Fault} (hready : Ready c s.latch) (hk : k < c.inLen s.latch)
    (hread : s.sourceByte k = .error f) : KeepsInv (.fault f) := by
  obtain ⟨-, -, ⟨hregion, -⟩, -⟩ := hready
  rw [Memory.readByte_eq_error (by simp only [Config.bufBytes]; omega) hread]
  exact .unwritten _

namespace Machine

theorem reset_inv : State.reset.Inv where
  memory := Memory.wf_nil
  idleFresh _ := rfl
  busyPending h := by cases h
  transient := trivial
  noEncInvariant := by decide
  failedCounts _ _ := ⟨rfl, rfl⟩
  noPosition _ _ := ⟨rfl, rfl⟩

/-- A completed command meets the invariant, whatever the state it began in. -/
theorem complete_inv {e : ErrCode} {pos line n p : Nat} {m : Memory} (hmem : m.wf) (he : e ≠ .encInvariant)
    (hcounts : e ≠ .noError → n = 0 ∧ p = 0) (hposition : e.positionless = true → pos = 0 ∧ line = 0) :
    (s.complete e pos line n p m).Inv where
  memory := hmem
  idleFresh _ := rfl
  busyPending h := by cases h
  transient := trivial
  noEncInvariant := he
  failedCounts _ hfailed := by
    obtain ⟨rfl, rfl⟩ := hcounts hfailed
    exact ⟨rfl, rfl⟩
  noPosition _ hnone := by
    obtain ⟨rfl, rfl⟩ := hposition hnone
    exact ⟨rfl, rfl⟩

theorem preFail_inv {e : ErrCode} (hmem : s.mem.wf) (he : e.positionless = true) : (s.preFail e).Inv :=
  complete_inv hmem (by rintro rfl; cases he) (fun _ => ⟨rfl, rfl⟩) (fun _ => ⟨rfl, rfl⟩)

theorem succeed_inv {n p : Nat} {m : Memory} (hmem : m.wf) : (s.succeed n p m).Inv :=
  complete_inv hmem (by decide) (fun h => absurd rfl h) (fun _ => ⟨rfl, rfl⟩)

theorem runFail_inv {region : Nat × Nat} {e : ErrCode} {pos line : Nat} (hmem : s.mem.wf)
    (he : e = .dstOverflow ∨ e = .fmtTruncated ∨ e = .fmtOverrun) : (s.runFail region e pos line).Inv :=
  complete_inv (Memory.wf_forget hmem _ _) (by rintro rfl; simp at he) (fun _ => ⟨rfl, rfl⟩)
    (by obtain rfl | rfl | rfl := he <;> exact fun h => by cases h)

/-- A completion step keeps the invariant (R115). -/
theorem completionStep_keepsInv (hmem : s.mem.wf) : KeepsInv (completionStep s) := by
  cases hcommand : s.latch.command with
  | none =>
    rw [completionStep_illegal hcommand]
    exact .next (preFail_inv hmem rfl)
  | some c =>
    rw [completionStep_command hcommand]
    obtain ⟨e, hpre, hx⟩ | ⟨out, n, hpre, -, hle, hx⟩ | ⟨e, pos, line, -, hraise, hx⟩ | ⟨f, hpre, hstop, hx⟩ :=
      exec_command_cases c s <;> rw [hx]
    · exact .next (preFail_inv hmem (precheck_positionless hpre))
    · have hregion := ready_destination_le ((precheck_eq_none_iff c s.latch).1 hpre)
      exact .next (succeed_inv (Memory.wf_write hmem (by simp only [Config.bufBytes]; omega)))
    · exact .next (runFail_inv hmem (body_raise hraise))
    · obtain ⟨k, hk, hread⟩ := body_eq_stop hstop
      exact keepsInv_of_source ((precheck_eq_none_iff c s.latch).1 hpre) hk hread

/-- A running command keeps the invariant while its transient stays within its bounds. -/
theorem State.Inv.running (h : s.Inv) (hbusy : s.phase = .busy) {m : Memory} {r : Running} (hmem : m.wf)
    (hrun : r.valid s.latch) : State.Inv { s with mem := m, run := r } where
  memory := hmem
  idleFresh hidle := by cases hbusy.symm.trans hidle
  busyPending := h.busyPending
  transient := hrun
  noEncInvariant := h.noEncInvariant
  failedCounts := h.failedCounts
  noPosition := h.noPosition

theorem DecoderStep.keepsInv {d : Decoder} {r : Host.Outcome State Fault Refusal} (hstep : DecoderStep c d s r)
    (h : s.Inv) (hbusy : s.phase = .busy) (hcommand : s.latch.command = some c)
    (hvalid : (Running.decoding d).valid s.latch) : KeepsInv r := by
  obtain ⟨hready, hc, hline, hcur, hout⟩ := (valid_decoding_iff hcommand).1 hvalid
  have hregion := ready_destination_le hready
  rw [outLen_decode hc] at hregion
  have hsource : ∀ k f, k < s.latch.srcLen.toNat → s.sourceByte k = .error f → KeepsInv (.fault f) := fun k f hk =>
    keepsInv_of_source hready (by rwa [inLen_decode hc])
  have hstore : d.out.length = 72 → (s.mem.write (s.latch.dst.toNat + d.line * 72) d.out).wf := fun hout =>
    Memory.wf_write h.memory (by simp only [Config.bufBytes]; omega)
  cases hstep with
  | line hout hline =>
    exact .next (h.running hbusy (hstore hout)
      ((valid_decoding_iff hcommand).2 ⟨hready, hc, hline, hcur, Nat.zero_le _⟩))
  | last hout hline => exact .next (succeed_inv (hstore hout))
  | exhausted => exact .next (runFail_inv h.memory (by simp))
  | unreadable _ hcur hread => exact hsource _ _ hcur hread
  | group _ _ _ _ _ hcur' hout' hline' =>
    exact .next (h.running hbusy h.memory
      ((valid_decoding_iff hcommand).2 ⟨hready, hc, hline'.trans_lt hline, hcur', hout'⟩))
  | groupError _ _ _ _ he => exact .next (runFail_inv h.memory (Or.inr he.symm))
  | groupStop _ _ _ hgroup =>
    obtain ⟨k, hk, hread⟩ := groupStep_eq_stop hgroup
    exact hsource _ _ hk hread

theorem EncoderStep.keepsInv {e : Encoder} {r : Host.Outcome State Fault Refusal} (hstep : EncoderStep c e s r)
    (h : s.Inv) (hbusy : s.phase = .busy) (hcommand : s.latch.command = some c)
    (hvalid : (Running.encoding e).valid s.latch) : KeepsInv r := by
  obtain ⟨hready, hc, -, -, hwritten⟩ := (valid_encoding_iff hcommand).1 hvalid
  have hregion := ready_destination_le hready
  rw [outLen_encode hc] at hregion
  cases hstep with
  | done => exact .next (succeed_inv h.memory)
  | row hline =>
    exact .next (h.running hbusy h.memory
      ((valid_encoding_iff hcommand).2 ⟨hready, hc, hline, Nat.zero_le _, hwritten⟩))
  | unreadable hline _ hread =>
    obtain ⟨k, -, hk, hf⟩ := exists_of_readBytes_eq_error hread
    exact keepsInv_of_source hready (by rw [inLen_encode hc]; omega) hf
  | overflow => exact .next (runFail_inv h.memory (Or.inl rfl))
  | group hline _ _ hroom _ hpos' =>
    exact .next (h.running hbusy (Memory.wf_write h.memory (by simp only [Config.bufBytes]; omega))
      ((valid_encoding_iff hcommand).2 ⟨hready, hc, hline.le, hpos', hroom⟩))

theorem DithererStep.keepsInv {d : Ditherer} {r : Host.Outcome State Fault Refusal} (hstep : DithererStep d s r)
    (h : s.Inv) (hbusy : s.phase = .busy) (hvalid : (Running.dithering d).valid s.latch) : KeepsInv r := by
  obtain ⟨-, hready, -, -, hx, -⟩ := valid_dithering_iff.1 hvalid
  have hregion := ready_destination_le hready
  cases hstep with
  | done =>
    have hlen : (packBitmap Config.W Config.H d.bits).length = Config.frameBytes := packBitmap_length ..
    exact .next (succeed_inv (Memory.wf_write h.memory (by rw [hlen]; exact hregion)))
  | unreadable hy hread => exact keepsInv_of_source hready (cellIndex_lt hx hy) hread
  | pixel hy => exact .next (h.running hbusy h.memory (ditherPixel_valid hvalid hy _))

/-- An internal step keeps the invariant (log 2). -/
theorem advanceStep_keepsInv (h : s.Inv) (hbusy : s.phase = .busy) : KeepsInv (advanceStep s) := by
  cases hcommand : s.latch.command with
  | none =>
    rw [advanceStep_illegal hcommand]
    exact completionStep_keepsInv h.memory
  | some c =>
    have hvalid := h.transient
    cases hrun : s.run with
    | fresh =>
      cases hpre : c.precheck s.latch with
      | some e =>
        rw [advanceStep_precheck hcommand hrun hpre]
        exact .next (preFail_inv h.memory (precheck_positionless hpre))
      | none =>
        have hready := (precheck_eq_none_iff c s.latch).1 hpre
        rw [advanceStep_begin hcommand hrun hready]
        exact .next (h.running hbusy h.memory (begin_valid hcommand hready))
    | decoding d =>
      rw [hrun] at hvalid
      rw [advanceStep_decoding hcommand hrun]
      exact (advanceDecoder_step hcommand hrun hvalid).keepsInv h hbusy hcommand hvalid
    | encoding e =>
      rw [hrun] at hvalid
      rw [advanceStep_encoding hcommand hrun]
      exact (advanceEncoder_step hcommand hvalid).keepsInv h hbusy hcommand hvalid
    | dithering d =>
      rw [hrun] at hvalid
      rw [advanceStep_dithering hcommand hrun]
      exact (advanceDitherer_step hvalid).keepsInv h hbusy hvalid

/-! The host's steps (R100 to R105). -/

/-- Registers that agree on DONE, the error and the results keep the invariant. -/
theorem State.Inv.withRegs (h : s.Inv) {r : Regs} (hdone : r.done = true → s.regs.done = true)
    (he : r.errCode = s.regs.errCode) (hconsumed : r.consumed = s.regs.consumed)
    (hproduced : r.produced = s.regs.produced) (hpos : r.errPos = s.regs.errPos)
    (hline : r.errLine = s.regs.errLine) : State.Inv { s with regs := r } where
  memory := h.memory
  idleFresh := h.idleFresh
  busyPending hbusy := by
    obtain ⟨hpending, hnone⟩ := h.busyPending hbusy
    exact ⟨Bool.eq_false_iff.2 fun hup => by simp [hdone hup] at hpending, he.trans hnone⟩
  transient := h.transient
  noEncInvariant := by simpa only [he] using h.noEncInvariant
  failedCounts := by simpa only [he, hconsumed, hproduced] using h.failedCounts
  noPosition := by simpa only [he, hpos, hline] using h.noPosition

theorem State.Inv.softReset (h : s.Inv) : s.softReset.Inv where
  memory := by
    cases hphase : s.phase with
    | idle => exact (State.softReset_mem_idle hphase).symm ▸ h.memory
    | busy => exact (State.softReset_mem_busy hphase).symm ▸ Memory.wf_forget h.memory _ _
  idleFresh _ := rfl
  busyPending hbusy := by cases hbusy
  transient := trivial
  noEncInvariant := ErrCode.noConfusion
  failedCounts _ _ := ⟨rfl, rfl⟩
  noPosition _ _ := ⟨rfl, rfl⟩

theorem State.Inv.accept (h : s.Inv) (v : Word) : (s.accept v).Inv where
  memory := h.memory
  idleFresh hidle := by cases hidle
  busyPending _ := ⟨rfl, rfl⟩
  transient := trivial
  noEncInvariant := ErrCode.noConfusion
  failedCounts hidle := by cases hidle
  noPosition hidle := by cases hidle

theorem State.Inv.issue (h : s.Inv) (v : Word) : (s.issue v).Inv := by
  cases hphase : s.phase with
  | idle =>
    rw [State.issue_idle hphase]
    exact h.accept v
  | busy =>
    rw [State.issue_busy hphase]
    exact h.withRegs id rfl rfl rfl rfl rfl

theorem State.Inv.writeControl (h : s.Inv) (v : Word) : (s.writeControl v).Inv := by
  have hie : State.Inv { s with regs := { s.regs with ie := v.getLsbD 0 } } := h.withRegs id rfl rfl rfl rfl rfl
  cases hreset : v.getLsbD 1 with
  | false =>
    rw [s.writeControl_of_clear hreset]
    exact hie
  | true =>
    rw [s.writeControl_of_set hreset]
    exact hie.softReset

theorem State.Inv.writeRegister (h : s.Inv) (n : Nat) (v : Word) : (s.writeRegister n v).Inv := by
  unfold State.writeRegister
  split
  case h_1 => exact h.writeControl v
  case h_2 =>
    refine h.withRegs (fun hup => ?_) rfl rfl rfl rfl rfl
    rw [Regs.writeStatus_done, writeOneClears, Bool.and_eq_true] at hup
    exact hup.1
  case h_3 => exact h.issue v
  case h_10 => exact h
  all_goals exact h.withRegs id rfl rfl rfl rfl rfl

theorem State.Inv.refuseAccess (h : s.Inv) (a : Access) : (s.refuseAccess a).Inv := by
  have hregs : State.Inv { s with regs := { s.regs with busErr := true } } := h.withRegs id rfl rfl rfl rfl rfl
  cases a <;> exact { hregs with }

theorem HostStep.keepsInv {a : Access} {r : Host.Outcome State Fault Refusal} (hstep : HostStep s a r) (h : s.Inv) :
    KeepsInv r := by
  cases hstep with
  | refused => exact .next (h.refuseAccess a)
  | registerRead => exact .next { h with }
  | registerWrite n v => exact .next (h.writeRegister n v)
  | bufferRead => exact .next { h with }
  | bufferReadStop => exact .unwritten _
  | bufferWrite w v a bytes hidle hfits => exact .next { h with memory := Memory.wf_write h.memory hfits }

theorem whenBusy_keepsInv {f : State → Host.Outcome State Fault Refusal} (h : s.Inv)
    (hf : s.phase = .busy → KeepsInv (f s)) : KeepsInv (whenBusy f s) := by
  cases hphase : s.phase with
  | idle =>
    rw [whenBusy_idle hphase]
    exact .next h
  | busy =>
    rw [whenBusy_busy hphase]
    exact hf hphase

theorem perform_keepsInv (h : s.Inv) (e : Event) : KeepsInv (perform e s) := by
  cases e with
  | host o a => exact (hostAccess_step o a s).keepsInv h
  | system addr a =>
    simp only [perform, systemAccess]
    split
    · exact (hostAccess_step _ a s).keepsInv h
    · exact .next h
  | powerOn => exact .next { reset_inv with }
  | engine => exact whenBusy_keepsInv h fun _ => completionStep_keepsInv h.memory
  | advance => exact whenBusy_keepsInv h (advanceStep_keepsInv h)

/-- Every step keeps the invariant, but where it stops on an unwritten byte. -/
theorem step_keepsInv (h : s.Inv) : KeepsInv (step s) := by
  cases hscript : s.script with
  | nil =>
    rw [step_of_script_nil hscript]
    exact whenBusy_keepsInv h fun _ => completionStep_keepsInv h.memory
  | cons e rest =>
    rw [step_of_script_cons hscript]
    have hrest : State.Inv { s with script := rest } := { h with }
    exact perform_keepsInv hrest e

end Machine

end

end Sys2Proof

namespace Sys2Proof.Proofs

open Sys2Proof Sys2Proof.Machine

/-- Settles O55: every field of the reset state. -/
theorem resetMeetsTheInvariant : Obligations.ResetMeetsTheInvariant := reset_inv

/-- Settles O56, from `step_keepsInv`. -/
theorem everyStepKeepsTheInvariant : Obligations.EveryStepKeepsTheInvariant := by
  intro s t hinv hstep
  have hkeeps := step_keepsInv hinv
  rw [hstep] at hkeeps
  cases hkeeps with
  | next h => exact h

/-- Settles O57, from `step_keepsInv`: the only stop is on an unwritten byte. -/
theorem noAccessFallsOutsideTheBuffer : Obligations.NoAccessFallsOutsideTheBuffer := by
  intro s hinv
  have hkeeps := step_keepsInv hinv
  refine ⟨fun a hstep => ?_, fun r hstep => ?_⟩
  · rw [hstep] at hkeeps
    cases hkeeps
  · rw [hstep] at hkeeps
    cases hkeeps

end Sys2Proof.Proofs

/-! PROOFS of the family other: what a completion step is computed from (R115, R237), what the engine leaves (R211),
several blocks on a platform (R77), and polling (R242). -/

namespace Sys2Proof

open Machine

namespace Machine

variable {s t : State}

/-- The completion step is computed from the latch and BUF: two states that agree on these complete alike or stop alike
(R115, R237). -/
theorem completionStep_congr (hlatch : t.latch = s.latch) (hmem : t.mem = s.mem) :
    (∃ e pos line n p m, completionStep s = .next (s.complete e pos line n p m) ∧
      completionStep t = .next (t.complete e pos line n p m)) ∨
    ∃ f, completionStep s = .fault f ∧ completionStep t = .fault f := by
  cases hcommand : s.latch.command with
  | none =>
    have hcommand' : t.latch.command = none := by rw [hlatch, hcommand]
    refine Or.inl ⟨_, _, _, _, _, _, completionStep_illegal hcommand, ?_⟩
    rw [completionStep_illegal hcommand', State.preFail_eq, hmem]
  | some c =>
    have hcommand' : t.latch.command = some c := by rw [hlatch, hcommand]
    have hbody : c.body t.latch t.sourceByte = c.body s.latch s.sourceByte := by
      rw [hlatch]
      exact body_congr fun k _ => by rw [State.sourceByte, State.sourceByte, hlatch, hmem]
    rw [completionStep_command hcommand, completionStep_command hcommand']
    obtain ⟨e, hpre, hx⟩ | ⟨out, n, hpre, hok, -, hx⟩ | ⟨e, pos, line, hpre, hraise, hx⟩ | ⟨f, hpre, hstop, hx⟩ :=
      exec_command_cases c s <;> rw [hx]
    · refine Or.inl ⟨_, _, _, _, _, _, rfl, ?_⟩
      rw [exec_command, hlatch, hpre]
      simp only [State.preFail_eq, hmem]
    · have hready : Ready c t.latch := by rwa [hlatch, ← precheck_eq_none_iff]
      refine Or.inl ⟨_, _, _, _, _, _, rfl, ?_⟩
      rw [exec_of_body_ok hready (hbody.trans hok), hlatch, hmem]
    · have hready : Ready c t.latch := by rwa [hlatch, ← precheck_eq_none_iff]
      refine Or.inl ⟨_, _, _, _, _, _, rfl, ?_⟩
      rw [exec_of_body_raise hready (hbody.trans hraise), hlatch, hmem]
      rfl
    · have hready : Ready c t.latch := by rwa [hlatch, ← precheck_eq_none_iff]
      exact Or.inr ⟨f, rfl, exec_of_body_stop hready (hbody.trans hstop)⟩

/-! ### What the engine can change (R211) -/

/-- A step of the engine changes BUF and the transient, or completes the command. -/
inductive EngineStep (s : State) : State → Prop where
  | running (m : Memory) (r : Running) : EngineStep s { s with mem := m, run := r }
  | completed (e : ErrCode) (pos line n p : Nat) (m : Memory) : EngineStep s (s.complete e pos line n p m)

theorem completionStep_engineStep (h : completionStep s = .next t) : EngineStep s t := by
  obtain ⟨e, pos, line, n, p, m, rfl⟩ := completionStep_eq_next h
  exact .completed ..

theorem runGroup_engineStep {step : (Nat → Except Fault Byte) → Nat → Decoder → GroupResult}
    (h : runGroup step s = .next t) : EngineStep s t := by
  unfold runGroup at h
  split at h
  · split at h
    · cases h
      exact .running s.mem _
    · cases h
      exact .completed ..
    · cases h
  all_goals cases h

theorem advanceDecoder_engineStep {c : Command} {d : Decoder} (h : advanceDecoder c d s = .next t) :
    EngineStep s t := by
  unfold advanceDecoder at h
  split at h
  · split at h
    · cases h
    · split at h
      · cases h
        exact .running ..
      · cases h
        exact .completed ..
  · split at h
    · cases h
      exact .completed ..
    · split at h
      · cases h
      · rw [runGroup_decodeControl] at h
        exact runGroup_engineStep h

theorem advanceEncoder_engineStep {c : Command} {e : Encoder} (h : advanceEncoder c e s = .next t) :
    EngineStep s t := by
  unfold advanceEncoder at h
  split_ifs at h with hline hpos
  · cases h
    exact .completed ..
  · cases h
    exact .running s.mem _
  · split at h
    · cases h
    · dsimp only at h
      split_ifs at h
      · cases h
        exact .completed ..
      · split at h
        · cases h
        · cases h
          exact .running ..

theorem advanceDitherer_engineStep {d : Ditherer} (h : advanceDitherer d s = .next t) : EngineStep s t := by
  unfold advanceDitherer at h
  split_ifs at h with hy
  · split at h
    · cases h
    · cases h
      exact .completed ..
  · split at h
    · cases h
    · cases h
      exact .running s.mem _

theorem advanceStep_engineStep (h : advanceStep s = .next t) : EngineStep s t := by
  cases hcommand : s.latch.command with
  | none =>
    rw [advanceStep_illegal hcommand] at h
    exact completionStep_engineStep h
  | some c =>
    cases hrun : s.run with
    | fresh =>
      cases hpre : c.precheck s.latch with
      | some e =>
        cases h.symm.trans (advanceStep_precheck hcommand hrun hpre)
        exact .completed ..
      | none =>
        cases h.symm.trans (advanceStep_begin hcommand hrun ((precheck_eq_none_iff c s.latch).1 hpre))
        exact .running s.mem _
    | decoding d => exact advanceDecoder_engineStep ((advanceStep_decoding hcommand hrun).symm.trans h)
    | encoding e => exact advanceEncoder_engineStep ((advanceStep_encoding hcommand hrun).symm.trans h)
    | dithering d => exact advanceDitherer_engineStep ((advanceStep_dithering hcommand hrun).symm.trans h)

/-! ### Several blocks (R77) -/

theorem stepInstance_of_getElem? {p : List State} {i : Nat} (hs : p[i]? = some s) (hstep : step s = .next t) :
    stepInstance p i = .next (p.set i t) := by
  simp only [stepInstance, hs, hstep]

theorem stepInstance_of_none {p : List State} {i : Nat} (hs : p[i]? = none) : stepInstance p i = .next p := by
  simp only [stepInstance, hs]

theorem stepInstance_cases {p q : List State} {i : Nat} (h : stepInstance p i = .next q) :
    (p[i]? = none ∧ q = p) ∨ ∃ s t, p[i]? = some s ∧ step s = .next t ∧ q = p.set i t := by
  cases hs : p[i]? with
  | none =>
    cases h.symm.trans (stepInstance_of_none hs)
    exact Or.inl ⟨rfl, rfl⟩
  | some s =>
    cases hstep : step s with
    | next t =>
      cases h.symm.trans (stepInstance_of_getElem? hs hstep)
      exact Or.inr ⟨s, t, rfl, hstep, rfl⟩
    | fault f => simp [stepInstance, hs, hstep] at h
    | refused r => simp [stepInstance, hs, hstep] at h

/-! ### Polling (R242) -/

/-- A host that reads while a command runs is answered, and the command is not touched. -/
theorem read_while_busy (o : HostOffset) (w : Width) (hbusy : s.phase = .busy) :
    ∃ t, hostAccess o (.read w) s = .next t ∧ t.phase = .busy ∧ t.latch = s.latch ∧ t.mem = s.mem ∧
      t.script = s.script := by
  have hstep := hostAccess_step o (.read w) s
  cases hr : hostAccess o (.read w) s with
  | next t =>
    rw [hr] at hstep
    have ht := hstep.read
    rw [ht]
    exact ⟨_, rfl, hbusy, rfl, rfl, rfl⟩
  | fault f =>
    rw [hr] at hstep
    cases hstep with
    | bufferReadStop _ _ hidle => cases hbusy.symm.trans hidle
  | refused r =>
    rw [hr] at hstep
    cases hstep

theorem core_run_succ (k : Nat) (h : step s = .next t) : Host.Core.run core (k + 1) s = Host.Core.run core k t := by
  have hstep : core.step s = .next t := h
  simp only [Host.Core.run, hstep]

/-- After the reads of a script that holds no more, the command still runs, untouched. -/
theorem run_reads {script : List Event} (hreads : ∀ e ∈ script, ∃ o w, e = Event.host o (.read w))
    (hscript : s.script = script) (hbusy : s.phase = .busy) :
    ∃ t : State, t.phase = .busy ∧ t.script = [] ∧ t.latch = s.latch ∧ t.mem = s.mem ∧
      ∀ k, Host.Core.run core (script.length + k) s = Host.Core.run core k t := by
  induction script generalizing s with
  | nil => exact ⟨s, hbusy, hscript, rfl, rfl, fun k => by rw [List.length_nil, Nat.zero_add]⟩
  | cons e script ih =>
    obtain ⟨⟨o, w, rfl⟩, hrest⟩ := List.forall_mem_cons.1 hreads
    obtain ⟨s', hanswer, hbusy', hlatch', hmem', hscript'⟩ :=
      read_while_busy (s := { s with script := script }) o w hbusy
    obtain ⟨t, hbusyt, hscriptt, hlatcht, hmemt, hrun⟩ := ih hrest hscript' hbusy'
    refine ⟨t, hbusyt, hscriptt, hlatcht.trans hlatch', hmemt.trans hmem', fun k => ?_⟩
    rw [List.length_cons, Nat.add_right_comm, core_run_succ _ ((step_of_script_cons hscript).trans hanswer), hrun]

end Machine

end Sys2Proof

namespace Sys2Proof.Proofs

open Sys2Proof Sys2Proof.Machine

/-- Settles O15: the write changes a register that the completion step does not look at. -/
theorem runningCommandIgnoresOperandWrites : Obligations.RunningCommandIgnoresOperandWrites := by
  intro s t u o v _ ho hwrite hcompletion
  obtain ⟨hlatch, hmem⟩ : t.latch = s.latch ∧ t.mem = s.mem := by
    simp only [List.mem_cons, List.not_mem_nil, or_false] at ho
    obtain rfl | rfl | rfl | rfl | rfl | rfl := ho <;>
      · obtain rfl := hostAccess_registerWrite_eq_next (by decide) (by decide) hwrite
        exact ⟨rfl, rfl⟩
  obtain ⟨e, pos, line, n, p, m, hs, ht⟩ | ⟨f, hs, -⟩ := completionStep_congr hlatch hmem
  · cases hcompletion.symm.trans hs
    exact ⟨hlatch, _, ht, rfl, rfl, rfl, rfl, rfl, rfl⟩
  · cases hcompletion.symm.trans hs

/-- Settles O49: the steps set different places of the list. -/
theorem instancesAreIndependent : Obligations.InstancesAreIndependent := by
  intro p q r i j hij hi hj
  have hother : q[j]? = p[j]? := by
    obtain ⟨-, rfl⟩ | ⟨s, t, -, -, rfl⟩ := stepInstance_cases hi
    · rfl
    · exact List.getElem?_set_ne hij
  refine ⟨hother, ?_⟩
  obtain ⟨hj, rfl⟩ | ⟨s', t', hs', hstep', rfl⟩ := stepInstance_cases hj
  · exact ⟨p, stepInstance_of_none (hother.symm.trans hj), hi⟩
  · refine ⟨p.set j t', stepInstance_of_getElem? (hother.symm.trans hs') hstep', ?_⟩
    have hback : (p.set j t')[i]? = p[i]? := List.getElem?_set_ne hij.symm
    obtain ⟨hs, rfl⟩ | ⟨s, t, hs, hstep, rfl⟩ := stepInstance_cases hi
    · exact stepInstance_of_none (hback.trans hs)
    · rw [stepInstance_of_getElem? (hback.trans hs) hstep, List.set_comm _ _ hij.symm]

/-- Settles O58: neither kind of engine step touches these fields. -/
theorem engineLeavesHostFlagsAlone : Obligations.EngineLeavesHostFlagsAlone := by
  intro s t hstep
  have hengine : EngineStep s t := hstep.elim completionStep_engineStep advanceStep_engineStep
  cases hengine <;> exact ⟨rfl, rfl, rfl, rfl, rfl, rfl, rfl, rfl, rfl, rfl, rfl, rfl⟩

/-- Settles O59: the reads leave the command as it is, and then it is the engine's turn. -/
theorem pollingEndsWithTheCompletion : Obligations.PollingEndsWithTheCompletion := by
  intro s hbusy hreads
  obtain ⟨t, hbusyt, hscriptt, hlatch, hmem, hrun⟩ := run_reads hreads rfl hbusy
  refine ⟨⟨t, hrun 0, hbusyt, hscriptt⟩, ?_⟩
  have hturn : step t = completionStep t := (step_of_script_nil hscriptt).trans (whenBusy_busy hbusyt)
  obtain ⟨e, pos, line, n, p, m, -, ht⟩ | ⟨f, hs, -⟩ := completionStep_congr hlatch hmem
  · exact Or.inl ⟨_, (hrun 1).trans (core_run_succ 0 (hturn.trans ht)), rfl, rfl⟩
  · exact Or.inr ⟨f, hs⟩

end Sys2Proof.Proofs

/-! PROOFS of the family other: the internal steps against the one completion step (R115, R38, R39, R43; log 2). A
running command is known by two things: the bytes it has written, and what its transient still has to give. -/

namespace Sys2Proof

open Machine

namespace Machine

/-! ### The internal steps one after another (log 2) -/

section

variable {s t : State}

theorem advanceTimes_idle (hidle : s.phase = .idle) (k : Nat) : advanceTimes k s = .next s := by
  cases k with
  | zero => rfl
  | succ k => rw [advanceTimes, hidle]

theorem advanceTimes_next (hbusy : s.phase = .busy) (h : advanceStep s = .next t) (k : Nat) :
    advanceTimes (k + 1) s = advanceTimes k t := by
  simp only [advanceTimes, hbusy, h]

theorem advanceTimes_fault {f : Fault} (hbusy : s.phase = .busy) (h : advanceStep s = .fault f) (k : Nat) :
    advanceTimes (k + 1) s = .fault f := by
  simp only [advanceTimes, hbusy, h]

end

/-! ### Memory in canonical form (R42) -/

theorem Memory.lookup_eq_none_of_lt {a : Nat} {m : Memory} (h : ∀ c ∈ m, a < c.1) : m.lookup a = none := by
  induction m with
  | nil => rfl
  | cons c m ih =>
    obtain ⟨hc, hm⟩ := List.forall_mem_cons.1 h
    rw [Memory.lookup, lookup_cons_if, if_neg hc.ne]
    exact ih hm

/-- Two memories in canonical form that answer every lookup alike are equal. -/
theorem Memory.ext_of_wf {m m' : Memory} (h : m.wf) (h' : m'.wf) (heq : ∀ k, m.lookup k = m'.lookup k) : m = m' := by
  obtain ⟨hrising, -⟩ := h
  obtain ⟨hrising', -⟩ := h'
  induction m generalizing m' with
  | nil =>
    match m' with
    | [] => rfl
    | (a, b) :: m' => simpa [Memory.lookup] using heq a
  | cons c m ih =>
    obtain ⟨a, b⟩ := c
    match m' with
    | [] => simpa [Memory.lookup] using heq a
    | (a', b') :: m' =>
      obtain ⟨habove, htail⟩ := List.pairwise_cons.1 hrising
      obtain ⟨habove', htail'⟩ := List.pairwise_cons.1 hrising'
      have hlookup (k : Nat) :
          (if k = a then some b else m.lookup k) = if k = a' then some b' else m'.lookup k := by
        simpa only [Memory.lookup, lookup_cons_if] using heq k
      have hfirst : a = a' := by
        obtain hlt | heq | hlt := Nat.lt_trichotomy a a'
        · have hnone : m'.lookup a = none := Memory.lookup_eq_none_of_lt fun c hc => hlt.trans (habove' c hc)
          simpa [hlt.ne, hnone] using hlookup a
        · exact heq
        · have hnone : m.lookup a' = none := Memory.lookup_eq_none_of_lt fun c hc => hlt.trans (habove c hc)
          simpa [hlt.ne, hnone] using hlookup a'
      subst hfirst
      have hbyte : b = b' := by simpa using hlookup a
      subst hbyte
      congr 1
      refine ih (fun k => ?_) htail htail'
      by_cases hk : k = a
      · subst hk
        rw [Memory.lookup_eq_none_of_lt habove, Memory.lookup_eq_none_of_lt habove']
      · have hother := hlookup k
        rwa [if_neg hk, if_neg hk] at hother

theorem Memory.write_nil {m : Memory} (h : m.wf) {a : Nat} (ha : a ≤ Config.bufBytes) : m.write a [] = m := by
  refine Memory.ext_of_wf (Memory.wf_write h ha) h fun k => ?_
  rw [Memory.lookup_write, if_neg (by rw [List.length_nil]; omega)]

/-- Where a region is forgotten, what was written in it before does not matter. -/
theorem Memory.forget_write {m : Memory} (h : m.wf) {a n : Nat} {bytes : List Byte} (hlen : bytes.length ≤ n)
    (hfits : a + bytes.length ≤ Config.bufBytes) : (m.write a bytes).forget a n = m.forget a n := by
  refine Memory.ext_of_wf (Memory.wf_forget (Memory.wf_write h hfits) _ _) (Memory.wf_forget h _ _) fun k => ?_
  rw [Memory.lookup_forget, Memory.lookup_forget, Memory.lookup_write]
  by_cases hin : a ≤ k ∧ k < a + n
  · rw [if_pos hin, if_pos hin]
  · rw [if_neg hin, if_neg hin, if_neg (by omega)]

section

variable {rd : Nat → Except Fault Byte}

/-! ### What is left of a decode (R155, R165) -/

/-- One unit of fuel more than the stream has bytes left changes nothing (log 18). -/
theorem decodeLine_fuel {len fuel : Nat} {d : Decoder} (hout : d.out.length ≤ Config.N) (hfuel : len - d.cur < fuel) :
    decodeLine rd len (fuel + 1) d = decodeLine rd len fuel d := by
  induction fuel generalizing d with
  | zero => omega
  | succ fuel ih =>
    obtain hfull | hout' := hout.eq_or_lt
    · rw [decodeLine_done hfull.ge, decodeLine_done hfull.ge]
    · obtain hcur | hcur := Nat.lt_or_ge d.cur len
      · cases hread : rd d.cur with
        | error f => rw [decodeLine_unreadable hout' hcur hread, decodeLine_unreadable hout' hcur hread]
        | ok b =>
          obtain ⟨d', hgroup, hmoves, -, hout'', -⟩ | hgroup | hgroup | ⟨f, hgroup⟩ :=
            groupStep_cases (rd := rd) (c := b) hcur hout
          · rw [decodeLine_ok_group hout' hcur hread hgroup, decodeLine_ok_group hout' hcur hread hgroup,
              ih hout'' (by omega)]
          · rw [decodeLine_err_group hout' hcur hread hgroup, decodeLine_err_group hout' hcur hread hgroup]
          · rw [decodeLine_err_group hout' hcur hread hgroup, decodeLine_err_group hout' hcur hread hgroup]
          · rw [decodeLine_stop_group hout' hcur hread hgroup, decodeLine_stop_group hout' hcur hread hgroup]
      · rw [decodeLine_exhausted hout' hcur, decodeLine_exhausted hout' hcur]

/-- What a decode of `lines` scanlines still has to give: the rest of its scanline, and the scanlines after it. -/
def decodeRest (rd : Nat → Except Fault Byte) (len lines : Nat) (d : Decoder) : CmdResult :=
  match decodeLine rd len (len + 1) d with
  | .ok d' => (decodeRows rd len (lines - (d.line + 1)) (d.line + 1) d'.cur).after d'.out
  | .err e pos => .raise e pos d.line
  | .stop f => .stop f

section

variable {len lines : Nat} {d : Decoder}

theorem decodeRest_ok {d' : Decoder} (hline : decodeLine rd len (len + 1) d = .ok d') :
    decodeRest rd len lines d = (decodeRows rd len (lines - (d.line + 1)) (d.line + 1) d'.cur).after d'.out := by
  rw [decodeRest, hline]

theorem decodeRest_err {e : ErrCode} {pos : Nat} (hline : decodeLine rd len (len + 1) d = .err e pos) :
    decodeRest rd len lines d = .raise e pos d.line := by
  rw [decodeRest, hline]

theorem decodeRest_stop {f : Fault} (hline : decodeLine rd len (len + 1) d = .stop f) :
    decodeRest rd len lines d = .stop f := by
  rw [decodeRest, hline]

/-- The scanlines from one on are what is left at its beginning. -/
theorem decodeRows_eq_decodeRest {y cur : Nat} (hy : y < lines) :
    decodeRows rd len (lines - y) y cur = decodeRest rd len lines { cur := cur, out := [], line := y } := by
  rw [show lines - y = lines - (y + 1) + 1 by omega]
  cases hline : decodeLine rd len (len + 1) { cur := cur, out := [], line := y } with
  | ok d => rw [decodeRows_succ hline, decodeRest_ok hline]
  | err e pos => rw [decodeRows_err hline, decodeRest_err hline]
  | stop f => rw [decodeRows_stop hline, decodeRest_stop hline]

/-- A group that succeeds leaves what is left after it. -/
theorem decodeRest_group {d' : Decoder} {b : Byte} (hout : d.out.length < Config.N) (hcur : d.cur < len)
    (hread : rd d.cur = .ok b) (hgroup : groupStep rd len b d = .ok d') (hmoves : d.cur < d'.cur)
    (hout' : d'.out.length ≤ Config.N) (hline : d'.line = d.line) :
    decodeRest rd len lines d = decodeRest rd len lines d' := by
  have hnext : decodeLine rd len (len + 1) d = decodeLine rd len (len + 1) d' := by
    rw [decodeLine_ok_group hout hcur hread hgroup, decodeLine_fuel hout' (by omega)]
  rw [decodeRest, decodeRest, hnext, hline]

end

/-! ### What is left of an encode (R130, R131) -/

/-- Fuel for every byte is enough, and more changes nothing (log 18). -/
theorem encodeFrom_fuel {fuel fuel' k : Nat} {s : List Byte} (h : s.length ≤ fuel) (h' : s.length ≤ fuel') :
    encodeFrom fuel k s = encodeFrom fuel' k s := by
  induction fuel generalizing fuel' k s with
  | zero =>
    obtain rfl := List.length_eq_zero_iff.1 (Nat.le_zero.1 h)
    cases fuel' <;> rfl
  | succ fuel ih =>
    match s, fuel' with
    | [], 0 => rfl
    | [], _ + 1 => rfl
    | b :: s, fuel' + 1 =>
      rw [encodeFrom, encodeFrom]
      simp only [ih (length_drop_nextGroup_le h) (length_drop_nextGroup_le h')]

/-- The groups of a row from a position on. -/
def groupsFrom (row : List Byte) (pos : Nat) : List (Nat × Group) :=
  encodeFrom (row.drop pos).length pos (row.drop pos)

theorem groupsFrom_zero (row : List Byte) : groupsFrom row 0 = encodeGroups row := rfl

theorem groupsFrom_end {row : List Byte} {pos : Nat} (h : row.length ≤ pos) : groupsFrom row pos = [] := by
  rw [groupsFrom, List.drop_eq_nil_of_le h]
  rfl

theorem groupsFrom_cons {row : List Byte} {pos : Nat} (h : pos < row.length) :
    groupsFrom row pos =
      (pos, (nextGroup (row.drop pos)).1) :: groupsFrom row (pos + (nextGroup (row.drop pos)).2) := by
  obtain ⟨b, rest, hrest⟩ := List.exists_cons_of_length_pos (l := row.drop pos) (by rw [List.length_drop]; omega)
  have hdrop := length_drop_nextGroup_le (fuel := rest.length) (b := b) (s := rest) (Nat.le_refl _)
  rw [groupsFrom, groupsFrom, ← List.drop_drop, hrest, List.length_cons, encodeFrom,
    encodeFrom_fuel hdrop (Nat.le_refl _)]

theorem emitGroups_cons_overflow {cap p k : Nat} {g : Group} {gs : List (Nat × Group)}
    (h : cap < p + (encodeGroup g).length) : emitGroups cap p ((k, g) :: gs) = .error k := by
  rw [emitGroups, if_pos h]

/-- What an encode of `lines` rows still has to give in a row already read: the groups from its position on, and the
rows after it. -/
def encodeRowRest (rd : Nat → Except Fault Byte) (cap lines : Nat) (row : List Byte) (e : Encoder) : CmdResult :=
  match emitGroups cap e.written (groupsFrom row e.pos) with
  | .ok bs => (encodeRows rd cap (lines * 72) (lines - (e.line + 1)) (e.line + 1) (e.written + bs.length)).after bs
  | .error k => .raise .dstOverflow (e.line * 72 + k) e.line

/-- What an encode of `lines` rows still has to give: nothing after the last; at the end of a row the rows after it;
else the rest of its row too. -/
def encodeRest (rd : Nat → Except Fault Byte) (cap lines : Nat) (e : Encoder) : CmdResult :=
  if lines ≤ e.line then .ok [] (lines * 72)
  else if 72 ≤ e.pos then encodeRows rd cap (lines * 72) (lines - (e.line + 1)) (e.line + 1) e.written
  else
    match readBytes rd (e.line * 72) 72 with
    | .ok row => encodeRowRest rd cap lines row e
    | .error f => .stop f

/-- The encoder after the group at its position in a row. -/
def Encoder.afterGroup (e : Encoder) (row : List Byte) : Encoder :=
  { e with
    pos := e.pos + (nextGroup (row.drop e.pos)).2
    written := e.written + (encodeGroup (nextGroup (row.drop e.pos)).1).length }

section

variable {cap lines : Nat} {e : Encoder}

theorem encodeRest_done (hline : lines ≤ e.line) : encodeRest rd cap lines e = .ok [] (lines * 72) := by
  rw [encodeRest, if_pos hline]

variable (hline : e.line < lines)

include hline

theorem encodeRest_row_end (hpos : 72 ≤ e.pos) :
    encodeRest rd cap lines e =
      encodeRows rd cap (lines * 72) (lines - (e.line + 1)) (e.line + 1) e.written := by
  rw [encodeRest, if_neg (Nat.not_le.2 hline), if_pos hpos]

theorem encodeRest_unreadable (hpos : e.pos < 72) {f : Fault} (hread : readBytes rd (e.line * 72) 72 = .error f) :
    encodeRest rd cap lines e = .stop f := by
  rw [encodeRest, if_neg (Nat.not_le.2 hline), if_neg (Nat.not_le.2 hpos), hread]

variable {row : List Byte} (hread : readBytes rd (e.line * 72) 72 = .ok row)

include hread

/-- In a readable row what is left is what is left of the row, at its end too. -/
theorem encodeRest_row (hpos : e.pos ≤ 72) : encodeRest rd cap lines e = encodeRowRest rd cap lines row e := by
  obtain hend | hpos := hpos.eq_or_lt
  · rw [encodeRest_row_end hline hend.ge, encodeRowRest, groupsFrom_end ((readBytes_length hread).trans_le hend.ge)]
    simp [emitGroups]
  · rw [encodeRest, if_neg (Nat.not_le.2 hline), if_neg (Nat.not_le.2 hpos), hread]

theorem encodeRest_overflow (hpos : e.pos < 72)
    (hover : cap < e.written + (encodeGroup (nextGroup (row.drop e.pos)).1).length) :
    encodeRest rd cap lines e = .raise .dstOverflow (e.line * 72 + e.pos) e.line := by
  rw [encodeRest_row hline hread hpos.le, encodeRowRest,
    groupsFrom_cons (hpos.trans_eq (readBytes_length hread).symm), emitGroups_cons_overflow hover]

/-- A group that fits comes before what is left after it. -/
theorem encodeRest_group (hpos : e.pos < 72)
    (hroom : e.written + (encodeGroup (nextGroup (row.drop e.pos)).1).length ≤ cap)
    (hpos' : e.pos + (nextGroup (row.drop e.pos)).2 ≤ 72) :
    encodeRest rd cap lines e =
      (encodeRest rd cap lines (e.afterGroup row)).after (encodeGroup (nextGroup (row.drop e.pos)).1) := by
  rw [encodeRest_row hline hread hpos.le, encodeRest_row (e := e.afterGroup row) hline hread hpos', encodeRowRest,
    encodeRowRest, groupsFrom_cons (hpos.trans_eq (readBytes_length hread).symm), emitGroups,
    if_neg (Nat.not_lt.2 hroom), Encoder.afterGroup]
  cases emitGroups cap (e.written + (encodeGroup (nextGroup (row.drop e.pos)).1).length)
      (groupsFrom row (e.pos + (nextGroup (row.drop e.pos)).2)) with
  | error k => rfl
  | ok bs => simp only [CmdResult.after_after, List.length_append, Nat.add_assoc]

end

/-- The rows from one on are what is left at its beginning. -/
theorem encodeRows_eq_encodeRest (cap : Nat) {lines y p : Nat} (hy : y ≤ lines) :
    encodeRows rd cap (lines * 72) (lines - y) y p = encodeRest rd cap lines { line := y, pos := 0, written := p } := by
  obtain rfl | hy := hy.eq_or_lt
  · rw [Nat.sub_self, encodeRest_done (Nat.le_refl y), encodeRows]
  · have hy' : ({ line := y, pos := 0, written := p } : Encoder).line < lines := hy
    rw [show lines - y = lines - (y + 1) + 1 by omega]
    cases hread : readBytes rd (y * 72) 72 with
    | error f => rw [encodeRows_unreadable hread, encodeRest_unreadable hy' (Nat.zero_lt_succ 71) hread]
    | ok row =>
      rw [encodeRest_row hy' hread (Nat.zero_le _), encodeRowRest, groupsFrom_zero]
      cases hemit : emitGroups cap p (encodeGroups row) with
      | error k => rw [encodeRows_overflow hread hemit]
      | ok bs => rw [encodeRows_succ hread hemit]

/-! ### What is left of a dither (R180, R181) -/

theorem ditherRest_done {r : Config.DivRound} {d : Ditherer} (hy : d.y = 720) (hx : d.x = 0) :
    ditherRest r rd d = .ok (packBitmap Config.W Config.H d.bits) Config.gridBytes := by
  have hread : readBytes rd (d.y * Config.W + d.x) (Config.gridBytes - (d.y * Config.W + d.x)) = .ok [] := by
    rw [hy, hx]
    rfl
  rw [ditherRest_ok hread, ditherPixels_nil]

section

variable {r : Config.DivRound} {d : Ditherer} (hposition : d.y * 576 + d.x < 414720)

include hposition

theorem pixels_left :
    Config.gridBytes - (d.y * Config.W + d.x) = Config.gridBytes - (d.y * Config.W + d.x + 1) + 1 := by
  simp only [Config.gridBytes, Config.W]
  omega

theorem ditherRest_stop {f : Fault} (hread : rd (d.y * Config.W + d.x) = .error f) : ditherRest r rd d = .stop f := by
  refine ditherRest_unreadable ?_
  rw [pixels_left hposition, readBytes, hread]

/-- A pixel leaves the pixels after it. -/
theorem ditherRest_pixel {g : Byte} (hx : d.x < Config.W) (hread : rd (d.y * Config.W + d.x) = .ok g) :
    ditherRest r rd d = ditherRest r rd (ditherPixel r Config.W Config.H g d) := by
  obtain ⟨-, hnext⟩ := ditherPixel_position r Config.H g hx
  rw [ditherRest, ditherRest, hnext, pixels_left hposition, readBytes, hread]
  cases readBytes rd (d.y * Config.W + d.x + 1) (Config.gridBytes - (d.y * Config.W + d.x + 1)) <;> rfl

end

end

end Machine

/-! ### A running command and the one completion step (R115) -/

/-- What the command still has to give. -/
def Machine.Running.rest (c : Command) (l : Latch) (rd : Nat → Except Fault Byte) : Running → CmdResult
  | .fresh => c.body l rd
  | .decoding d => decodeRest rd l.srcLen.toNat c.lines d
  | .encoding e => encodeRest rd l.dstLen.toNat c.lines e
  | .dithering d => ditherRest Config.divRound rd d

/-- How many bytes the internal steps have written. -/
def Machine.Running.written : Running → Nat
  | .fresh => 0
  | .decoding d => d.line * 72
  | .encoding e => e.written
  | .dithering _ => 0

/-- A bound of the internal steps that are left. -/
def Machine.Running.stepsLeft (l : Latch) : Running → Nat
  | .fresh => 2 ^ 22
  | .decoding d => (720 - d.line) + (l.srcLen.toNat - d.cur)
  | .encoding e => (720 - e.line) * 73 + (72 - e.pos)
  | .dithering d => 414720 - (d.y * 576 + d.x)

/-- `s` with the bytes written so far in its destination region, and the transient given. -/
def Machine.State.underway (s : State) (bytes : List Byte) (r : Running) : State :=
  { s with mem := s.mem.write s.latch.dst.toNat bytes, run := r }

/-- The command of `s` has written `bytes` and has still to give what `r` has: together its result. -/
structure Underway (c : Command) (s : State) (bytes : List Byte) (r : Running) : Prop where
  command : s.latch.command = some c
  ready : Ready c s.latch
  valid : r.valid s.latch
  length : bytes.length = r.written
  result : c.body s.latch s.sourceByte = (r.rest c s.latch s.sourceByte).after bytes

/-- The states that the internal steps lead to from an accepted command. -/
inductive Follows (s : State) : State → Prop where
  | start : Follows s s
  | underway {c : Command} {bytes : List Byte} {r : Running} (h : Underway c s bytes r) : Follows s (s.underway bytes r)

/-- What an internal step from a state that follows `s` leads to: another such state with fewer steps left, or what the
completion step of `s` gives. -/
inductive Progress (s : State) (steps : Nat) : Host.Outcome State Fault Refusal → Prop where
  | goes {t : State} (hfollows : Follows s t) (hless : t.run.stepsLeft s.latch < steps) :
      Progress s steps (.next t)
  | completes {t : State} (h : completionStep s = .next t) (hidle : t.phase = .idle) : Progress s steps (.next t)
  | stops {f : Fault} (h : completionStep s = .fault f) : Progress s steps (.fault f)

section

variable {c : Command} {s : State} {bytes : List Byte} {r : Running}

/-- Further bytes right after those written so far. -/
theorem underway_write {n : Nat} (hlength : bytes.length = n) (more : List Byte) (r r' : Running) :
    { s.underway bytes r with
      mem := (s.underway bytes r).mem.write (s.latch.dst.toNat + n) more, run := r' } =
      s.underway (bytes ++ more) r' := by
  subst hlength
  simp only [State.underway, Memory.write_write_append]

namespace Underway

variable (h : Underway c s bytes r)

include h

theorem written_le : bytes.length ≤ c.outLen s.latch := by
  rw [h.length]
  have hvalid := h.valid
  cases r with
  | fresh => exact Nat.zero_le _
  | decoding d =>
    obtain ⟨-, hc, hline, -, -⟩ := (valid_decoding_iff h.command).1 hvalid
    rw [outLen_decode hc]
    exact Nat.mul_le_mul_right 72 hline.le
  | encoding e =>
    obtain ⟨-, hc, -, -, hwritten⟩ := (valid_encoding_iff h.command).1 hvalid
    rw [outLen_encode hc]
    exact hwritten
  | dithering d => exact Nat.zero_le _

/-- The bytes written so far lie outside the source region (R119). -/
theorem sourceByte_eq {k : Nat} (hk : k < c.inLen s.latch) : (s.underway bytes r).sourceByte k = s.sourceByte k := by
  have hwritten := h.written_le
  obtain ⟨-, -, -, hapart⟩ := h.ready
  refine Memory.readByte_congr ?_
  simp only [State.underway]
  rw [Memory.lookup_write, if_neg (by omega)]

/-- The bytes written so far lie inside the destination region (R121). -/
theorem forget_mem (hmem : s.mem.wf) :
    (s.underway bytes r).mem.forget s.latch.dst.toNat (c.outLen s.latch) =
      s.mem.forget s.latch.dst.toNat (c.outLen s.latch) := by
  have hregion := ready_destination_le h.ready
  have hwritten := h.written_le
  exact Memory.forget_write hmem hwritten (by simp only [Config.bufBytes]; omega)

/-- In a state underway the completion step begins anew and gives what it gives from the accepted command. -/
theorem completionStep_eq (hmem : s.mem.wf) : completionStep (s.underway bytes r) = completionStep s := by
  have hbody : c.body s.latch (s.underway bytes r).sourceByte = c.body s.latch s.sourceByte :=
    body_congr fun k => h.sourceByte_eq
  have hready : Ready c (s.underway bytes r).latch := h.ready
  rw [completionStep_command h.command, completionStep_command (s := s.underway bytes r) h.command]
  cases hresult : c.body s.latch s.sourceByte with
  | ok out n =>
    have hlonger : bytes.length ≤ out.length := by
      have hsplit := h.result
      rw [hresult] at hsplit
      cases hrest : r.rest c s.latch s.sourceByte with
      | ok out' n' =>
        rw [hrest, CmdResult.after_ok] at hsplit
        cases hsplit
        rw [List.length_append]
        omega
      | raise e pos line => simp [hrest] at hsplit
      | stop f => simp [hrest] at hsplit
    rw [exec_of_body_ok h.ready hresult, exec_of_body_ok hready (hbody.trans hresult)]
    simp only [State.underway, Memory.write_write_over _ _ _ _ hlonger]
    rfl
  | raise e pos line =>
    rw [exec_of_body_raise h.ready hresult, exec_of_body_raise hready (hbody.trans hresult), ← h.forget_mem hmem]
    rfl
  | stop f => rw [exec_of_body_stop h.ready hresult, exec_of_body_stop hready (hbody.trans hresult)]

theorem completes {out : List Byte} {n : Nat} (hrest : r.rest c s.latch s.sourceByte = .ok out n) :
    completionStep s = .next (s.complete .noError 0 0 n (bytes ++ out).length
      (s.mem.write s.latch.dst.toNat (bytes ++ out))) := by
  rw [completionStep_command h.command, exec_of_body_ok h.ready (by rw [h.result, hrest, CmdResult.after_ok])]

theorem fails (hmem : s.mem.wf) {e : ErrCode} {pos line : Nat} {steps : Nat}
    (hrest : r.rest c s.latch s.sourceByte = .raise e pos line) :
    Progress s steps (.next ((s.underway bytes r).runFail s.latch.destination e pos line)) := by
  refine .completes ?_ rfl
  rw [completionStep_command h.command, exec_of_body_raise h.ready (by rw [h.result, hrest, CmdResult.after_raise]),
    Latch.destination_eq h.command, ← h.forget_mem hmem]
  rfl

theorem stops {f : Fault} {steps : Nat} (hrest : r.rest c s.latch s.sourceByte = .stop f) :
    Progress s steps (.fault f) := by
  refine .stops ?_
  rw [completionStep_command h.command, exec_of_body_stop h.ready (by rw [h.result, hrest, CmdResult.after_stop])]

/-- Going on after further bytes. -/
theorem next {more : List Byte} {r' : Running} (hvalid : r'.valid s.latch)
    (hlength : (bytes ++ more).length = r'.written)
    (hrest : r.rest c s.latch s.sourceByte = (r'.rest c s.latch s.sourceByte).after more) :
    Underway c s (bytes ++ more) r' where
  command := h.command
  ready := h.ready
  valid := hvalid
  length := hlength
  result := by rw [h.result, hrest, CmdResult.after_after]

/-- Going on with no further byte. -/
theorem next_same {r' : Running} (hvalid : r'.valid s.latch) (hlength : r.written = r'.written)
    (hrest : r.rest c s.latch s.sourceByte = r'.rest c s.latch s.sourceByte) : Underway c s bytes r' where
  command := h.command
  ready := h.ready
  valid := hvalid
  length := h.length.trans hlength
  result := by rw [h.result, hrest]

end Underway

/-! ### Each internal step makes progress -/

theorem ditherer_progress {d : Ditherer} (h : Underway c s bytes (.dithering d))
    {o : Host.Outcome State Fault Refusal} (hstep : DithererStep d (s.underway bytes (.dithering d)) o) :
    Progress s ((Running.dithering d).stepsLeft s.latch) o := by
  obtain ⟨hcommand, -, -, -, hx, -⟩ := valid_dithering_iff.1 h.valid
  obtain rfl : c = .dith := Option.some.inj (h.command.symm.trans hcommand)
  have hnil : bytes = [] := List.length_eq_zero_iff.1 h.length
  have hsource : ∀ k, k < 414720 → (s.underway bytes (.dithering d)).sourceByte k = s.sourceByte k := fun k =>
    h.sourceByte_eq
  have hposition : d.y < 720 → d.y * 576 + d.x < 414720 := fun hy => cellIndex_lt (w := 576) (h := 720) hx hy
  cases hstep with
  | done hy hx =>
    have hlen : (packBitmap Config.W Config.H d.bits).length = Config.frameBytes := packBitmap_length ..
    refine .completes ?_ rfl
    rw [h.completes (ditherRest_done hy hx), hnil, List.nil_append, hlen]
    simp only [State.underway, Memory.write_write_over _ _ [] _ (Nat.zero_le _)]
    rfl
  | unreadable hy hread =>
    exact h.stops (ditherRest_stop (hposition hy) ((hsource _ (hposition hy)).symm.trans hread))
  | @pixel g hy hread =>
    have hnext := h.next_same (ditherPixel_valid h.valid hy _) rfl
      (ditherRest_pixel (hposition hy) hx ((hsource _ (hposition hy)).symm.trans hread))
    refine .goes (.underway hnext) ?_
    have hmove : (ditherPixel Config.divRound Config.W Config.H g d).y * 576 +
        (ditherPixel Config.divRound Config.W Config.H g d).x = d.y * 576 + d.x + 1 :=
      (ditherPixel_position Config.divRound Config.H g hx).2
    have hless := hposition hy
    simp only [Running.stepsLeft]
    omega

section

variable (hmem : s.mem.wf)

include hmem

theorem decoder_progress {d : Decoder} (h : Underway c s bytes (.decoding d)) {o : Host.Outcome State Fault Refusal}
    (hstep : DecoderStep c d (s.underway bytes (.decoding d)) o) :
    Progress s ((Running.decoding d).stepsLeft s.latch) o := by
  obtain ⟨-, hc, hline, hcur, hout⟩ := (valid_decoding_iff h.command).1 h.valid
  have hlines := lines_le c
  have hlength : bytes.length = d.line * 72 := h.length
  have hsource : ∀ k, k < s.latch.srcLen.toNat →
      (s.underway bytes (.decoding d)).sourceByte k = s.sourceByte k := fun k hk =>
    h.sourceByte_eq (by rwa [inLen_decode hc])
  cases hstep with
  | line hfull hmore =>
    have hnext : Underway c s (bytes ++ d.out) (.decoding { cur := d.cur, out := [], line := d.line + 1 }) := by
      refine h.next ((valid_decoding_iff h.command).2 ⟨h.ready, hc, hmore, hcur, Nat.zero_le _⟩) ?_ ?_
      · simp only [Running.written, List.length_append, hlength, hfull]
        omega
      · simp only [Running.rest]
        rw [decodeRest_ok (decodeLine_done hfull.ge), decodeRows_eq_decodeRest hmore]
    refine .goes (underway_write hlength d.out _ _ ▸ .underway hnext) ?_
    simp only [Running.stepsLeft]
    omega
  | last hfull hlast =>
    have hrest : (Running.decoding d).rest c s.latch s.sourceByte = .ok d.out d.cur := by
      simp only [Running.rest]
      rw [decodeRest_ok (decodeLine_done hfull.ge), show c.lines - (d.line + 1) = 0 by omega, decodeRows,
        CmdResult.after_ok, List.append_nil]
    refine .completes ?_ rfl
    rw [h.completes hrest, show (bytes ++ d.out).length = c.lines * 72 by rw [List.length_append]; omega,
      ← Memory.write_write_append, hlength]
    rfl
  | exhausted hroom hend =>
    exact h.fails hmem (decodeRest_err (decodeLine_exhausted hroom hend.ge))
  | unreadable hroom hcur hread =>
    exact h.stops (decodeRest_stop (decodeLine_unreadable hroom hcur ((hsource _ hcur).symm.trans hread)))
  | group hroom hcur hread hgroup hmoves hcur' hout' hline' =>
    replace hgroup := (groupStep_congr hsource).symm.trans hgroup
    have hnext := h.next_same ((valid_decoding_iff h.command).2 ⟨h.ready, hc, hline'.trans_lt hline, hcur', hout'⟩)
      (congrArg (· * 72) hline'.symm)
      (decodeRest_group hroom hcur ((hsource _ hcur).symm.trans hread) hgroup hmoves hout' hline')
    refine .goes (.underway hnext) ?_
    have hcur : d.cur < s.latch.srcLen.toNat := hcur
    have hcur' : _ ≤ s.latch.srcLen.toNat := hcur'
    simp only [Running.stepsLeft]
    omega
  | groupError hroom hcur hread hgroup =>
    replace hgroup := (groupStep_congr hsource).symm.trans hgroup
    exact h.fails hmem (decodeRest_err (decodeLine_err_group hroom hcur ((hsource _ hcur).symm.trans hread) hgroup))
  | groupStop hroom hcur hread hgroup =>
    replace hgroup := (groupStep_congr hsource).symm.trans hgroup
    exact h.stops (decodeRest_stop (decodeLine_stop_group hroom hcur ((hsource _ hcur).symm.trans hread) hgroup))

theorem encoder_progress {e : Encoder} (h : Underway c s bytes (.encoding e)) {o : Host.Outcome State Fault Refusal}
    (hstep : EncoderStep c e (s.underway bytes (.encoding e)) o) :
    Progress s ((Running.encoding e).stepsLeft s.latch) o := by
  obtain ⟨-, hc, -, hpos, hwritten⟩ := (valid_encoding_iff h.command).1 h.valid
  have hlines := lines_le c
  have hlength : bytes.length = e.written := h.length
  have hrow : e.line < c.lines → readBytes (s.underway bytes (.encoding e)).sourceByte (e.line * 72) 72 =
      readBytes s.sourceByte (e.line * 72) 72 := fun hline =>
    readBytes_congr fun k _ hk => h.sourceByte_eq (by rw [inLen_encode hc]; omega)
  cases hstep with
  | done hdone =>
    refine .completes ?_ rfl
    rw [h.completes (encodeRest_done hdone.ge), List.append_nil, hlength]
    rfl
  | row hline hend =>
    have hnext := h.next_same (r' := .encoding { e with line := e.line + 1, pos := 0 })
      ((valid_encoding_iff h.command).2 ⟨h.ready, hc, hline, Nat.zero_le _, hwritten⟩) rfl
      ((encodeRest_row_end hline hend.ge).trans (encodeRows_eq_encodeRest _ hline))
    refine .goes (.underway hnext) ?_
    simp only [Running.stepsLeft]
    omega
  | unreadable hline hpos hread =>
    exact h.stops (encodeRest_unreadable hline hpos ((hrow hline).symm.trans hread))
  | overflow hline hpos hread hover =>
    exact h.fails hmem (encodeRest_overflow hline ((hrow hline).symm.trans hread) hpos hover)
  | group hline hpos hread hroom hmoves hpos' =>
    have hnext := h.next (more := encodeGroup _) (r' := .encoding (e.afterGroup _))
      ((valid_encoding_iff h.command).2 ⟨h.ready, hc, hline.le, hpos', hroom⟩)
      (by rw [List.length_append, hlength]; rfl)
      (encodeRest_group hline ((hrow hline).symm.trans hread) hpos hroom hpos')
    refine .goes (underway_write hlength _ _ _ ▸ .underway hnext) ?_
    simp only [Running.stepsLeft]
    omega

end

/-- Nothing is written when a command begins, and all of its result is left. -/
theorem underway_begin (hcommand : s.latch.command = some c) (hready : Ready c s.latch) :
    Underway c s [] c.begin := by
  have hrest : c.body s.latch s.sourceByte = c.begin.rest c s.latch s.sourceByte := by
    obtain hc | hc | rfl := command_kinds c
    · rw [body_encode hc, show c.begin = .encoding { line := 0, pos := 0, written := 0 } by
        obtain rfl | rfl := hc <;> rfl]
      exact encodeRows_eq_encodeRest _ (Nat.zero_le _)
    · rw [body_decode hc, show c.begin = .decoding { cur := 0, out := [], line := 0 } by
        obtain rfl | rfl := hc <;> rfl]
      have hlines : 0 < c.lines := by obtain rfl | rfl := hc <;> decide
      exact decodeRows_eq_decodeRest hlines
    · exact ditherBody_eq_ditherRest Config.divRound
  exact {
    command := hcommand
    ready := hready
    valid := begin_valid hcommand hready
    length := by cases c <;> rfl
    result := by rw [hrest, CmdResult.after_nil] }

theorem stepsLeft_begin_lt (c : Command) (l : Latch) : c.begin.stepsLeft l < Running.fresh.stepsLeft l := by
  have hlen := l.srcLen.isLt
  cases c <;> simp only [Command.begin, Running.stepsLeft, ditherStart] <;> omega

section

variable (hfresh : s.run = .fresh) (hmem : s.mem.wf)

include hfresh hmem

theorem underway_nil_fresh : s.underway [] .fresh = s := by
  rw [State.underway, Memory.write_nil hmem (Nat.le_of_lt s.latch.dst.isLt), ← hfresh]

/-- The first internal step: an illegal command and a failing check complete the command at once, else it begins. -/
theorem start_progress : Progress s (s.run.stepsLeft s.latch) (advanceStep s) := by
  cases hcommand : s.latch.command with
  | none =>
    rw [advanceStep_illegal hcommand, completionStep_illegal hcommand]
    exact .completes (completionStep_illegal hcommand) rfl
  | some c =>
    cases hpre : c.precheck s.latch with
    | some e =>
      rw [advanceStep_precheck hcommand hfresh hpre]
      refine .completes ?_ rfl
      rw [completionStep_command hcommand, exec_command, hpre]
    | none =>
      have hready := (precheck_eq_none_iff c s.latch).1 hpre
      have hbegin : ({ s with run := c.begin } : State) = s.underway [] c.begin := by
        rw [State.underway, Memory.write_nil hmem (Nat.le_of_lt s.latch.dst.isLt)]
      rw [advanceStep_begin hcommand hfresh hready, hbegin, hfresh]
      exact .goes (.underway (underway_begin hcommand hready)) (stepsLeft_begin_lt c s.latch)

variable {t : State}

theorem Follows.progress (h : Follows s t) : Progress s (t.run.stepsLeft s.latch) (advanceStep t) := by
  cases h with
  | start => exact start_progress hfresh hmem
  | @underway c bytes r h =>
    cases r with
    | fresh =>
      obtain rfl : bytes = [] := List.length_eq_zero_iff.1 h.length
      rw [underway_nil_fresh hfresh hmem]
      exact start_progress hfresh hmem
    | decoding d =>
      rw [advanceStep_decoding (s := s.underway bytes (.decoding d)) h.command rfl]
      exact decoder_progress hmem h (advanceDecoder_step h.command rfl h.valid)
    | encoding e =>
      rw [advanceStep_encoding (s := s.underway bytes (.encoding e)) h.command rfl]
      exact encoder_progress hmem h (advanceEncoder_step h.command h.valid)
    | dithering d =>
      rw [advanceStep_dithering (s := s.underway bytes (.dithering d)) h.command rfl]
      exact ditherer_progress h (advanceDitherer_step h.valid)

omit hfresh in
theorem Follows.completionStep_eq (h : Follows s t) : completionStep t = completionStep s := by
  cases h with
  | start => rfl
  | underway h => exact h.completionStep_eq hmem

/-! ### Any number of internal steps -/

variable {u : State} (hbusy : s.phase = .busy)

include hbusy

omit hfresh hmem in
theorem Follows.phase_busy (h : Follows s t) : t.phase = .busy := by
  cases h <;> exact hbusy

/-- After any number of internal steps the command has completed as the completion step says, or is under way. -/
theorem Follows.of_advanceTimes {k : Nat} (h : Follows s t) (hsteps : advanceTimes k t = .next u) :
    (u.phase = .idle ∧ completionStep s = .next u) ∨ Follows s u := by
  induction k generalizing t with
  | zero =>
    cases hsteps
    exact .inr h
  | succ k ih =>
    have hprogress := h.progress hfresh hmem
    have hbusyt := h.phase_busy hbusy
    generalize hstep : advanceStep t = o at hprogress
    cases hprogress with
    | goes hfollows => exact ih hfollows ((advanceTimes_next hbusyt hstep k).symm.trans hsteps)
    | completes hcompletes hidle =>
      cases ((advanceTimes_next hbusyt hstep k).trans (advanceTimes_idle hidle k)).symm.trans hsteps
      exact .inl ⟨hidle, hcompletes⟩
    | stops => cases (advanceTimes_fault hbusyt hstep k).symm.trans hsteps

/-- The internal steps end in what the completion step gives. -/
theorem Follows.exists_advanceTimes (h : Follows s t) : ∃ k, advanceTimes k t = completionStep s := by
  generalize hleft : t.run.stepsLeft s.latch = n
  induction n using Nat.strong_induction_on generalizing t with
  | _ n ih =>
    have hprogress := h.progress hfresh hmem
    have hbusyt := h.phase_busy hbusy
    generalize hstep : advanceStep t = o at hprogress
    cases hprogress with
    | goes hfollows hless =>
      obtain ⟨k, hk⟩ := ih _ (hleft ▸ hless) hfollows rfl
      exact ⟨k + 1, (advanceTimes_next hbusyt hstep k).trans hk⟩
    | completes hcompletes hidle => exact ⟨1, (advanceTimes_next hbusyt hstep 0).trans hcompletes.symm⟩
    | stops hstops => exact ⟨1, (advanceTimes_fault hbusyt hstep 0).trans hstops.symm⟩

end

end

end Sys2Proof

namespace Sys2Proof.Proofs

open Machine

/-- Settles O54: each internal step leads to a state from which the completion step still gives the same, with fewer
steps left, or to what the completion step gives. -/
theorem internalStepsAgreeWithTheCompletionStep : Obligations.InternalStepsAgreeWithTheCompletionStep := by
  intro s hbusy hfresh hmem
  obtain ⟨k, hk⟩ := Follows.start.exists_advanceTimes hfresh hmem hbusy
  refine ⟨fun k t hsteps => ?_, fun u hu => ⟨k, hk.trans hu⟩, fun f hf => ⟨k, hk.trans hf⟩⟩
  obtain ⟨hidle, hcompletes⟩ | hfollows := Follows.start.of_advanceTimes hfresh hmem hbusy hsteps
  · exact ⟨fun _ => hcompletes, fun h => by simp [hidle] at h⟩
  · exact ⟨fun h => by simp [hfollows.phase_busy hbusy] at h, fun _ => hfollows.completionStep_eq hmem⟩

end Sys2Proof.Proofs
